-- ==== Sys2Proof/Word.lean ====
section
/-!
DEFINITION. The word and the two-word value of the block (spec/00_scope.md R7, R9), and the split of a
two-word value into its high and low word.
-/
namespace Sys2Proof

/-- A word: `W` = 64 bits (R7, R9). -/
abbrev Word := BitVec 64

/-- A two-word value: 128 bits, `hi * 2^64 + lo` (R9). -/
abbrev Dword := BitVec 128

/-- `v.lo = v[63:0]` (R9). -/
def loWord (v : Dword) : Word := BitVec.ofNat 64 v.toNat

/-- `v.hi = v[127:64]` (R9). -/
def hiWord (v : Dword) : Word := BitVec.ofNat 64 (v.toNat / 0x10000000000000000)

/-- `{hi, lo}`: the two-word value with these words (R9). -/
def pair (hi lo : Word) : Dword := BitVec.ofNat 128 (hi.toNat * 0x10000000000000000 + lo.toNat)

end Sys2Proof
end

