-- ==== Sys2Proof/Config.lean ====
section
/-!
DEFINITION. The constants of the block (spec/00_scope.md R7), the model's own bounds on nesting, and the one free
value: what the host reads from a result slot while a command runs.
-/
namespace Sys2Proof.Config

/-- The word base `B = 2^64` (R7). -/
def base : Nat := 0x10000000000000000

/-- `2^127`: a two-word modulus must lie below it (spec/70_reset_and_hazards.md R241). -/
def topBit : Nat := 0x80000000000000000000000000000000

/-- `NFACT_MAX`: the ordered table of the accumulator has 26 entries (R7). -/
def nfactMax : Nat := 26

/-- The largest multiplicity an `E_BITS` = 8 bit field holds (R7; spec/45_accumulator.md R181). -/
def multMax : Nat := 255

/-- `MR_REPS`: Miller-Rabin tests behind a verdict "prime" in probabilistic mode (R7). -/
def mrReps : Nat := 25

/-- `RHO_BATCH`: steps between batched gcds (R7). -/
def rhoBatch : Nat := 32

/-- The recommended default of the open parameter `TD_COUNT` (R7, R8). DESIGN CHOICE (log 1): the value State.reset
carries; every meaning takes `TD_COUNT` from the state. Unsafe for a block with another table. -/
def tdDefault : Nat := 668

/-- How many nested calls of rho, oracle and factor one command may hold (spec/44_rho_factor.md R170,
spec/70_reset_and_hazards.md R239: 128 rho frames and 128 oracle frames suffice). DEDUCED (log 7): 512 is above
what any nesting reaches. Safe: a command cut by it is modelled as one that does not return. -/
def nesting : Nat := 512

/-- The value a host read of `x[i]`, `FLAGS`, `ECAUSE` or a `FACC` slot returns while `BUSY = 1`, for the read with
this serial number: unspecified (spec/20_memory.md R57, spec/93_implementation_defined.md U6). A free value (log 4):
it has no body and no statement can rest on what it is. Safe. -/
opaque busyRead : Nat → Word

end Sys2Proof.Config
end

