-- ==== Sys2Proof/Syntax.lean ====
section
/-!
DEFINITION. The 26 commands (spec/30_encoding.md R74, spec/opcode_table.json), one constructor each, with the operands
in slot order.
-/
namespace Sys2Proof

/-- A register number: a slot value `k` names `x[k]`, `0 <= k < 16` (R72). -/
abbrev Reg := Fin 16

/-- A command. `sh` is the shift count, `a` the start value of the rho parameter, `m` a multiplicity: unsigned
immediates (R73) whose ranges `WellFormed` checks. -/
inductive Instr where
  | add2 (rd ra rb : Reg)
  | sub2 (rd ra rb : Reg)
  | cmp2 (ra rb : Reg)
  | shl2 (rd ra : Reg) (sh : Nat)
  | shr2 (rd ra : Reg) (sh : Nat)
  | minv (rd ra : Reg)
  | tomont1 (rd ra rn : Reg)
  | tomont2 (rd ra rn : Reg)
  | mulredc1 (rd ra rb rn ri : Reg)
  | mulredc2 (rd ra rb rn ri : Reg)
  | powredc1 (rd ra re rn ri ro : Reg)
  | powredc2 (rd ra re rn ri ro : Reg)
  | tdiv (rd ra : Reg)
  | mr1 (rd rn rb : Reg)
  | mr2 (rd rn rb : Reg)
  | prime1 (rd rn : Reg)
  | prime2 (rd rn : Reg)
  | isprime (rd rn : Reg)
  | gcd1 (rd ra rb : Reg)
  | gcd2 (rd ra rb : Reg)
  | rho1 (rn : Reg) (a : Nat)
  | rho2 (rn : Reg) (a : Nat)
  | factor (rn : Reg)
  | fclr
  | fins (ra : Reg) (m : Nat)
  | finsl (ra : Reg)
deriving DecidableEq, Repr

/-- The mnemonic of the opcode table (R74). -/
def Instr.mnemonic : Instr → String
  | .add2 _ _ _ => "ADD2"
  | .sub2 _ _ _ => "SUB2"
  | .cmp2 _ _ => "CMP2"
  | .shl2 _ _ _ => "SHL2"
  | .shr2 _ _ _ => "SHR2"
  | .minv _ _ => "MINV"
  | .tomont1 _ _ _ => "TOMONT1"
  | .tomont2 _ _ _ => "TOMONT2"
  | .mulredc1 _ _ _ _ _ => "MULREDC1"
  | .mulredc2 _ _ _ _ _ => "MULREDC2"
  | .powredc1 _ _ _ _ _ _ => "POWREDC1"
  | .powredc2 _ _ _ _ _ _ => "POWREDC2"
  | .tdiv _ _ => "TDIV"
  | .mr1 _ _ _ => "MR1"
  | .mr2 _ _ _ => "MR2"
  | .prime1 _ _ => "PRIME1"
  | .prime2 _ _ => "PRIME2"
  | .isprime _ _ => "ISPRIME"
  | .gcd1 _ _ _ => "GCD1"
  | .gcd2 _ _ _ => "GCD2"
  | .rho1 _ _ => "RHO1"
  | .rho2 _ _ => "RHO2"
  | .factor _ => "FACTOR"
  | .fclr => "FCLR"
  | .fins _ _ => "FINS"
  | .finsl _ => "FINSL"

end Sys2Proof
end

