-- ==== Sys2Proof/WellFormed.lean ====
section
/-!
DEFINITION. When a command has an encoding: its immediate fits its field (spec/30_encoding.md R73). Register numbers
are in range by their type.
-/
namespace Sys2Proof

/-- `sh` is a 7-bit field and `imm8` an 8-bit field, both unsigned (R73). -/
def Instr.wellFormed : Instr → Bool
  | .shl2 _ _ sh => decide (sh < 128)
  | .shr2 _ _ sh => decide (sh < 128)
  | .rho1 _ a => decide (a < 256)
  | .rho2 _ a => decide (a < 256)
  | .fins _ m => decide (m < 256)
  | .add2 _ _ _ => true
  | .sub2 _ _ _ => true
  | .cmp2 _ _ => true
  | .minv _ _ => true
  | .tomont1 _ _ _ => true
  | .tomont2 _ _ _ => true
  | .mulredc1 _ _ _ _ _ => true
  | .mulredc2 _ _ _ _ _ => true
  | .powredc1 _ _ _ _ _ _ => true
  | .powredc2 _ _ _ _ _ _ => true
  | .tdiv _ _ => true
  | .mr1 _ _ _ => true
  | .mr2 _ _ _ => true
  | .prime1 _ _ => true
  | .prime2 _ _ => true
  | .isprime _ _ => true
  | .gcd1 _ _ _ => true
  | .gcd2 _ _ _ => true
  | .factor _ => true
  | .fclr => true
  | .finsl _ => true

/-- The command can be encoded. -/
abbrev WellFormed (i : Instr) : Prop := i.wellFormed = true

end Sys2Proof
end

