-- ==== Sys2Proof/Decode.lean ====
section
/-!
DEFINITION. The command word (spec/30_encoding.md): the opcode table of R74 as data, the decoder by slots (R70 to R73,
R76), the encoder, and the pseudo-instructions of R80.
-/
namespace Sys2Proof

/-- Why a value written to `CMD` is not a command (R70, R76). Each raises the fault `ILLEGAL`. -/
inductive Illegal where
  /-- `v[63:32]` is not zero. -/
  | highHalf
  /-- The opcode byte is none of the 26. -/
  | unusedOpcode (op : Nat)
  /-- A listed opcode with a nonzero bit outside the slots its row uses. -/
  | reservedBits (op : Nat)
deriving DecidableEq, Repr

/-- One row of the opcode table (R74). -/
structure OpRow where
  mnemonic : String
  matchBits : Nat
  mask : Nat
deriving DecidableEq, Repr

/-- The table of R74: a word `c` selects the row whose `match` equals `c AND mask`. -/
def opcodeTable : List OpRow :=
  [⟨"ADD2", 0x00000001, 0xFFF000FF⟩, ⟨"SUB2", 0x00000002, 0xFFF000FF⟩, ⟨"CMP2", 0x00000003, 0xFFF00FFF⟩,
   ⟨"SHL2", 0x00000004, 0xFF8000FF⟩, ⟨"SHR2", 0x00000005, 0xFF8000FF⟩, ⟨"MINV", 0x00000010, 0xFFFF00FF⟩,
   ⟨"TOMONT1", 0x00000011, 0xFFF000FF⟩, ⟨"TOMONT2", 0x00000012, 0xFFF000FF⟩] ++
  [⟨"MULREDC1", 0x00000013, 0xF00000FF⟩, ⟨"MULREDC2", 0x00000014, 0xF00000FF⟩,
   ⟨"POWREDC1", 0x00000015, 0x000000FF⟩, ⟨"POWREDC2", 0x00000016, 0x000000FF⟩,
   ⟨"TDIV", 0x00000020, 0xFFFF00FF⟩, ⟨"MR1", 0x00000030, 0xFFF000FF⟩, ⟨"MR2", 0x00000031, 0xFFF000FF⟩,
   ⟨"PRIME1", 0x00000032, 0xFFFF00FF⟩, ⟨"PRIME2", 0x00000033, 0xFFFF00FF⟩] ++
  [⟨"ISPRIME", 0x00000034, 0xFFFF00FF⟩, ⟨"GCD1", 0x00000040, 0xFFF000FF⟩, ⟨"GCD2", 0x00000041, 0xFFF000FF⟩,
   ⟨"RHO1", 0x00000042, 0xFF000FFF⟩, ⟨"RHO2", 0x00000043, 0xFF000FFF⟩, ⟨"FACTOR", 0x00000044, 0xFFFF0FFF⟩,
   ⟨"FCLR", 0x00000050, 0xFFFFFFFF⟩, ⟨"FINS", 0x00000051, 0xFF000FFF⟩, ⟨"FINSL", 0x00000052, 0xFFFF0FFF⟩]

/-! The slots of R71 and the immediates of R73, read from a command word. -/

def slot1 (c : Nat) : Reg := Fin.ofNat 16 (c / 0x100)
def slot2 (c : Nat) : Reg := Fin.ofNat 16 (c / 0x1000)
def slot3 (c : Nat) : Reg := Fin.ofNat 16 (c / 0x10000)
def slot4 (c : Nat) : Reg := Fin.ofNat 16 (c / 0x100000)
def slot5 (c : Nat) : Reg := Fin.ofNat 16 (c / 0x1000000)
def slot6 (c : Nat) : Reg := Fin.ofNat 16 (c / 0x10000000)

/-- `sh = c[22:16]` (R73). -/
def shiftField (c : Nat) : Nat := c / 0x10000 % 0x80

/-- `imm8 = c[23:16]` (R73). -/
def immField (c : Nat) : Nat := c / 0x10000 % 0x100

/-- Accept `i` when every reserved bit of its row is zero (R76). -/
def accept (reservedZero : Bool) (op : Nat) (i : Instr) : Except Illegal Instr :=
  if reservedZero then .ok i else .error (.reservedBits op)

/-- Format R with three slots, bits 31:20 reserved. -/
def decodeR3 (c : Nat) (i : Instr) : Except Illegal Instr := accept (c / 0x100000 == 0) (c % 0x100) i

/-- Format R with two slots, bits 31:16 reserved. -/
def decodeR2 (c : Nat) (i : Instr) : Except Illegal Instr := accept (c / 0x10000 == 0) (c % 0x100) i

/-- Format R with five slots, bits 31:28 reserved. -/
def decodeR5 (c : Nat) (i : Instr) : Except Illegal Instr := accept (c / 0x10000000 == 0) (c % 0x100) i

/-- Format R with the slot `s2` alone: bits 31:16 and 11:8 reserved. -/
def decodeRS2 (c : Nat) (i : Instr) : Except Illegal Instr :=
  accept (c / 0x10000 == 0 && c / 0x100 % 0x10 == 0) (c % 0x100) i

/-- Format S: bits 31:23 reserved. -/
def decodeS (c : Nat) (i : Instr) : Except Illegal Instr := accept (c / 0x800000 == 0) (c % 0x100) i

/-- Format I: bits 31:24 and 11:8 reserved. -/
def decodeI (c : Nat) (i : Instr) : Except Illegal Instr :=
  accept (c / 0x1000000 == 0 && c / 0x100 % 0x10 == 0) (c % 0x100) i

/-- The decoder on the command word `c = v[31:0]` (R71 to R76). -/
def decodeWord (c : Nat) : Except Illegal Instr :=
  match c % 0x100 with
  | 0x01 => decodeR3 c (.add2 (slot1 c) (slot2 c) (slot3 c))
  | 0x02 => decodeR3 c (.sub2 (slot1 c) (slot2 c) (slot3 c))
  | 0x03 => accept (c / 0x100000 == 0 && c / 0x100 % 0x10 == 0) (c % 0x100) (.cmp2 (slot2 c) (slot3 c))
  | 0x04 => decodeS c (.shl2 (slot1 c) (slot2 c) (shiftField c))
  | 0x05 => decodeS c (.shr2 (slot1 c) (slot2 c) (shiftField c))
  | 0x10 => decodeR2 c (.minv (slot1 c) (slot2 c))
  | 0x11 => decodeR3 c (.tomont1 (slot1 c) (slot2 c) (slot3 c))
  | 0x12 => decodeR3 c (.tomont2 (slot1 c) (slot2 c) (slot3 c))
  | 0x13 => decodeR5 c (.mulredc1 (slot1 c) (slot2 c) (slot3 c) (slot4 c) (slot5 c))
  | 0x14 => decodeR5 c (.mulredc2 (slot1 c) (slot2 c) (slot3 c) (slot4 c) (slot5 c))
  | 0x15 => .ok (.powredc1 (slot1 c) (slot2 c) (slot3 c) (slot4 c) (slot5 c) (slot6 c))
  | 0x16 => .ok (.powredc2 (slot1 c) (slot2 c) (slot3 c) (slot4 c) (slot5 c) (slot6 c))
  | 0x20 => decodeR2 c (.tdiv (slot1 c) (slot2 c))
  | 0x30 => decodeR3 c (.mr1 (slot1 c) (slot2 c) (slot3 c))
  | 0x31 => decodeR3 c (.mr2 (slot1 c) (slot2 c) (slot3 c))
  | 0x32 => decodeR2 c (.prime1 (slot1 c) (slot2 c))
  | 0x33 => decodeR2 c (.prime2 (slot1 c) (slot2 c))
  | 0x34 => decodeR2 c (.isprime (slot1 c) (slot2 c))
  | 0x40 => decodeR3 c (.gcd1 (slot1 c) (slot2 c) (slot3 c))
  | 0x41 => decodeR3 c (.gcd2 (slot1 c) (slot2 c) (slot3 c))
  | 0x42 => decodeI c (.rho1 (slot2 c) (immField c))
  | 0x43 => decodeI c (.rho2 (slot2 c) (immField c))
  | 0x44 => decodeRS2 c (.factor (slot2 c))
  | 0x50 => accept (c / 0x100 == 0) (c % 0x100) .fclr
  | 0x51 => decodeI c (.fins (slot2 c) (immField c))
  | 0x52 => decodeRS2 c (.finsl (slot2 c))
  | op => .error (.unusedOpcode op)

/-- The decoder on the whole 64-bit value written to `CMD`: `v[63:32]` must be zero (R70). -/
def decode (v : Word) : Except Illegal Instr :=
  if v.toNat / 0x100000000 = 0 then decodeWord v.toNat else .error .highHalf

/-- The command word from its opcode and six slots (R71). -/
def packSlots (op : Nat) (s1 s2 s3 s4 s5 s6 : Nat) : Nat :=
  op + 0x100 * s1 + 0x1000 * s2 + 0x10000 * s3 + 0x100000 * s4 + 0x1000000 * s5 + 0x10000000 * s6

/-- The command word with an immediate at bit 16 (formats S and I of R71). -/
def packImm (op : Nat) (s1 s2 imm : Nat) : Nat := op + 0x100 * s1 + 0x1000 * s2 + 0x10000 * imm

/-- The command word of an instruction (R71, R74). -/
def encodeWord : Instr → Nat
  | .add2 rd ra rb => packSlots 0x01 rd ra rb 0 0 0
  | .sub2 rd ra rb => packSlots 0x02 rd ra rb 0 0 0
  | .cmp2 ra rb => packSlots 0x03 0 ra rb 0 0 0
  | .shl2 rd ra sh => packImm 0x04 rd ra sh
  | .shr2 rd ra sh => packImm 0x05 rd ra sh
  | .minv rd ra => packSlots 0x10 rd ra 0 0 0 0
  | .tomont1 rd ra rn => packSlots 0x11 rd ra rn 0 0 0
  | .tomont2 rd ra rn => packSlots 0x12 rd ra rn 0 0 0
  | .mulredc1 rd ra rb rn ri => packSlots 0x13 rd ra rb rn ri 0
  | .mulredc2 rd ra rb rn ri => packSlots 0x14 rd ra rb rn ri 0
  | .powredc1 rd ra re rn ri ro => packSlots 0x15 rd ra re rn ri ro
  | .powredc2 rd ra re rn ri ro => packSlots 0x16 rd ra re rn ri ro
  | .tdiv rd ra => packSlots 0x20 rd ra 0 0 0 0
  | .mr1 rd rn rb => packSlots 0x30 rd rn rb 0 0 0
  | .mr2 rd rn rb => packSlots 0x31 rd rn rb 0 0 0
  | .prime1 rd rn => packSlots 0x32 rd rn 0 0 0 0
  | .prime2 rd rn => packSlots 0x33 rd rn 0 0 0 0
  | .isprime rd rn => packSlots 0x34 rd rn 0 0 0 0
  | .gcd1 rd ra rb => packSlots 0x40 rd ra rb 0 0 0
  | .gcd2 rd ra rb => packSlots 0x41 rd ra rb 0 0 0
  | .rho1 rn a => packImm 0x42 0 rn a
  | .rho2 rn a => packImm 0x43 0 rn a
  | .factor rn => packSlots 0x44 0 rn 0 0 0 0
  | .fclr => packSlots 0x50 0 0 0 0 0 0
  | .fins ra m => packImm 0x51 0 ra m
  | .finsl ra => packSlots 0x52 0 ra 0 0 0 0

/-- The value the host writes to `CMD` to issue the instruction: the command word, high half zero (R70). -/
def encode (i : Instr) : Word := BitVec.ofNat 64 (encodeWord i)

/-- The `CMD` value whose low `nbits` bits are those of `w`, every higher bit zero. -/
def commandValue (nbits w : Nat) : Word := BitVec.ofNat 64 (w % 2 ^ nbits)

/-- What the decoder reads from an instruction whose bits are `w`, numbered as spec/opcode_table.json numbers them. -/
def decodeTableWord (nbits w : Nat) : Option Instr :=
  match decode (commandValue nbits w) with
  | .ok i => some i
  | .error _ => none

/-! The pseudo-instructions of R80, each one command. -/

/-- `MOV2 xd, xa` is `SHL2 xd, xa, 0`. -/
def mov2 (xd xa : Reg) : Instr := .shl2 xd xa 0

/-- `FROMMONT1 xd, xa, xn, xi, xu` is `MULREDC1 xd, xa, xu, xn, xi`. -/
def fromMont1 (xd xa xn xi xu : Reg) : Instr := .mulredc1 xd xa xu xn xi

/-- `FROMMONT2 xd, xa, xn, xi, xu` is `MULREDC2 xd, xa, xu, xn, xi`. -/
def fromMont2 (xd xa xn xi xu : Reg) : Instr := .mulredc2 xd xa xu xn xi

end Sys2Proof
end

