-- ==== Sys2Proof/Machine/State.lean ====
section
/-!
DEFINITION. The architectural state (spec/10_state.md), the fault codes (spec/60_exceptions.md R201), what the host can
do (spec/20_memory.md R52), and the state after reset (R35). Plain data throughout.
-/
namespace Sys2Proof.Machine

/-- The codes of the command fault (R201). A command fault is a NEXT state (`raiseFault`), never a stop. -/
inductive FaultCode where
  /-- 1: the value written to `CMD` is not a command. -/
  | illegal
  /-- 2: an operand that must be odd is even. -/
  | even
  /-- 3: a two-word modulus has bit 127 set. -/
  | topBit
  /-- 4: an operand is outside its range. -/
  | range
  /-- 5: the inverse operand is wrong. -/
  | inv
  /-- 6: `insert` of a new prime with 26 entries. -/
  | accFull
  /-- 7: `insert_large` of a two-word value when the large slot is set. -/
  | accLarge
  /-- 8: `insert` would take a multiplicity above 255. -/
  | accMult
  /-- 9: proof mode, every base tried and none passed all Lucas checks. -/
  | lucasFail
deriving DecidableEq, Repr

/-- `FLAGS` (R24): carry/borrow/"less than" and zero/"equal". Bits 63:2 have no storage. -/
structure Flags where
  c : Bool
  z : Bool
deriving DecidableEq, Repr

/-- `STATUS` (R26). Bits 63:5 have no storage. -/
structure Status where
  busy : Bool
  done : Bool
  err : Bool
  fatal : Bool
  lost : Bool
deriving DecidableEq, Repr

/-- One valid pair of the accumulator: a 64-bit prime and its `E_BITS` = 8 bit multiplicity (R30). -/
structure Entry where
  p : Word
  e : BitVec 8
deriving DecidableEq, Repr

/-- The factor accumulator `FACC` (R30). `pairs` holds the `NF` valid pairs in slot order; the slots at or above `NF`
hold 0 by R30 and need no storage (log 10). `plarge` is the large residual factor, empty when its high word is 0. -/
structure Facc where
  pairs : List Entry
  plarge : Dword
deriving DecidableEq, Repr

/-- The open parameter of an implementation (spec/00_scope.md R7, R8): `TD_COUNT`, the number of odd primes in the
prime table. The model takes it as data of the state that no step changes (log 1). -/
structure Params where
  tdCount : Nat
deriving DecidableEq, Repr

/-- What the host can do to the block (spec/20_memory.md R52, R54; spec/70_reset_and_hazards.md R230), and the passing
of time (log 2, log 3). `width` is the access width in bytes, `off` the byte offset from the window's base. -/
inductive HostEvent where
  /-- `HostRead(off)`, or a read of another width, which the window refuses. -/
  | read (off width : Nat)
  /-- `HostWrite(off, v)`, or a write of another width, which the window refuses whatever it carries. -/
  | write (off width : Nat) (v : Word)
  /-- The reset input is pulled. -/
  | reset
  /-- Time passes: a running command is carried out. Also the `WAIT` of spec/30_encoding.md R79. -/
  | elapse
deriving DecidableEq, Repr

/-- The state of the block, then the model's own fields. -/
structure State where
  /-- The general registers `x[0]` to `x[15]` (R20). -/
  x : Vector Dword 16
  /-- `FLAGS` (R24). -/
  flags : Flags
  /-- `CMD`: the last issued value, all 64 bits (R25). -/
  cmd : Word
  /-- `STATUS` (R26). -/
  status : Status
  /-- `CTRL.PROVE` (R27). -/
  prove : Bool
  /-- `ECAUSE[7:0]` (R28). -/
  ecause : BitVec 8
  /-- `FACC` (R30). -/
  facc : Facc
  /-- The value of `CTRL.PROVE` sampled when the running command was issued (R25, R27). Hidden; log 11. -/
  proveSample : Bool
  /-- MODEL: the implementation's open parameter (log 1). -/
  params : Params
  /-- MODEL: what the host does next, in order (log 2). -/
  host : List HostEvent
  /-- MODEL: what the last `HostRead` returned (log 5). -/
  rdata : Word
  /-- MODEL: how many unspecified reads were made; the argument of `Config.busyRead` (log 4). -/
  freeIdx : Nat
deriving DecidableEq, Repr

/-- Why the machine stops. No command stops it; only a host action outside the window does. -/
inductive Fault where
  /-- Raised by `step` on a host access at an offset outside 0x000 to 0x7FF: no access to this block
  (spec/20_memory.md R51, R52). Safe (log 9). -/
  | outsideWindow
deriving DecidableEq, Repr

/-- Why the model gives no meaning. No arm of `exec` uses it: every command of the table is modelled. -/
inductive Refusal where
  /-- The instruction of this mnemonic has no meaning yet. Raised by an arm of `exec` only. Safe. -/
  | notModelled (mnemonic : String)
deriving DecidableEq, Repr

/-- The empty accumulator: `NF = 0`, every slot 0 (R35; spec/45_accumulator.md R180). -/
def Facc.empty : Facc := { pairs := [], plarge := 0 }

/-- The state after reset (R35). The model's own fields take the values of logs 1, 2, 4, 5 and 11. -/
def State.reset : State :=
  { x := Vector.replicate 16 0
    flags := { c := false, z := false }
    cmd := 0
    status := { busy := false, done := false, err := false, fatal := false, lost := false }
    prove := false
    ecause := 0
    facc := Facc.empty
    proveSample := false
    params := { tdCount := Config.tdDefault }
    host := []
    rdata := 0
    freeIdx := 0 }

/-- What one step, and one instruction, answers. -/
abbrev Result := Host.Outcome State Fault Refusal

end Sys2Proof.Machine
end

