-- ==== Sys2Proof/Machine/Ops.lean ====
section
/-!
DEFINITION. The named operations every meaning is built from: registers (spec/10_state.md R20), the factor accumulator
(spec/45_accumulator.md), issuing and completing a command (R25, spec/30_encoding.md R75), and taking, acknowledging
and being reset out of a command fault (spec/60_exceptions.md R204, R207; spec/70_reset_and_hazards.md R230).
-/
namespace Sys2Proof.Machine

/-! ### Registers -/

/-- `x[r]` (spec/00_scope.md R10). -/
def readReg (r : Reg) (s : State) : Dword := s.x[r.val]

/-- `x[r] <- v`. -/
def writeReg (r : Reg) (v : Dword) (s : State) : State := { s with x := s.x.set r.val v }

/-- The accumulator is replaced by `acc`. -/
def setFacc (acc : Facc) (s : State) : State := { s with facc := acc }

/-- `FLAGS` is replaced. -/
def setFlags (f : Flags) (s : State) : State := { s with flags := f }

/-! ### Issue, completion, fault -/

/-- Issue the command `v` (R25): `CMD <- v`, `DONE <- 0`, `BUSY <- 1`, and `CTRL.PROVE` is sampled. -/
def issue (v : Word) (s : State) : State :=
  { s with cmd := v, status := { s.status with busy := true, done := false }, proveSample := s.prove }

/-- A command ends without fault (spec/30_encoding.md R75 step 5): `BUSY <- 0`, `DONE <- 1`. -/
def complete (s : State) : State := { s with status := { s.status with busy := false, done := true } }

/-- The code a fault writes to `ECAUSE[7:0]` (R201). -/
def FaultCode.code : FaultCode → BitVec 8
  | .illegal => 1
  | .even => 2
  | .topBit => 3
  | .range => 4
  | .inv => 5
  | .accFull => 6
  | .accLarge => 7
  | .accMult => 8
  | .lucasFail => 9

/-- `raise F(code)`, the block's trap entry (R204): the code is recorded, `ERR` is set, `FATAL` with it for
`LUCAS_FAIL`, and `BUSY` is cleared; `DONE` stays what the issue made it, 0. Nothing else is saved or switched. -/
def raiseFault (code : FaultCode) (s : State) : State :=
  { s with
    ecause := code.code
    status := { s.status with
      busy := false, err := true, fatal := s.status.fatal || decide (code = .lucasFail) } }

/-- A host write of `v` to `STATUS` while `BUSY = 0` (R26), the block's trap return (R207): each of `DONE`, `ERR`,
`LOST` whose written bit is 1 is cleared, `ERR` only while `FATAL = 0`; clearing `ERR` zeroes `ECAUSE`. -/
def acknowledge (v : Word) (s : State) : State :=
  let clearErr := v.getLsbD 2 && !s.status.fatal
  { s with
    ecause := if clearErr then 0 else s.ecause
    status := { s.status with
      done := s.status.done && !v.getLsbD 1
      err := s.status.err && !clearErr
      lost := s.status.lost && !v.getLsbD 4 } }

/-- A host write was dropped: `LOST <- 1` and nothing else (spec/20_memory.md R56). -/
def dropWrite (s : State) : State := { s with status := { s.status with lost := true } }

/-- The reset event (spec/70_reset_and_hazards.md R230): every piece of architectural state at its reset value. The
implementation's parameter, the host's own queue and last read, and the free-value counter are not the block's
state and stay (log 12). -/
def resetEvent (s : State) : State :=
  { State.reset with params := s.params, host := s.host, rdata := s.rdata, freeIdx := s.freeIdx }

/-- The engine completes the command in state `s`. -/
def finish (s : State) : Result := .next (complete s)

/-- The engine ends the command with a fault in state `s`. -/
def trap (code : FaultCode) (s : State) : Result := .next (raiseFault code s)

/-- The first check that fails, in the order listed (spec/60_exceptions.md R205). -/
def firstFailed : List (Bool × FaultCode) → Option FaultCode
  | [] => none
  | (ok, code) :: rest => if ok then firstFailed rest else some code

/-- `require ... else ...`, one line a check (spec/00_scope.md R10): the first failing check is the fault raised, having
written nothing; otherwise the command goes on. -/
def guarded (checks : List (Bool × FaultCode)) (s : State) (go : Unit → Result) : Result :=
  match firstFailed checks with
  | some code => trap code s
  | none => go ()

/-! ### The factor accumulator -/

/-- `FACC.NF` (R30). -/
def Facc.nf (f : Facc) : Nat := f.pairs.length

/-- `FACC.P[i]` (R30): 0 at or above `NF`. -/
def Facc.primeSlot (i : Nat) (f : Facc) : Word := ((f.pairs[i]?).map Entry.p).getD 0

/-- `FACC.E[i]` (R30): 0 at or above `NF`. -/
def Facc.multSlot (i : Nat) (f : Facc) : BitVec 8 := ((f.pairs[i]?).map Entry.e).getD 0

/-- The multiplicity recorded for `p`, 0 if `p` is in no valid slot. -/
def Facc.multOf (p : Word) (f : Facc) : Nat := ((f.pairs.find? (fun en => en.p == p)).map (fun en => en.e.toNat)).getD 0

/-- Add `m` to the multiplicity of the pair of `p`. -/
def bumpEntry (p : Word) (m : Nat) (en : Entry) : Entry :=
  if en.p = p then { en with e := BitVec.ofNat 8 (en.e.toNat + m) } else en

/-- `insert(p, m)` (spec/45_accumulator.md R181): find `p` and add to its multiplicity, or create its sorted slot. -/
def insertPrime (p : Word) (m : Nat) (f : Facc) : Except FaultCode Facc :=
  if f.pairs.any (fun en => en.p == p) then
    if f.multOf p + m ≤ Config.multMax then .ok { f with pairs := f.pairs.map (bumpEntry p m) } else .error .accMult
  else if f.nf < Config.nfactMax then
    let i := f.pairs.countP (fun en => decide (en.p.toNat < p.toNat))
    .ok { f with pairs := f.pairs.take i ++ { p := p, e := BitVec.ofNat 8 m } :: f.pairs.drop i }
  else .error .accFull

/-- `insert_large(v)` (R182): a two-word value goes to the empty large slot, a one-word value to the ordered table. -/
def insertLarge (v : Dword) (f : Facc) : Except FaultCode Facc :=
  if hiWord v = 0 then insertPrime (loWord v) 1 f
  else if hiWord f.plarge = 0 then .ok { f with plarge := v }
  else .error .accLarge

end Sys2Proof.Machine
end

