-- ==== Sys2Proof/Machine/Operands.lean ====
section
/-!
DEFINITION. The operand and result forms (spec/10_state.md R21, spec/30_encoding.md R72): full registers, low words, and
verdicts.
-/
namespace Sys2Proof.Machine

/-- A two-word operand: all 128 bits of `x[r]`, as an unsigned integer. -/
def dwordOperand (r : Reg) (s : State) : Nat := (readReg r s).toNat

/-- A one-word operand: `x[r].lo`; `x[r].hi` is ignored (R21). -/
def wordOperand (r : Reg) (s : State) : Nat := (loWord (readReg r s)).toNat

/-- A two-word result: `x[r] <- v`. -/
def writeDword (r : Reg) (v : Nat) (s : State) : State := writeReg r (BitVec.ofNat 128 v) s

/-- A one-word result: `x[r] <- {0, v}` (R21). -/
def writeWord (r : Reg) (v : Nat) (s : State) : State := writeReg r (pair 0 (BitVec.ofNat 64 v)) s

/-- A verdict: `{0, 1}` for true or prime, `{0, 0}` for false or composite (R21). -/
def writeVerdict (r : Reg) (b : Bool) (s : State) : State := writeReg r (pair 0 (if b then 1 else 0)) s

end Sys2Proof.Machine
end

