-- ==== Sys2Proof/Machine/Accumulator.lean ====
section
/-!
DEFINITION. The accumulator commands FCLR, FINS, FINSL (spec/45_accumulator.md R180, R183, R184).
-/
namespace Sys2Proof.Machine

/-- A command that ends with one insert: the accumulator the insert gives, or its fault with `FACC` unchanged
(spec/60_exceptions.md R206). -/
def finishInsert (r : Except FaultCode Facc) (s : State) : Result :=
  match r with
  | .ok acc => finish (setFacc acc s)
  | .error code => trap code s

/-- FCLR (R180). -/
def execFclr (s : State) : Result := finish (setFacc Facc.empty s)

/-- FINS ra, m (R183). -/
def execFins (ra : Reg) (m : Nat) (s : State) : Result :=
  let p := wordOperand ra s
  guarded [(2 ≤ p ∧ 1 ≤ m, .range)] s fun _ =>
    finishInsert (insertPrime (BitVec.ofNat 64 p) m s.facc) s

/-- FINSL ra (R184). -/
def execFinsl (ra : Reg) (s : State) : Result :=
  let v := dwordOperand ra s
  guarded [(2 ≤ v, .range)] s fun _ =>
    finishInsert (insertLarge (BitVec.ofNat 128 v) s.facc) s

end Sys2Proof.Machine
end

