-- ==== Sys2Proof/Machine/Flags.lean ====
section
/-!
DEFINITION. Two-word add, subtract and shift, word by word with the carry or borrow between the words, and the flags
they deliver (spec/40_doubleword.md R100 to R106).
-/
namespace Sys2Proof.Machine

/-- Add with carry of two words (R101): the sum modulo `2^64` and the carry out, 0 or 1. -/
def addCarry (a b : Word) (carry : Nat) : Word × Nat :=
  (BitVec.ofNat 64 (a.toNat + b.toNat + carry), (a.toNat + b.toNat + carry) / Config.base)

/-- Subtract with borrow of two words (R102): the difference modulo `2^64` and the borrow out, 0 or 1. `b + borrow` is
compared as an integer. -/
def subBorrow (a b : Word) (borrow : Nat) : Word × Nat :=
  (BitVec.ofNat 64 (a.toNat + 2 * Config.base - b.toNat - borrow), if a.toNat < b.toNat + borrow then 1 else 0)

/-- The two-word sum of R101 and its carry out. -/
def add2Words (a b : Dword) : Dword × Nat :=
  let low := addCarry (loWord a) (loWord b) 0
  let high := addCarry (hiWord a) (hiWord b) low.2
  (pair high.1 low.1, high.2)

/-- The two-word difference of R102 and its borrow out. -/
def sub2Words (a b : Dword) : Dword × Nat :=
  let low := subBorrow (loWord a) (loWord b) 0
  let high := subBorrow (hiWord a) (hiWord b) low.2
  (pair high.1 low.1, high.2)

/-- The flags of an add or a subtract (R24): `C` the carry or borrow out, `Z` a zero result. -/
def arithFlags (r : Dword × Nat) : Flags := { c := decide (r.2 = 1), z := decide (r.1 = 0) }

/-- The flags of a compare (R103): `C` for "less than", decided word by word, `Z` for "equal". -/
def compareFlags (a b : Dword) : Flags :=
  { c := decide ((hiWord a).toNat < (hiWord b).toNat) ||
      (decide (hiWord a = hiWord b) && decide ((loWord a).toNat < (loWord b).toNat))
    z := decide (hiWord a = hiWord b) && decide (loWord a = loWord b) }

/-- Two-word shift left, word by word (R105). -/
def shl2Words (a : Dword) (sh : Nat) : Dword :=
  if sh = 0 then a
  else if sh < 64 then pair ((hiWord a <<< sh) ||| (loWord a >>> (64 - sh))) (loWord a <<< sh)
  else if sh = 64 then pair (loWord a) 0
  else pair (loWord a <<< (sh - 64)) 0

/-- Two-word logical shift right, word by word (R106). -/
def shr2Words (a : Dword) (sh : Nat) : Dword :=
  if sh = 0 then a
  else if sh < 64 then pair (hiWord a >>> sh) ((loWord a >>> sh) ||| (hiWord a <<< (64 - sh)))
  else if sh = 64 then pair 0 (hiWord a)
  else pair 0 (hiWord a >>> (sh - 64))

end Sys2Proof.Machine
end

