-- ==== Sys2Proof/Machine/DoubleWord.lean ====
section
/-!
DEFINITION. The double-word commands ADD2, SUB2, CMP2, SHL2, SHR2 (spec/40_doubleword.md R100 to R106). They have no
precondition and no fault.
-/
namespace Sys2Proof.Machine

/-- ADD2 rd, ra, rb (R101). -/
def execAdd2 (rd ra rb : Reg) (s : State) : Result :=
  let r := add2Words (readReg ra s) (readReg rb s)
  finish (setFlags (arithFlags r) (writeReg rd r.1 s))

/-- SUB2 rd, ra, rb (R102). -/
def execSub2 (rd ra rb : Reg) (s : State) : Result :=
  let r := sub2Words (readReg ra s) (readReg rb s)
  finish (setFlags (arithFlags r) (writeReg rd r.1 s))

/-- CMP2 ra, rb (R103). -/
def execCmp2 (ra rb : Reg) (s : State) : Result :=
  finish (setFlags (compareFlags (readReg ra s) (readReg rb s)) s)

/-- SHL2 rd, ra, sh (R105). -/
def execShl2 (rd ra : Reg) (sh : Nat) (s : State) : Result :=
  finish (writeReg rd (shl2Words (readReg ra s) sh) s)

/-- SHR2 rd, ra, sh (R106). -/
def execShr2 (rd ra : Reg) (sh : Nat) (s : State) : Result :=
  finish (writeReg rd (shr2Words (readReg ra s) sh) s)

end Sys2Proof.Machine
end

