-- ==== Sys2Proof/Machine/Tables.lean ====
section
/-!
DEFINITION. The constant tables (spec/10_state.md R32, R33): the inverse seed table and the prime table, computed from
`TD_COUNT`. Neither is state and neither is visible to the host.
-/
namespace Sys2Proof.Machine

/-- The seed table `T[0..127]` (R32): `T[j]` is the inverse of `2*j + 1` modulo 256. -/
def seedTable : List Nat :=
  [1, 171, 205, 183, 57, 163, 197, 239, 241, 27, 61, 167, 41, 19, 53, 223] ++
  [225, 139, 173, 151, 25, 131, 165, 207, 209, 251, 29, 135, 9, 243, 21, 191] ++
  [193, 107, 141, 119, 249, 99, 133, 175, 177, 219, 253, 103, 233, 211, 245, 159] ++
  [161, 75, 109, 87, 217, 67, 101, 143, 145, 187, 221, 71, 201, 179, 213, 127] ++
  [129, 43, 77, 55, 185, 35, 69, 111, 113, 155, 189, 39, 169, 147, 181, 95] ++
  [97, 11, 45, 23, 153, 3, 37, 79, 81, 123, 157, 7, 137, 115, 149, 63] ++
  [65, 235, 13, 247, 121, 227, 5, 47, 49, 91, 125, 231, 105, 83, 117, 31] ++
  [33, 203, 237, 215, 89, 195, 229, 15, 17, 59, 93, 199, 73, 51, 85, 255]

/-- One Newton step `v <- 2v - v*v*n` modulo `2^64` (spec/41_modular.md R110). -/
def newtonStep (n v : Word) : Word := 2 * v - v * v * n

/-- `inv64(n)`, `n` odd (R110): the seed for the low 8 bits, then three Newton steps. -/
def inv64 (n : Word) : Word :=
  newtonStep n (newtonStep n (newtonStep n (BitVec.ofNat 64 (seedTable.getD (n.toNat / 2 % 128) 0))))

/-- The inverse used with the modulus `n` of one or two words: `inv64(n.lo)` (R110), as an unsigned integer. -/
def inverseOf (n : Nat) : Nat := (inv64 (BitVec.ofNat 64 n)).toNat

/-- No odd `d, d + 2, ...` with `d * d <= m` divides `m`; the first argument bounds the search. -/
def noOddDivisor : Nat → Nat → Nat → Bool
  | 0, _, _ => true
  | f + 1, d, m => if m < d * d then true else if m % d = 0 then false else noOddDivisor f (d + 2) m

/-- The first of `c, c + 2, c + 4, ...` (`c` odd) without an odd divisor, that is the first prime; the first argument
bounds the search. -/
def nextOddPrime : Nat → Nat → Nat
  | 0, c => c
  | f + 1, c => if noOddDivisor c 3 c then c else nextOddPrime f (c + 2)

/-- The first `k` odd primes from the odd number `c` on, ascending. -/
def oddPrimesFrom : Nat → Nat → List Nat
  | 0, _ => []
  | k + 1, c =>
    let p := nextOddPrime c c
    p :: oddPrimesFrom k (p + 2)

/-- `PRIMES[0..td-1]`: the first `td` odd primes (R33). -/
def tablePrimes (td : Nat) : List Nat := oddPrimesFrom td 3

/-- `FOP`: the smallest prime above the last table prime (R33). -/
def firstOmitted (td : Nat) : Nat := (oddPrimesFrom (td + 1) 3).getLastD 3

/-- An entry of the prime table (R33): the prime, its difference from the entry before, its inverse modulo the word
base, and the largest quotient. -/
structure TableEntry where
  p : Nat
  diff : Nat
  pinv : Nat
  lim : Nat
deriving DecidableEq, Repr

/-- The entries of the primes listed, `prev` being the prime before the first (2 before 3). -/
def entriesFrom : Nat → List Nat → List TableEntry
  | _, [] => []
  | prev, p :: ps => { p := p, diff := p - prev, pinv := inverseOf p, lim := (Config.base - 1) / p } :: entriesFrom p ps

/-- The prime table of `td` entries (R33). -/
def primeTable (td : Nat) : List TableEntry := entriesFrom 2 (tablePrimes td)

/-- The constraints on `TD_COUNT` (spec/00_scope.md R8): at least 24 entries, `FOP < 2^32`, and byte-sized
differences. -/
def Params.legal (p : Params) : Bool :=
  decide (24 ≤ p.tdCount) && decide (firstOmitted p.tdCount < 0x100000000) &&
    (primeTable p.tdCount).all (fun en => decide (en.diff ≤ 255))

end Sys2Proof.Machine
end

