-- ==== Sys2Proof/Machine/Modular.lean ====
section
/-!
DEFINITION. The modular reduction layer (spec/41_modular.md): the functions of R112 to R118 on unsigned integers, and
the commands MINV, TOMONT1, TOMONT2, MULREDC1, MULREDC2, POWREDC1, POWREDC2.
-/
namespace Sys2Proof.Machine

/-- The `w` of R11: one or two words. -/
inductive Width where
  | one
  | two
deriving DecidableEq, Repr

/-- The width of an unsigned integer: one word when its high word is zero. -/
def widthOf (n : Nat) : Width := if n < Config.base then .one else .two

/-- The Montgomery radix `R_w` (spec/00_scope.md R12). -/
def Width.radix : Width → Nat
  | .one => Config.base
  | .two => Config.base * Config.base

/-- `addmod(a, b, n)`, `a, b < n` (R11). -/
def addmod (a b n : Nat) : Nat := (a + b) % n

/-- `submod(a, b, n)`, `a, b < n` (R11). -/
def submod (a b n : Nat) : Nat := if b ≤ a then a - b else a + n - b

/-- `k` doublings modulo `n` (R112, R113). -/
def doublings (n : Nat) : Nat → Nat → Nat
  | 0, r => r
  | k + 1, r => doublings n k (addmod r r n)

/-- `tomont_w(x, n)` (R112, R113): 64 or 128 doublings. -/
def tomont (w : Width) (x n : Nat) : Nat :=
  match w with
  | .one => doublings n 64 x
  | .two => doublings n 128 x

/-- `mulredc_1` (R114): REDC with the positive inverse. -/
def mulredc1 (a b n ni : Nat) : Nat :=
  let T := a * b
  let m := T % Config.base * ni % Config.base
  let U := m * n
  if T / Config.base < U / Config.base then T / Config.base + n - U / Config.base
  else T / Config.base - U / Config.base

/-- One round of word-level REDC on an integer that may be negative (R116). -/
def redcRound (n ni : Nat) (t : Int) : Int :=
  (t - t % (Config.base : Int) * ni % Config.base * n) / Config.base

/-- `mulredc_2` (R116): two rounds of word-level REDC, then one conditional addition. -/
def mulredc2 (a b n ni : Nat) : Nat :=
  let t := redcRound n ni (redcRound n ni ((a * b : Nat) : Int))
  (if t < 0 then t + n else t).toNat

/-- `mulredc_w(a, b, n, ni)` (R114, R116). -/
def mulredc (w : Width) (a b n ni : Nat) : Nat :=
  match w with
  | .one => mulredc1 a b n ni
  | .two => mulredc2 a b n ni

/-- The loop of R118 on base `b`, remaining exponent `e` and product `y`; the first argument bounds it by the exponent's
bit length. -/
def powLoop (w : Width) (n ni : Nat) : Nat → Nat → Nat → Nat → Nat
  | 0, _, _, y => y
  | f + 1, b, e, y =>
    if e = 0 then y
    else
      let b' := mulredc w b b n ni
      let e' := e / 2
      powLoop w n ni f b' e' (if e' % 2 = 1 then mulredc w y b' n ni else y)

/-- `powredc_w(b, e, n, ni, one)` (R118). -/
def powredc (w : Width) (b e n ni one : Nat) : Nat :=
  powLoop w n ni (e.log2 + 1) b e (if e % 2 = 1 then b else one)

/-- MINV rd, ra (R111). -/
def execMinv (rd ra : Reg) (s : State) : Result :=
  let n := wordOperand ra s
  guarded [(n % 2 = 1, .even)] s fun _ =>
    finish (writeWord rd (inverseOf n) s)

/-- TOMONT1 rd, ra, rn (R121). -/
def execTomont1 (rd ra rn : Reg) (s : State) : Result :=
  let x := wordOperand ra s
  let n := wordOperand rn s
  guarded [(n % 2 = 1, .even), (x < n, .range)] s fun _ =>
    finish (writeWord rd (tomont .one x n) s)

/-- TOMONT2 rd, ra, rn (R122). -/
def execTomont2 (rd ra rn : Reg) (s : State) : Result :=
  let x := dwordOperand ra s
  let n := dwordOperand rn s
  guarded [(n % 2 = 1, .even), (n < Config.topBit, .topBit), (x < n, .range)] s fun _ =>
    finish (writeDword rd (tomont .two x n) s)

/-- MULREDC1 rd, ra, rb, rn, ri (R115). -/
def execMulredc1 (rd ra rb rn ri : Reg) (s : State) : Result :=
  let a := wordOperand ra s
  let b := wordOperand rb s
  let n := wordOperand rn s
  let ni := wordOperand ri s
  guarded [(n % 2 = 1, .even), (a < n ∧ b < n, .range), (n * ni % Config.base = 1, .inv)] s fun _ =>
    finish (writeWord rd (mulredc .one a b n ni) s)

/-- MULREDC2 rd, ra, rb, rn, ri (R117). -/
def execMulredc2 (rd ra rb rn ri : Reg) (s : State) : Result :=
  let a := dwordOperand ra s
  let b := dwordOperand rb s
  let n := dwordOperand rn s
  let ni := wordOperand ri s
  guarded [(n % 2 = 1, .even), (n < Config.topBit, .topBit), (a < n ∧ b < n, .range),
      (n % Config.base * ni % Config.base = 1, .inv)] s fun _ =>
    finish (writeDword rd (mulredc .two a b n ni) s)

/-- POWREDC1 rd, ra, re, rn, ri, ro (R119). -/
def execPowredc1 (rd ra re rn ri ro : Reg) (s : State) : Result :=
  let b := wordOperand ra s
  let e := wordOperand re s
  let n := wordOperand rn s
  let ni := wordOperand ri s
  let one := wordOperand ro s
  guarded [(n % 2 = 1, .even), (b < n ∧ one < n, .range), (n * ni % Config.base = 1, .inv)] s fun _ =>
    finish (writeWord rd (powredc .one b e n ni one) s)

/-- POWREDC2 rd, ra, re, rn, ri, ro (R120). -/
def execPowredc2 (rd ra re rn ri ro : Reg) (s : State) : Result :=
  let b := dwordOperand ra s
  let e := dwordOperand re s
  let n := dwordOperand rn s
  let ni := wordOperand ri s
  let one := dwordOperand ro s
  guarded [(n % 2 = 1, .even), (n < Config.topBit, .topBit), (b < n ∧ one < n, .range),
      (n % Config.base * ni % Config.base = 1, .inv)] s fun _ =>
    finish (writeDword rd (powredc .two b e n ni one) s)

end Sys2Proof.Machine
end

