-- ==== Sys2Proof/Machine/Run.lean ====
section
/-!
DEFINITION. How a compound command runs: with the accumulator in use, to a value, to a fault that leaves the inserts
made so far (spec/60_exceptions.md R206), or without returning (spec/70_reset_and_hazards.md R238).
-/
namespace Sys2Proof.Machine

/-- The outcome of a part of a compound command on the accumulator in use. -/
inductive Run (α : Type) where
  /-- It returned `v`; the accumulator in use now holds `acc`. -/
  | done (v : α) (acc : Facc)
  /-- It raised `code`; `acc` holds the inserts completed before. -/
  | fault (code : FaultCode) (acc : Facc)
  /-- It does not return. -/
  | hang
deriving DecidableEq, Repr

/-- Go on with `k` after `r` returned; a fault or a non-return ends the whole (spec/60_exceptions.md R213). -/
def Run.andThen {α β : Type} (r : Run α) (k : α → Facc → Run β) : Run β :=
  match r with
  | .done v acc => k v acc
  | .fault code acc => .fault code acc
  | .hang => .hang

/-- An insert as a part of a compound command: a faulting one changes nothing (spec/45_accumulator.md R181). -/
def recorded (r : Except FaultCode Facc) (acc : Facc) : Run Unit :=
  match r with
  | .ok acc' => .done () acc'
  | .error code => .fault code acc

/-- `insert(p, m)` on the accumulator in use (R181). -/
def insertRun (p m : Nat) (acc : Facc) : Run Unit := recorded (insertPrime (BitVec.ofNat 64 p) m acc) acc

/-- `insert_large(v)` on the accumulator in use (R182). -/
def insertLargeRun (v : Nat) (acc : Facc) : Run Unit := recorded (insertLarge (BitVec.ofNat 128 v) acc) acc

/-- End the command in state `s` as its run ended: complete with the accumulator it left, raise its fault with the
inserts made before it (spec/60_exceptions.md R206), or, where it does not return, stay as it is with `BUSY = 1` until
reset (spec/70_reset_and_hazards.md R238; log 6). -/
def finishRun {α : Type} (r : Run α) (s : State) : Result :=
  match r with
  | .done _ acc => finish (setFacc acc s)
  | .fault code acc => trap code (setFacc acc s)
  | .hang => .next s

/-- End a primality command in state `s`: its verdict goes to `rd`, and `FACC` is not touched (spec/43_primality.md
R148 to R150). -/
def finishVerdict (rd : Reg) (r : Run Bool) (s : State) : Result :=
  match r with
  | .done v _ => finish (writeVerdict rd v s)
  | .fault code _ => trap code s
  | .hang => .next s

end Sys2Proof.Machine
end

