-- ==== Sys2Proof/Machine/TrialDivision.lean ====
section
/-!
DEFINITION. Trial division by the prime table (spec/42_trial_division.md R130 to R132) and the command TDIV (R133).
-/
namespace Sys2Proof.Machine

/-- Trailing zeros of `v`, looking at no more than the given number of bits. -/
def trailingZeros : Nat → Nat → Nat
  | 0, _ => 0
  | f + 1, v => if v % 2 = 1 then 0 else trailingZeros f (v / 2) + 1

/-- `ctz(v)`, `v != 0` (spec/00_scope.md R11). -/
def ctz (v : Nat) : Nat := trailingZeros v.log2 v

/-- The divisibility test on one word (R130): the quotient when `p` divides `t0`. -/
def quotient1 (en : TableEntry) (t0 : Nat) : Option Nat :=
  let q := t0 * en.pinv % Config.base
  if q ≤ en.lim then some q else none

/-- The divisibility test on two words (R132): the quotient when `p` divides `t`. -/
def quotient2 (en : TableEntry) (t : Nat) : Option Nat :=
  let q0 := t % Config.base * en.pinv % Config.base
  let h := q0 * en.p / Config.base
  if t / Config.base < h then none
  else
    let q1 := (t / Config.base - h) * en.pinv % Config.base
    if q1 ≤ en.lim then some (q1 * Config.base + q0) else none

/-- Divide `p` out of a one-word `t` as often as it goes, one insert each time (R131). The first argument bounds the
loop: 64 divisions are more than a word allows. -/
def divideOut1 (en : TableEntry) : Nat → Nat → Facc → Run Nat
  | 0, t, acc => .done t acc
  | f + 1, t, acc =>
    match quotient1 en t with
    | some q => (insertRun en.p 1 acc).andThen fun _ acc' => divideOut1 en f q acc'
    | none => .done t acc

/-- Divide `p` out of a two-word `t` as often as it goes, one insert each time (R131). -/
def divideOut2 (en : TableEntry) : Nat → Nat → Facc → Run Nat
  | 0, t, acc => .done t acc
  | f + 1, t, acc =>
    match quotient2 en t with
    | some q => (insertRun en.p 1 acc).andThen fun _ acc' => divideOut2 en f q acc'
    | none => .done t acc

/-- The two-word phase (R131): every prime in turn while the residue occupies two words. Answers the residue and the
table entries not yet tried. -/
def twoWordPhase : List TableEntry → Nat → Facc → Run (Nat × List TableEntry)
  | [], t, acc => .done (t, []) acc
  | en :: rest, t, acc =>
    if t < Config.base then .done (t, en :: rest) acc
    else (divideOut2 en 128 t acc).andThen fun t' acc' => twoWordPhase rest t' acc'

/-- The one-word phase (R131) from the entries not yet tried: groups of 8 primes, `j` counting within the group, and
after each whole group the early exit on the square of the next untried prime, which is `fop` past the table. -/
def oneWordPhase (fop : Nat) : List TableEntry → Nat → Nat → Facc → Run Nat
  | [], _, t, acc => .done t acc
  | en :: rest, j, t, acc =>
    (divideOut1 en 64 t acc).andThen fun t' acc' =>
      if j < 7 then oneWordPhase fop rest (j + 1) t' acc'
      else
        let pn := (rest.head?.map TableEntry.p).getD fop
        if t' < pn * pn then .done t' acc' else oneWordPhase fop rest 0 t' acc'

/-- `tdiv(t)`, `t != 0` (R131), with a table of `td` primes. -/
def tdiv (td t : Nat) (acc : Facc) : Run Nat :=
  let c := ctz t
  (if 0 < c then insertRun 2 c acc else .done () acc).andThen fun _ acc1 =>
    (twoWordPhase (primeTable td) (t / 2 ^ c) acc1).andThen fun r acc2 =>
      if r.1 < Config.base then oneWordPhase (firstOmitted td) r.2 0 r.1 acc2 else .done r.1 acc2

/-- TDIV rd, ra (R133). -/
def execTdiv (rd ra : Reg) (s : State) : Result :=
  let t := dwordOperand ra s
  guarded [(t ≠ 0, .range)] s fun _ =>
    match tdiv s.params.tdCount t s.facc with
    | .done r acc => finish (writeDword rd r (setFacc acc s))
    | .fault code acc => trap code (setFacc acc s)
    | .hang => .next s

end Sys2Proof.Machine
end

