-- ==== Sys2Proof/Machine/MillerRabin.lean ====
section
/-!
DEFINITION. The Miller-Rabin test (spec/43_primality.md R140, R141), the commands MR1 and MR2 (R142, R143), and the
primality oracle on top of it (R144 to R147), given the factorization of `n - 1` that its Lucas step asks for.
-/
namespace Sys2Proof.Machine

/-- `k = ctz(n - 1)` (R140). -/
def mrTwos (n : Nat) : Nat := ctz (n - 1)

/-- `q = (n - 1) div 2^k` (R140). -/
def mrOdd (n : Nat) : Nat := (n - 1) / 2 ^ mrTwos n

/-- The squarings of R141, `i = 1 to k - 1`. -/
def mrSquarings (w : Width) (n ni one : Nat) : Nat → Nat → Bool
  | 0, _ => false
  | i + 1, y =>
    let y' := mulredc w y y n ni
    if y' = n - one then true else if y' = one then false else mrSquarings w n ni one i y'

/-- `mr_w(n, ni, one, bm, q, k)` (R141): true when the base shows no witness of compositeness. -/
def millerRabin (w : Width) (n ni one bm q k : Nat) : Bool :=
  let y := powredc w bm q n ni one
  if y = one ∨ y = n - one then true else mrSquarings w n ni one (k - 1) y

/-- One Miller-Rabin test of the odd `n >= 3` on the plain base `b < n`, context included (R142, R143). -/
def mrTest (w : Width) (n b : Nat) : Bool :=
  millerRabin w n (inverseOf n) (tomont w 1 n) (tomont w b n) (mrOdd n) (mrTwos n)

/-- MR1 rd, rn, rb (R142). -/
def execMr1 (rd rn rb : Reg) (s : State) : Result :=
  let n := wordOperand rn s
  let b := wordOperand rb s
  guarded [(n % 2 = 1, .even), (3 ≤ n ∧ b < n, .range)] s fun _ =>
    finish (writeVerdict rd (mrTest .one n b) s)

/-- MR2 rd, rn, rb (R143). -/
def execMr2 (rd rn rb : Reg) (s : State) : Result :=
  let n := dwordOperand rn s
  let b := dwordOperand rb s
  guarded [(n % 2 = 1, .even), (n < Config.topBit, .topBit), (3 ≤ n ∧ b < n, .range)] s fun _ =>
    finish (writeVerdict rd (mrTest .two n b) s)

/-- One Lucas check of R147: `am^((n-1)/p)` is not 1 modulo `n`. -/
def lucasCheck (w : Width) (n ni one am p : Nat) : Bool := powredc w am ((n - 1) / p) n ni one != one

/-- `lucas_ok(L, am)` (R147): the large divisor first, if any, then the table ascending. -/
def lucasOk (w : Width) (n ni one am : Nat) (L : Facc) : Bool :=
  (hiWord L.plarge == 0 || lucasCheck w n ni one am L.plarge.toNat) &&
    L.pairs.all (fun en => lucasCheck w n ni one am en.p.toNat)

/-- The rounds of R145 step 5 from the round whose base has Montgomery form `am`, with the bases still to come. `L` is
the factorization of `n - 1` in proof mode, none in probabilistic mode. -/
def oracleRounds (w : Width) (n ni one : Nat) (L : Option Facc) : List Nat → Nat → Facc → Run Bool
  | bases, am, acc =>
    if L.any (fun l => lucasOk w n ni one am l) then .done true acc
    else
      match bases with
      | [] => if L.isSome then .fault .lucasFail acc else .done true acc
      | a :: rest =>
        let am' := a * one % n
        if millerRabin w n ni one am' (mrOdd n) (mrTwos n) then oracleRounds w n ni one L rest am' acc
        else .done false acc

/-- The bases after base 2 (R146): the whole table in proof mode, the first `MR_REPS - 1` in probabilistic mode. -/
def laterBases (td : Nat) (proving : Bool) : List Nat :=
  if proving then tablePrimes td else (tablePrimes td).take (Config.mrReps - 1)

/-- Steps 2 to 6 of the oracle (R145) on an odd `n` in its domain. `factorLocal` factors `n - 1` with an accumulator of
its own, which the accumulator in use never sees (R147). -/
def oracleTests (td : Nat) (proving : Bool) (factorLocal : Nat → Run Bool) (n : Nat) (acc : Facc) : Run Bool :=
  let w := widthOf n
  let ni := inverseOf n
  let one := tomont w 1 n
  let am := addmod one one n
  if millerRabin w n ni one am (mrOdd n) (mrTwos n) then
    if proving then
      match factorLocal (n - 1) with
      | .done _ L => oracleRounds w n ni one (some L) (laterBases td true) am acc
      | .fault code _ => .fault code acc
      | .hang => .hang
    else oracleRounds w n ni one none (laterBases td false) am acc
  else .done false acc

/-- `prime_w(n)` (R144, R145), `w` being the width of `n`: the accumulator in use passes through unchanged. -/
def oracle (td : Nat) (proving : Bool) (factorLocal : Nat → Run Bool) (n : Nat) (acc : Facc) : Run Bool :=
  if n ≤ 1 then .done false acc
  else if n < Config.base ∧ n < firstOmitted td * firstOmitted td then .done true acc
  else if n % 2 = 0 then .fault .even acc
  else if Config.topBit ≤ n then .fault .topBit acc
  else oracleTests td proving factorLocal n acc

end Sys2Proof.Machine
end

