-- ==== Sys2Proof/Machine/Rho.lean ====
section
/-!
DEFINITION. The gcd commands (spec/44_rho_factor.md R160 to R162), and the Pollard-Brent rho engine and the top-level
entry (R163 to R172) up to their nested calls, which Engine.lean ties together.
-/
namespace Sys2Proof.Machine

/-- GCD1 rd, ra, rb (R161). -/
def execGcd1 (rd ra rb : Reg) (s : State) : Result :=
  let a := wordOperand ra s
  let b := wordOperand rb s
  guarded [(b % 2 = 1, .even)] s fun _ =>
    finish (writeWord rd (Nat.gcd a b) s)

/-- GCD2 rd, ra, rb (R162). -/
def execGcd2 (rd ra rb : Reg) (s : State) : Result :=
  let a := dwordOperand ra s
  let b := dwordOperand rb s
  guarded [(b % 2 = 1, .even)] s fun _ =>
    finish (writeDword rd (Nat.gcd a b) s)

/-- The variables of one run of rho (R163): the head `x`, the checkpoint `y`, the compared value `z`, the product `P`, and
the batch counters `k`, `l`. -/
structure RhoVars where
  x : Nat
  y : Nat
  z : Nat
  P : Nat
  k : Nat
  l : Nat
deriving DecidableEq, Repr

/-- The iteration function `f` (R164). -/
def rhoStep (w : Width) (n a v : Nat) : Nat := addmod (mulredc w v v n (inverseOf n)) a n

/-- `init(n, a)` (R164). -/
def rhoInit (w : Width) (n : Nat) : RhoVars :=
  let one := tomont w 1 n
  let x := addmod one one n
  { x := x, y := x, z := x, P := one, k := 1, l := 1 }

/-- `k` applications of `f` (the fresh steps of R165). -/
def rhoSteps (w : Width) (n a : Nat) : Nat → Nat → Nat
  | 0, v => v
  | k + 1, v => rhoSteps w n a k (rhoStep w n a v)

/-- One step of the cycle search (R165): the head moves, the product takes in one difference. -/
def searchStep (w : Width) (n a : Nat) (v : RhoVars) : RhoVars :=
  let x := rhoStep w n a v.x
  { v with x := x, P := mulredc w v.P (submod v.z x n) n (inverseOf n) }

/-- The batched gcd is taken when `k` is congruent to 1 modulo 32 (R165). -/
def gcdDue (v : RhoVars) : Bool := v.k % Config.rhoBatch == 1

/-- What a step that finds nothing does next (R165): checkpoint after a gcd, count down, and at the end of a batch
Brent's doubling with `k` fresh steps. -/
def searchAdvance (w : Width) (n a : Nat) (v : RhoVars) : RhoVars :=
  let y := if gcdDue v then v.x else v.y
  if v.k - 1 = 0 then
    let x := rhoSteps w n a v.l v.x
    { x := x, y := x, z := v.x, P := v.P, k := v.l, l := 2 * v.l }
  else { v with y := y, k := v.k - 1 }

/-- `search` (R165): the variables when a batched gcd is not 1; none when it never happens. The first argument bounds
the loop (log 6). -/
def rhoSearch (w : Width) (n a : Nat) : Nat → RhoVars → Option RhoVars
  | 0, _ => none
  | f + 1, v =>
    let v' := searchStep w n a v
    if gcdDue v' && Nat.gcd v'.P n != 1 then some v' else rhoSearch w n a f (searchAdvance w n a v')

/-- More steps than a search from `v` takes: by the time a batch of `n` or more steps has run, the head has met `z`
modulo `n`. DEDUCED (log 6). Safe: a search cut by it is modelled as one that does not return. -/
def searchBound (n : Nat) (v : RhoVars) : Nat := v.k + 2 * v.l + 8 * n

/-- `found` (R166): replay from the checkpoint to the exact step, with the precise gcd; none when it never happens. The
first argument bounds the loop (log 6). -/
def rhoBacktrack (w : Width) (n a z : Nat) : Nat → Nat → Option (Nat × Nat)
  | 0, _ => none
  | f + 1, y =>
    let y' := rhoStep w n a y
    let g := Nat.gcd (submod z y' n) n
    if g = 1 then rhoBacktrack w n a z f y' else some (y', g)

/-- Search and backtrack (R165, R166): the variables where the search stopped, `y` where the backtrack stopped, and
`g`; none when either never ends. A backtrack that has not ended after `n` steps has been through every value `y` can
take, so it never ends (log 6). -/
def rhoDetect (w : Width) (n a : Nat) (v : RhoVars) : Option (RhoVars × Nat) :=
  match rhoSearch w n a (searchBound n v) v with
  | none => none
  | some v' =>
    match rhoBacktrack w n a v'.z n v'.y with
    | none => none
    | some (y, g) => some ({ v' with y := y }, g)

/-- The variables reduced modulo the shrunk residue (R167). -/
def rhoReduce (n : Nat) (v : RhoVars) : RhoVars :=
  { v with x := v.x % n, y := v.y % n, z := v.z % n, P := v.P % n }

/-- A nested call of the engine (R170). -/
inductive Call where
  /-- `prime_w(n)`, `w` the width of `n`. -/
  | prime (n : Nat)
  /-- `rho_w(n, a)`, `w` the width of `n` (`rho_2` delegates one-word values, R168). -/
  | rho (n a : Nat)
  /-- `factor(n)` on the accumulator in use. -/
  | factor (n : Nat)
deriving DecidableEq, Repr

/-- What becomes of a value split off (R167, R168, R172): if the oracle accepts it, it is recorded (`insert_large` of a
one-word value is `insert(v, 1)`, R182); otherwise rho factors it with parameter `a`. -/
def settle (call : Call → Facc → Run Bool) (v a : Nat) (acc : Facc) : Run Bool :=
  (call (.prime v) acc).andThen fun isPrime acc' =>
    if isPrime then (insertLargeRun v acc').andThen fun _ acc'' => .done true acc''
    else call (.rho v a) acc'

/-- The loop of `rho_1` (R167) and `rho_2` (R168) from the residue `n`, the parameter `a` and the variables `v`. The
first argument bounds the restarts and the shrinkings of `n` (log 6). -/
def rhoLoop (call : Call → Facc → Run Bool) (w : Width) : Nat → Nat → Nat → RhoVars → Facc → Run Bool
  | 0, _, _, _, _ => .hang
  | f + 1, n, a, v, acc =>
    if n ≤ a then .fault .range acc
    else
      match rhoDetect w n a v with
      | none => .hang
      | some (v', g) =>
        if g = n then rhoLoop call w f n (a + 1) (rhoInit w n) acc
        else
          let n' := n / g
          (settle call g (a + 1) acc).andThen fun _ acc1 =>
            if w = .two ∧ n' < Config.base then settle call n' a acc1
            else
              (call (.prime n') acc1).andThen fun isPrime acc2 =>
                if isPrime then (insertLargeRun n' acc2).andThen fun _ acc3 => .done true acc3
                else rhoLoop call w f n' a (rhoReduce n' v') acc2

/-- `rho_w(n, a)` (R167, R168), `w` being the width of `n`. -/
def rhoBody (call : Call → Facc → Run Bool) (n a : Nat) (acc : Facc) : Run Bool :=
  let w := widthOf n
  if Config.topBit ≤ n then .fault .topBit acc
  else rhoLoop call w (2 * n + 1) n a (rhoInit w n) acc

/-- `factor(n)` (R172): the accumulator in use is cleared, small factors are stripped, and what is left is recorded or
given to rho. -/
def factorBody (call : Call → Facc → Run Bool) (td n : Nat) : Run Bool :=
  if n < 2 then .done true Facc.empty
  else
    (tdiv td n Facc.empty).andThen fun t acc =>
      if t = 1 then .done true acc else settle call t 1 acc

end Sys2Proof.Machine
end

