-- ==== Sys2Proof/Machine/Engine.lean ====
section
/-!
DEFINITION. The engine's nested calls tied together (spec/44_rho_factor.md R170): oracle, rho and factor call one
another; each nested factor of a Lucas step has an accumulator of its own (spec/43_primality.md R147).
-/
namespace Sys2Proof.Machine

/-- A call of the engine with a table of `td` primes and the sampled `PROVE`, on the accumulator in use. The first
number is the room left on the work stack, which never runs out (spec/70_reset_and_hazards.md R239; log 7). -/
def engineCall (td : Nat) (proving : Bool) : Nat → Call → Facc → Run Bool
  | 0, _, _ => .hang
  | d + 1, .prime n, acc => oracle td proving (fun m => engineCall td proving d (.factor m) Facc.empty) n acc
  | d + 1, .rho n a, acc => rhoBody (engineCall td proving d) n a acc
  | d + 1, .factor n, _ => factorBody (engineCall td proving d) td n

/-- A call made by the command running in state `s`: the implementation's table, the sampled mode, `FACC` in use. -/
def engineRun (c : Call) (s : State) : Run Bool :=
  engineCall s.params.tdCount s.proveSample Config.nesting c s.facc

end Sys2Proof.Machine
end

