-- ==== Sys2Proof/Machine/Primality.lean ====
section
/-!
DEFINITION. The oracle commands PRIME1, PRIME2 and ISPRIME (spec/43_primality.md R148 to R150).
-/
namespace Sys2Proof.Machine

/-- PRIME1 rd, rn (R148). -/
def execPrime1 (rd rn : Reg) (s : State) : Result :=
  finishVerdict rd (engineRun (.prime (wordOperand rn s)) s) s

/-- PRIME2 rd, rn (R149): a one-word value goes to the single-word oracle. -/
def execPrime2 (rd rn : Reg) (s : State) : Result :=
  finishVerdict rd (engineRun (.prime (dwordOperand rn s)) s) s

/-- The divisibility test of the width of `n` (spec/42_trial_division.md R130, R132). -/
def tableDivides (n : Nat) (en : TableEntry) : Bool :=
  if n < Config.base then (quotient1 en n).isSome else (quotient2 en n).isSome

/-- The verdict of ISPRIME before the oracle is asked (R150), if there is one. -/
def isprimeEarly (td n : Nat) : Option Bool :=
  if n < 2 then some false
  else if n % 2 = 0 then some (n == 2)
  else ((primeTable td).find? (tableDivides n)).map (fun en => n == en.p)

/-- ISPRIME rd, rn (R150). -/
def execIsprime (rd rn : Reg) (s : State) : Result :=
  let n := dwordOperand rn s
  finishVerdict rd
    (match isprimeEarly s.params.tdCount n with
      | some v => .done v s.facc
      | none => engineRun (.prime n) s) s

end Sys2Proof.Machine
end

