-- ==== Sys2Proof/Machine/RhoFactor.lean ====
section
/-!
DEFINITION. The commands RHO1, RHO2 and FACTOR (spec/44_rho_factor.md R169, R171, R173).
-/
namespace Sys2Proof.Machine

/-- RHO1 rn, a (R169). -/
def execRho1 (rn : Reg) (a : Nat) (s : State) : Result :=
  let n := wordOperand rn s
  guarded [(n % 2 = 1, .even), (3 ≤ n ∧ a < n, .range)] s fun _ =>
    finishRun (engineRun (.rho n a) s) s

/-- RHO2 rn, a (R171). -/
def execRho2 (rn : Reg) (a : Nat) (s : State) : Result :=
  let n := dwordOperand rn s
  guarded [(n % 2 = 1, .even), (n < Config.topBit, .topBit), (3 ≤ n ∧ a < n, .range)] s fun _ =>
    finishRun (engineRun (.rho n a) s) s

/-- FACTOR rn (R173). -/
def execFactor (rn : Reg) (s : State) : Result :=
  finishRun (engineRun (.factor (dwordOperand rn s)) s) s

end Sys2Proof.Machine
end

