-- ==== Sys2Proof/Machine/Dispatch.lean ====
section
/-!
DEFINITION. The meaning of each command: one arm per constructor of `Instr`.
-/
namespace Sys2Proof.Machine

def exec (i : Instr) (s : State) : Host.Outcome State Fault Refusal :=
  match i with
  | .add2 rd ra rb => Sys2Proof.Machine.execAdd2 rd ra rb s
  | .sub2 rd ra rb => Sys2Proof.Machine.execSub2 rd ra rb s
  | .cmp2 ra rb => Sys2Proof.Machine.execCmp2 ra rb s
  | .shl2 rd ra sh => Sys2Proof.Machine.execShl2 rd ra sh s
  | .shr2 rd ra sh => Sys2Proof.Machine.execShr2 rd ra sh s
  | .minv rd ra => Sys2Proof.Machine.execMinv rd ra s
  | .tomont1 rd ra rn => Sys2Proof.Machine.execTomont1 rd ra rn s
  | .tomont2 rd ra rn => Sys2Proof.Machine.execTomont2 rd ra rn s
  | .mulredc1 rd ra rb rn ri => Sys2Proof.Machine.execMulredc1 rd ra rb rn ri s
  | .mulredc2 rd ra rb rn ri => Sys2Proof.Machine.execMulredc2 rd ra rb rn ri s
  | .powredc1 rd ra re rn ri ro => Sys2Proof.Machine.execPowredc1 rd ra re rn ri ro s
  | .powredc2 rd ra re rn ri ro => Sys2Proof.Machine.execPowredc2 rd ra re rn ri ro s
  | .tdiv rd ra => Sys2Proof.Machine.execTdiv rd ra s
  | .mr1 rd rn rb => Sys2Proof.Machine.execMr1 rd rn rb s
  | .mr2 rd rn rb => Sys2Proof.Machine.execMr2 rd rn rb s
  | .prime1 rd rn => Sys2Proof.Machine.execPrime1 rd rn s
  | .prime2 rd rn => Sys2Proof.Machine.execPrime2 rd rn s
  | .isprime rd rn => Sys2Proof.Machine.execIsprime rd rn s
  | .gcd1 rd ra rb => Sys2Proof.Machine.execGcd1 rd ra rb s
  | .gcd2 rd ra rb => Sys2Proof.Machine.execGcd2 rd ra rb s
  | .rho1 rn a => Sys2Proof.Machine.execRho1 rn a s
  | .rho2 rn a => Sys2Proof.Machine.execRho2 rn a s
  | .factor rn => Sys2Proof.Machine.execFactor rn s
  | .fclr => Sys2Proof.Machine.execFclr s
  | .fins ra m => Sys2Proof.Machine.execFins ra m s
  | .finsl ra => Sys2Proof.Machine.execFinsl ra s

end Sys2Proof.Machine
end

