-- ==== Sys2Proof/Machine/Window.lean ====
section
/-!
DEFINITION. The host register window (spec/20_memory.md): the register map (R53), what each slot reads, and the host's
two accesses (R52) with the rules for refused, dropped and busy accesses (R54 to R57).
-/
namespace Sys2Proof.Machine

/-- A slot of the register map (R53). -/
inductive Slot where
  | cmd
  | status
  | ctrl
  | flags
  | ecause
  | regLo (r : Reg)
  | regHi (r : Reg)
  | nf
  | plargeLo
  | plargeHi
  | primeSlot (i : Nat)
  | multSlot (i : Nat)
  | unmapped
deriving DecidableEq, Repr

/-- The slot at a byte offset that is a multiple of 8 below 0x800 (R53). -/
def slotAt (off : Nat) : Slot :=
  if off = 0x000 then .cmd
  else if off = 0x008 then .status
  else if off = 0x010 then .ctrl
  else if off = 0x018 then .flags
  else if off = 0x020 then .ecause
  else if 0x100 ≤ off ∧ off < 0x200 then
    if off % 16 = 0 then .regLo (Fin.ofNat 16 (off / 16)) else .regHi (Fin.ofNat 16 (off / 16))
  else if off = 0x200 then .nf
  else if off = 0x208 then .plargeLo
  else if off = 0x210 then .plargeHi
  else if 0x400 ≤ off ∧ off < 0x4D0 then .primeSlot ((off - 0x400) / 8)
  else if 0x600 ≤ off ∧ off < 0x6D0 then .multSlot ((off - 0x600) / 8)
  else .unmapped

/-- A bit of a 64-bit slot. -/
def bitAt (b : Bool) (i : Nat) : Word := if b then BitVec.ofNat 64 (2 ^ i) else 0

/-- `STATUS` as the host reads it (spec/10_state.md R26). -/
def statusWord (st : Status) : Word :=
  bitAt st.busy 0 ||| bitAt st.done 1 ||| bitAt st.err 2 ||| bitAt st.fatal 3 ||| bitAt st.lost 4

/-- `FLAGS` as the host reads it (spec/10_state.md R24). -/
def flagsWord (f : Flags) : Word := bitAt f.c 0 ||| bitAt f.z 1

/-- What a slot holds (R53): narrower fields zero-extended, unmapped slots 0 (R55). -/
def slotValue (slot : Slot) (s : State) : Word :=
  match slot with
  | .cmd => s.cmd
  | .status => statusWord s.status
  | .ctrl => bitAt s.prove 0
  | .flags => flagsWord s.flags
  | .ecause => s.ecause.setWidth 64
  | .regLo r => loWord (readReg r s)
  | .regHi r => hiWord (readReg r s)
  | .nf => BitVec.ofNat 64 s.facc.nf
  | .plargeLo => loWord s.facc.plarge
  | .plargeHi => hiWord s.facc.plarge
  | .primeSlot i => s.facc.primeSlot i
  | .multSlot i => (s.facc.multSlot i).setWidth 64
  | .unmapped => 0

/-- Byte `k` of the slot at `off`, the byte at address `off + k` on a byte-addressed bus: bits `8k+7 : 8k` of the slot,
little-endian (R54). -/
def windowByte (addr : Nat) (s : State) : BitVec 8 :=
  BitVec.ofNat 8 ((slotValue (slotAt (addr - addr % 8)) s).toNat / 2 ^ (8 * (addr % 8)))

/-- The slots whose value is unspecified while `BUSY = 1`: `x[i]`, `FLAGS`, `ECAUSE` and `FACC` (R57). -/
def Slot.hiddenWhileBusy : Slot → Bool
  | .cmd => false
  | .status => false
  | .ctrl => false
  | .unmapped => false
  | .flags => true
  | .ecause => true
  | .regLo _ => true
  | .regHi _ => true
  | .nf => true
  | .plargeLo => true
  | .plargeHi => true
  | .primeSlot _ => true
  | .multSlot _ => true

/-- An access the window refuses: not 64 bits wide, or not at a multiple of 8 (R54). -/
def refusedAccess (off width : Nat) : Bool := width != 8 || off % 8 != 0

/-- The host reads (R52): a refused read returns 0 and sets `LOST` (R54); a result slot while `BUSY = 1` returns a free
value (R57, log 4); any other slot returns what it holds. `rdata` is what the host gets. -/
def hostRead (off width : Nat) (s : State) : State :=
  if refusedAccess off width then { dropWrite s with rdata := 0 }
  else if s.status.busy && (slotAt off).hiddenWhileBusy then
    { s with rdata := Config.busyRead s.freeIdx, freeIdx := s.freeIdx + 1 }
  else { s with rdata := slotValue (slotAt off) s }

/-- A host write of `v` to a mapped slot while `BUSY = 0`: `CMD` issues unless `ERR` or `FATAL` is set (spec/10_state.md
R25), `STATUS` acknowledges (R26), `CTRL` takes bit 0 (R27), a register half is replaced (R53), a read-only slot drops
the write (R56), and an unmapped slot drops it silently (R55). -/
def writeSlot (slot : Slot) (v : Word) (s : State) : State :=
  match slot with
  | .cmd => if s.status.err || s.status.fatal then dropWrite s else issue v s
  | .status => acknowledge v s
  | .ctrl => { s with prove := v.getLsbD 0 }
  | .flags => dropWrite s
  | .ecause => dropWrite s
  | .regLo r => writeReg r (pair (hiWord (readReg r s)) v) s
  | .regHi r => writeReg r (pair v (loWord (readReg r s))) s
  | .nf => dropWrite s
  | .plargeLo => dropWrite s
  | .plargeHi => dropWrite s
  | .primeSlot _ => dropWrite s
  | .multSlot _ => dropWrite s
  | .unmapped => s

/-- The host writes (R52): a refused write sets `LOST` (R54); a write to an unmapped slot does nothing (R55); while
`BUSY = 1` a write to a mapped slot is dropped with `LOST` set (R56). -/
def hostWrite (off width : Nat) (v : Word) (s : State) : State :=
  if refusedAccess off width then dropWrite s
  else if s.status.busy && slotAt off != .unmapped then dropWrite s
  else writeSlot (slotAt off) v s

/-- The offset lies in the window (R51). -/
def inWindow (off : Nat) : Bool := decide (off < 0x800)

end Sys2Proof.Machine
end

