-- ==== Sys2Proof/Machine/Step.lean ====
section
/-!
DEFINITION. One step of the machine: one host action, or one whole command (spec/00_scope.md R14, spec/20_memory.md
R59; log 2, log 3).
-/
namespace Sys2Proof.Machine

/-- The engine carries out the command in `CMD`: a value that is no command raises `ILLEGAL` and changes nothing else
(spec/30_encoding.md R70, R76); a command has its meaning. -/
def runCommand (s : State) : Result :=
  match decode s.cmd with
  | .ok i => exec i s
  | .error _ => trap .illegal s

/-- Time passes: the engine carries out its command if one is running; an idle engine does nothing
(spec/70_reset_and_hazards.md R231). -/
def elapse (s : State) : Result := if s.status.busy then runCommand s else .next s

/-- One host action on the state whose queue it has just left. -/
def hostStep (e : HostEvent) (s : State) : Result :=
  match e with
  | .read off width => if inWindow off then .next (hostRead off width s) else .fault .outsideWindow
  | .write off width v => if inWindow off then .next (hostWrite off width v s) else .fault .outsideWindow
  | .reset => .next (resetEvent s)
  | .elapse => elapse s

/-- One step: the host's next action, or, when the host does nothing, the engine. -/
def step (s : State) : Host.Outcome State Fault Refusal :=
  match s.host with
  | [] => elapse s
  | e :: rest => hostStep e { s with host := rest }

/-- `s` with the command whose bits are `w` issued and the engine next to move, so that the next step carries out
exactly that command. It stands for the host's write of that value to `CMD` (spec/10_state.md R25; log 2). -/
def State.withFetchWord (s : State) (nbits w : Nat) : State :=
  { issue (commandValue nbits w) s with host := [] }

end Sys2Proof.Machine
end

