-- ==== Sys2Proof/Safety.lean ====
section
/-!
DEFINITION. What a legal state of the block is: the invariants spec/10_state.md states of `FACC` (R30, R31) and of the
control registers (R25 to R28), and the values a factorization stands for.
-/
namespace Sys2Proof.Machine

/-- `P[0] < P[1] < ...` (R31 a). -/
abbrev Facc.Ascending (f : Facc) : Prop := f.pairs.Pairwise (fun a b => a.p.toNat < b.p.toNat)

/-- What always holds of `FACC`: at most 26 pairs and an empty large slot reading 0 (R30), ascending primes and
positive multiplicities (R31 a, b). -/
structure Facc.Wf (f : Facc) : Prop where
  capacity : f.nf ≤ Config.nfactMax
  ascending : f.Ascending
  positive : ∀ en ∈ f.pairs, en.e ≠ 0
  emptyLarge : hiWord f.plarge = 0 → f.plarge = 0

/-- What always holds of `STATUS`, `CTRL` and `ECAUSE`: a running engine has `DONE = 0` (R26) and `ERR = 0`, since
nothing is issued while `ERR = 1` (R25) and a fault ends the command (spec/60_exceptions.md R204), and has sampled the
`PROVE` that `CTRL` holds (R27); `FATAL` comes with `ERR` (R26); `ECAUSE` is 0 exactly while `ERR = 0` and never above
9 (R28, spec/60_exceptions.md R201). -/
structure ControlWf (s : State) : Prop where
  busyNotDone : s.status.busy = true → s.status.done = false
  busyNoError : s.status.busy = true → s.status.err = false
  busySample : s.status.busy = true → s.proveSample = s.prove
  fatalError : s.status.fatal = true → s.status.err = true
  causeIffError : s.ecause = 0 ↔ s.status.err = false
  causeBound : s.ecause.toNat ≤ 9

/-- A legal state of the block. -/
structure Inv (s : State) : Prop where
  facc : s.facc.Wf
  control : ControlWf s

/-- The engine is idle: `BUSY = 0` (R26). -/
abbrev Idle (s : State) : Prop := s.status.busy = false

/-- The engine is idle and a `CMD` write would be taken (R25). -/
abbrev Ready (s : State) : Prop := s.status.busy = false ∧ s.status.err = false ∧ s.status.fatal = false

/-- `P[i]^E[i]` of one pair. -/
def entryValue (en : Entry) : Nat := en.p.toNat ^ en.e.toNat

/-- The number a factorization stands for: the product of `P[i]^E[i]`, times `PLARGE` if set
(spec/44_rho_factor.md R172). -/
def Facc.value (f : Facc) : Nat :=
  (f.pairs.map entryValue).prod * (if hiWord f.plarge = 0 then 1 else f.plarge.toNat)

/-- The model's own fields are the same: no command touches them. -/
structure SameEnvironment (s t : State) : Prop where
  params : t.params = s.params
  host : t.host = s.host
  rdata : t.rdata = s.rdata
  freeIdx : t.freeIdx = s.freeIdx

/-! ### Words in which statements are made -/

/-- `x[r].lo` as an unsigned integer. -/
def lowWord (r : Reg) (s : State) : Nat := (s.x[r.val]).toNat % 0x10000000000000000

/-- `x[r]` as an unsigned integer. -/
def fullValue (r : Reg) (s : State) : Nat := (s.x[r.val]).toNat

/-- `s` with the running command completed (`BUSY = 0`, `DONE = 1`) and nothing else changed. -/
def doneState (s : State) : State := { s with status := { s.status with busy := false, done := true } }

/-- `s` with the running command completed, `v` in `x[rd]`, and nothing else changed. -/
def resultState (rd : Reg) (v : Nat) (s : State) : State :=
  doneState { s with x := s.x.set rd.val (BitVec.ofNat 128 v) }

/-- `s` with the running command completed, `acc` in `FACC`, and nothing else changed. -/
def faccState (acc : Facc) (s : State) : State := doneState { s with facc := acc }

/-- The offsets the register map gives a name to (spec/20_memory.md R53). -/
abbrev MappedOffset (off : Nat) : Prop :=
  off ≤ 0x020 ∨ (0x100 ≤ off ∧ off ≤ 0x210) ∨ (0x400 ≤ off ∧ off < 0x4D0) ∨ (0x600 ≤ off ∧ off < 0x6D0)

/-- `n` is a prime or a strong pseudoprime to the base `b`: with `n - 1 = q * 2^k`, `q` odd, either `b^q` is 1 or some
`b^(q * 2^i)`, `i < k`, is `n - 1`, modulo `n` (spec/43_primality.md R140, R141). -/
def StrongProbablePrime (n b : Nat) : Prop :=
  ∃ q k, n - 1 = q * 2 ^ k ∧ q % 2 = 1 ∧ (b ^ q % n = 1 ∨ ∃ i, i < k ∧ b ^ (q * 2 ^ i) % n = n - 1)

/-- `FOP^2` of the implementation in state `s` (spec/43_primality.md R144). -/
def fopSquared (s : State) : Nat := firstOmitted s.params.tdCount * firstOmitted s.params.tdCount

/-- No table prime divides `n`. -/
def NoTableFactor (s : State) (n : Nat) : Prop := ∀ p ∈ tablePrimes s.params.tdCount, ¬ p ∣ n

/-- `n` passes the 25 Miller-Rabin tests of probabilistic mode (spec/43_primality.md R146). -/
def PassesBases (s : State) (n : Nat) : Prop :=
  ∀ b ∈ (2 :: tablePrimes s.params.tdCount).take 25, StrongProbablePrime n b

/-- In state `s` the command `i` completes with verdict 1 in `x[rd]` if `P` holds and verdict 0 if it does not
(spec/10_state.md R21), and changes nothing else. -/
def VerdictIs (i : Instr) (rd : Reg) (s : State) (P : Prop) : Prop :=
  (P → exec i s = .next (resultState rd 1 s)) ∧ (¬P → exec i s = .next (resultState rd 0 s))

/-- Writing the value `word` to `CMD` issues the command `i` (spec/30_encoding.md R70, R71). -/
abbrev EncodedAs (i : Instr) (word : Nat) : Prop := decode (BitVec.ofNat 64 word) = .ok i

/-- `HostRead(off)` in state `s` returns `v` and changes nothing of the block (spec/20_memory.md R52). -/
def HostReads (off : Nat) (s : State) (v : Word) : Prop :=
  ∀ rest, step { s with host := .read off 8 :: rest } = .next { s with host := rest, rdata := v }

/-- `HostWrite(off, v)` takes the block from state `s` to state `t` (spec/20_memory.md R52). -/
def HostWrites (off : Nat) (v : Word) (s t : State) : Prop :=
  ∀ rest, step { s with host := .write off 8 v :: rest } = .next { t with host := rest }

/-- `s` after a host write that was dropped: `LOST` set and nothing else changed (spec/20_memory.md R56). -/
def lostState (s : State) : State := { s with status := { s.status with lost := true } }

/-! ### What a compound command records -/

/-- The inserts `(v, m)` made in order on `f` (spec/60_exceptions.md R206): a one-word `v` by `insert(v, m)`, a two-word
`v` by `insert_large(v)`. Answers the accumulator after the completed ones, and the fault of the first that fails. -/
def recordAll : List (Nat × Nat) → Facc → Facc × Option FaultCode
  | [], f => (f, none)
  | (v, m) :: rest, f =>
    match if v < 2 ^ 64 then insertPrime (BitVec.ofNat 64 v) m f else insertLarge (BitVec.ofNat 128 v) f with
    | .ok f' => recordAll rest f'
    | .error code => (f, some code)

/-- How a compound command ends when none of its inserts fails. -/
inductive RunEnd where
  /-- It completes. -/
  | completes
  /-- It takes a fault that is not an insert's. -/
  | faults (code : FaultCode)
  /-- It does not return. -/
  | never
deriving DecidableEq, Repr

/-- The state after a compound command that makes the inserts `ins` on `f` and then ends as `e` says: an insert that
fails ends it there, and `FACC` holds the completed ones (spec/60_exceptions.md R206). -/
def endedState (ins : List (Nat × Nat)) (f : Facc) (e : RunEnd) (s : State) : State :=
  match recordAll ins f with
  | (acc, some code) => raiseFault code { s with facc := acc }
  | (acc, none) =>
    match e with
    | .completes => faccState acc s
    | .faults code => raiseFault code { s with facc := acc }
    | .never => s

/-- `acc` is `f` after some completed inserts, and if `code` is an accumulator code, one more insert fails with it. -/
def CompletedInserts (f acc : Facc) (code : BitVec 8) : Prop :=
  ∃ ins, recordAll ins f = (acc, none) ∧
    ∀ c : FaultCode, c.code = code → c = .accFull ∨ c = .accLarge ∨ c = .accMult →
      ∃ v m, recordAll [(v, m)] acc = (acc, some c)

/-! ### What trial division tries (spec/42_trial_division.md R131) -/

/-- The inserts of trial division of `t` by 2 and the first `e` primes of a table of `td`: 2 at once with its
multiplicity, then each prime once for every time it divides `t`. -/
def trialInserts (td e t : Nat) : List (Nat × Nat) :=
  (if t % 2 = 0 then [(2, padicValNat 2 t)] else []) ++
    ((tablePrimes td).take e).flatMap fun p => List.replicate (padicValNat p t) (p, 1)

/-- What is left of `t` after 2 and the first `e` table primes are divided out. -/
def trialResidue (td e t : Nat) : Nat := t / ((trialInserts td e t).map fun vm => vm.1 ^ vm.2).prod

/-- The table prime with index `i`, or `FOP` past the table: the next prime not yet tried. -/
def nextPrime (td i : Nat) : Nat := (tablePrimes td).getD i (firstOmitted td)

/-- Trial division of `t` tries exactly the first `e` table primes. It tries one after the other while the residue has
two words, up to the index `i`; from there groups of 8, and after each group it stops if the square of the next prime is
above the residue or the table is done. -/
def TrialTries (td t e : Nat) : Prop :=
  ∃ i, i ≤ td ∧ (∀ j < i, 2 ^ 64 ≤ trialResidue td j t) ∧ (i < td → trialResidue td i t < 2 ^ 64) ∧
    ((i = td ∧ e = td) ∨
      (i < td ∧ ∃ k, 1 ≤ k ∧ e = min (i + 8 * k) td ∧
        (td ≤ i + 8 * k ∨ trialResidue td e t < nextPrime td e ^ 2) ∧
        ∀ j, 1 ≤ j → j < k → i + 8 * j < td ∧ nextPrime td (i + 8 * j) ^ 2 ≤ trialResidue td (i + 8 * j) t))

/-! ### Lucas proofs (spec/43_primality.md R146, R147) -/

/-- The bases of proof mode: 2 and the whole table. -/
def proofBases (s : State) : List Nat := 2 :: tablePrimes s.params.tdCount

/-- The base `b` passes every Lucas check for `n`: `b^((n-1)/p)` is not 1 modulo `n` for any prime `p` dividing
`n - 1`. -/
def LucasBase (n b : Nat) : Prop := ∀ p, p.Prime → p ∣ n - 1 → b ^ ((n - 1) / p) % n ≠ 1

/-- `n` passes every Miller-Rabin test of proof mode and no base passes every Lucas check: what `LUCAS_FAIL` reports. -/
def Unproved (s : State) (n : Nat) : Prop :=
  ∀ b ∈ proofBases s, StrongProbablePrime n b ∧ ¬LucasBase n b

/-- Trial division alone factors `m` completely: what is left beside 2 and table primes is below `FOP^2`. -/
def SmoothEnough (s : State) (m : Nat) : Prop :=
  ∃ u w, m = u * w ∧ (∀ p, p.Prime → p ∣ u → p = 2 ∨ p ∈ tablePrimes s.params.tdCount) ∧ w < fopSquared s

/-- What the verdicts of the oracle command `i` on `n` mean in proof mode (spec/43_primality.md R147, R151): 1 proves `n`
prime, 0 proves it is not, and `LUCAS_FAIL` reports an odd number up to `n` that no base proves. -/
def ProofSound (i : Instr) (rd : Reg) (s : State) (n : Nat) : Prop :=
  (exec i s = .next (resultState rd 1 s) → n.Prime) ∧
  (exec i s = .next (resultState rd 0 s) → ¬n.Prime) ∧
  (exec i s = .next (raiseFault .lucasFail s) → ∃ m, fopSquared s ≤ m ∧ m ≤ n ∧ m % 2 = 1 ∧ Unproved s m)

/-- How the oracle command `i` on `n` ends in proof mode when `n - 1` is factored (spec/43_primality.md R145, R147). -/
def ProofOutcome (i : Instr) (rd : Reg) (s : State) (n : Nat) : Prop :=
  (n.Prime → (∃ b ∈ proofBases s, LucasBase n b) → exec i s = .next (resultState rd 1 s)) ∧
  ((∃ b ∈ proofBases s, ¬StrongProbablePrime n b) → exec i s = .next (resultState rd 0 s)) ∧
  (Unproved s n → exec i s = .next (raiseFault .lucasFail s))

/-! ### Lists of the commands -/

/-- The general register a command writes (spec/30_encoding.md R72). -/
def destOf : Instr → Option Reg
  | .add2 rd _ _ => some rd
  | .sub2 rd _ _ => some rd
  | .cmp2 _ _ => none
  | .shl2 rd _ _ => some rd
  | .shr2 rd _ _ => some rd
  | .minv rd _ => some rd
  | .tomont1 rd _ _ => some rd
  | .tomont2 rd _ _ => some rd
  | .mulredc1 rd _ _ _ _ => some rd
  | .mulredc2 rd _ _ _ _ => some rd
  | .powredc1 rd _ _ _ _ _ => some rd
  | .powredc2 rd _ _ _ _ _ => some rd
  | .tdiv rd _ => some rd
  | .mr1 rd _ _ => some rd
  | .mr2 rd _ _ => some rd
  | .prime1 rd _ => some rd
  | .prime2 rd _ => some rd
  | .isprime rd _ => some rd
  | .gcd1 rd _ _ => some rd
  | .gcd2 rd _ _ => some rd
  | .rho1 _ _ => none
  | .rho2 _ _ => none
  | .factor _ => none
  | .fclr => none
  | .fins _ _ => none
  | .finsl _ => none

/-- The commands that write `FLAGS` (spec/10_state.md R24). -/
def writesFlags : Instr → Bool
  | .add2 _ _ _ => true
  | .sub2 _ _ _ => true
  | .cmp2 _ _ => true
  | .shl2 _ _ _ => false
  | .shr2 _ _ _ => false
  | .minv _ _ => false
  | .tomont1 _ _ _ => false
  | .tomont2 _ _ _ => false
  | .mulredc1 _ _ _ _ _ => false
  | .mulredc2 _ _ _ _ _ => false
  | .powredc1 _ _ _ _ _ _ => false
  | .powredc2 _ _ _ _ _ _ => false
  | .tdiv _ _ => false
  | .mr1 _ _ _ => false
  | .mr2 _ _ _ => false
  | .prime1 _ _ => false
  | .prime2 _ _ => false
  | .isprime _ _ => false
  | .gcd1 _ _ _ => false
  | .gcd2 _ _ _ => false
  | .rho1 _ _ => false
  | .rho2 _ _ => false
  | .factor _ => false
  | .fclr => false
  | .fins _ _ => false
  | .finsl _ => false

/-- The commands that write `FACC` (spec/10_state.md R30). -/
def writesFacc : Instr → Bool
  | .add2 _ _ _ => false
  | .sub2 _ _ _ => false
  | .cmp2 _ _ => false
  | .shl2 _ _ _ => false
  | .shr2 _ _ _ => false
  | .minv _ _ => false
  | .tomont1 _ _ _ => false
  | .tomont2 _ _ _ => false
  | .mulredc1 _ _ _ _ _ => false
  | .mulredc2 _ _ _ _ _ => false
  | .powredc1 _ _ _ _ _ _ => false
  | .powredc2 _ _ _ _ _ _ => false
  | .tdiv _ _ => true
  | .mr1 _ _ _ => false
  | .mr2 _ _ _ => false
  | .prime1 _ _ => false
  | .prime2 _ _ => false
  | .isprime _ _ => false
  | .gcd1 _ _ _ => false
  | .gcd2 _ _ _ => false
  | .rho1 _ _ => true
  | .rho2 _ _ => true
  | .factor _ => true
  | .fclr => true
  | .fins _ _ => true
  | .finsl _ => true

/-- The commands that always complete or fault, given the mode sampled (spec/70_reset_and_hazards.md R238). -/
def alwaysEnds (proving : Bool) : Instr → Bool
  | .add2 _ _ _ => true
  | .sub2 _ _ _ => true
  | .cmp2 _ _ => true
  | .shl2 _ _ _ => true
  | .shr2 _ _ _ => true
  | .minv _ _ => true
  | .tomont1 _ _ _ => true
  | .tomont2 _ _ _ => true
  | .mulredc1 _ _ _ _ _ => true
  | .mulredc2 _ _ _ _ _ => true
  | .powredc1 _ _ _ _ _ _ => true
  | .powredc2 _ _ _ _ _ _ => true
  | .tdiv _ _ => true
  | .mr1 _ _ _ => true
  | .mr2 _ _ _ => true
  | .prime1 _ _ => !proving
  | .prime2 _ _ => !proving
  | .isprime _ _ => !proving
  | .gcd1 _ _ _ => true
  | .gcd2 _ _ _ => true
  | .rho1 _ _ => false
  | .rho2 _ _ => false
  | .factor _ => false
  | .fclr => true
  | .fins _ _ => true
  | .finsl _ => true

/-- The codes a command can raise in the mode sampled (spec/60_exceptions.md R211, with the `RANGE` after restarts that
R211 adds for every command that runs rho). -/
def faultCodes (proving : Bool) : Instr → List FaultCode
  | .add2 _ _ _ => []
  | .sub2 _ _ _ => []
  | .cmp2 _ _ => []
  | .shl2 _ _ _ => []
  | .shr2 _ _ _ => []
  | .minv _ _ => [.even]
  | .tomont1 _ _ _ => [.even, .range]
  | .tomont2 _ _ _ => [.even, .topBit, .range]
  | .mulredc1 _ _ _ _ _ => [.even, .range, .inv]
  | .mulredc2 _ _ _ _ _ => [.even, .topBit, .range, .inv]
  | .powredc1 _ _ _ _ _ _ => [.even, .range, .inv]
  | .powredc2 _ _ _ _ _ _ => [.even, .topBit, .range, .inv]
  | .tdiv _ _ => [.range, .accFull, .accMult]
  | .mr1 _ _ _ => [.even, .range]
  | .mr2 _ _ _ => [.even, .topBit, .range]
  | .prime1 _ _ => [.even] ++ if proving then [.lucasFail, .range] else []
  | .prime2 _ _ => [.even, .topBit] ++ if proving then [.lucasFail, .range] else []
  | .isprime _ _ => [.topBit] ++ if proving then [.lucasFail, .range] else []
  | .gcd1 _ _ _ => [.even]
  | .gcd2 _ _ _ => [.even]
  | .rho1 _ _ => [.even, .range, .accFull, .accMult] ++ if proving then [.lucasFail] else []
  | .rho2 _ _ => [.even, .topBit, .range, .accFull, .accLarge, .accMult] ++ if proving then [.lucasFail] else []
  | .factor _ => [.topBit, .range] ++ if proving then [.lucasFail] else []
  | .fclr => []
  | .fins _ _ => [.range, .accFull, .accMult]
  | .finsl _ => [.range, .accFull, .accLarge, .accMult]

end Sys2Proof.Machine
end

