-- ==== Sys2Proof/Certificates/Slice0/Obligations.lean ====
section
/-!
DEFINITION. The statements for the provers: what the spec says the block does, one definition each. Every helper they use
stands in the model or in Safety.lean; the witnesses of their hypotheses stand in Tests/Slice0.lean.
-/
open Sys2Proof Sys2Proof.Machine

/-- Decode after encode, over every command and operand (spec/30_encoding.md sections 1 to 3). The encoder is the
model's own. -/
def Obligations.DecodeInvertsEncode : Prop :=
  ∀ i : Instr, WellFormed i → decode (encode i) = .ok i

/-- Encode after decode: one value a command, no reserved bit accepted (spec/30_encoding.md section 4). The encoder
is the model's own. -/
def Obligations.EncodeInvertsDecode : Prop :=
  ∀ (v : Word) (i : Instr), decode v = .ok i → WellFormed i ∧ encode i = v

/-- The slot decoder against the match and mask columns of the table (spec/30_encoding.md section 3). -/
def Obligations.DecoderFollowsOpcodeTable : Prop :=
  opcodeTable.length = 26 ∧
  ∀ c < 0x100000000, ∀ row ∈ opcodeTable,
    (c &&& row.mask = row.matchBits ↔ ∃ i, decodeWord c = .ok i ∧ i.mnemonic = row.mnemonic)

/-- The example words of spec/30_encoding.md section 6 and spec/70_reset_and_hazards.md section 2. A sanity
statement. -/
def Obligations.SampleWordsDecode : Prop :=
  EncodedAs (.add2 3 1 2) 0x00021301 ∧ EncodedAs (.shl2 4 4 65) 0x00414404 ∧
  EncodedAs (.mulredc1 5 1 2 6 7) 0x07621513 ∧ EncodedAs (.powredc1 8 1 2 6 7 9) 0x97621815 ∧
  EncodedAs (.fins 3 2) 0x00023051 ∧ EncodedAs (.rho1 6 1) 0x00016042 ∧ EncodedAs (.factor 1) 0x00001044 ∧
  EncodedAs .fclr 0x00000050 ∧ EncodedAs (.isprime 2 1) 0x00001234

/-- R76. The last clause says there is no third case: a value that matches a row is a command. -/
def Obligations.UnlistedValuesRaiseIllegal : Prop :=
  (∀ s : State, s.status.busy = true →
    (0x100000000 ≤ s.cmd.toNat ∨ ∀ row ∈ opcodeTable, s.cmd.toNat &&& row.mask ≠ row.matchBits) →
    (s.host = [] → step s = .next (raiseFault .illegal s)) ∧
    (∀ rest, s.host = .elapse :: rest → step s = .next (raiseFault .illegal { s with host := rest }))) ∧
  (∀ row ∈ opcodeTable, 0x00000000 &&& row.mask ≠ row.matchBits ∧ 0xFFFFFFFF &&& row.mask ≠ row.matchBits) ∧
  (∀ v : Word, v.toNat < 0x100000000 → (∃ row ∈ opcodeTable, v.toNat &&& row.mask = row.matchBits) →
    ∃ i, decode v = .ok i)

/-- The step runs the decoded command. That one step is one host action or one whole command is the model's choice
(log 2, log 3). -/
def Obligations.StepRunsDecodedCommand : Prop :=
  (∀ (s : State) (i : Instr), s.status.busy = true → decode s.cmd = .ok i →
    (s.host = [] → step s = exec i s) ∧
    (∀ rest, s.host = .elapse :: rest → step s = exec i { s with host := rest })) ∧
  (∀ s : State, s.status.busy = false → (s.host = [] → step s = .next s) ∧
    ∀ rest, s.host = .elapse :: rest → step s = .next { s with host := rest })

/-- R25, every sentence: issue, drop, execution of what was issued, read-back (also after a fault), reset value. -/
def Obligations.CmdWriteIssuesOrDrops : Prop :=
  (∀ (s : State) (v : Word),
    (Ready s → HostWrites 0x000 v s
      { s with cmd := v, status := { s.status with busy := true, done := false }, proveSample := s.prove }) ∧
    (¬Ready s → HostWrites 0x000 v s (lostState s)) ∧ HostReads 0x000 s s.cmd) ∧
  (∀ (s : State) (i : Instr), Ready s → s.host = [] → WellFormed i →
    ∃ t, step { s with host := [.write 0x000 8 (encode i)] } = .next t ∧ step t = exec i t) ∧
  (∀ (i : Instr) (s t : State), exec i s = .next t → t.cmd = s.cmd) ∧
  (∀ s t : State, s.status.busy = true → s.host = [] → step s = .next t → t.cmd = s.cmd) ∧
  State.reset.cmd = 0

/-- R207, with the DONE and LOST bits of the same write. -/
def Obligations.StatusWriteAcknowledges : Prop :=
  ∀ (s : State) (v : Word), Idle s →
    (HostWrites 0x008 v s { s with
      ecause := if v.getLsbD 2 = true ∧ s.status.fatal = false then 0 else s.ecause
      status := { s.status with
        done := s.status.done && !v.getLsbD 1
        err := if v.getLsbD 2 = true ∧ s.status.fatal = false then false else s.status.err
        lost := s.status.lost && !v.getLsbD 4 } }) ∧
    (s.status.err = true → ∀ c, HostWrites 0x000 c s (lostState s)) ∧
    (s.status.fatal = false → v.getLsbD 2 = true →
      ∃ t, HostWrites 0x008 v s t ∧ Ready t ∧ t.ecause = 0 ∧ t.x = s.x ∧ t.facc = s.facc ∧ t.flags = s.flags ∧
        t.cmd = s.cmd ∧ step { t with host := [] } = .next { t with host := [] } ∧
        ∀ c, ∃ u, HostWrites 0x000 c t u ∧ u.cmd = c ∧ u.status.busy = true)

/-- R242. -/
def Obligations.ModeIsSampledPerCommand : Prop :=
  (∀ (s : State) (v : Word), Ready s →
    ∃ t, HostWrites 0x000 v s t ∧ t.proveSample = s.prove ∧ t.prove = s.prove) ∧
  (∀ (s : State) (v : Word), s.status.busy = true → HostWrites 0x010 v s (lostState s)) ∧
  (∀ (s : State) (v : Word), Idle s → HostWrites 0x010 v s { s with prove := v.getLsbD 0 }) ∧
  (∀ (i : Instr) (s t : State) (b : Bool), exec i s = .next t →
    exec i { s with prove := b } = .next { t with prove := b })

/-- R53, every row of the map, with the engine idle. The writes of CMD and STATUS are stated in full elsewhere. -/
def Obligations.RegisterMap : Prop :=
  ∀ s : State, Idle s →
    HostReads 0x000 s s.cmd ∧
    HostReads 0x008 s (BitVec.ofNat 64 (s.status.busy.toNat + 2 * s.status.done.toNat + 4 * s.status.err.toNat +
      8 * s.status.fatal.toNat + 16 * s.status.lost.toNat)) ∧
    HostReads 0x010 s (BitVec.ofNat 64 s.prove.toNat) ∧
    HostReads 0x018 s (BitVec.ofNat 64 (s.flags.c.toNat + 2 * s.flags.z.toNat)) ∧
    HostReads 0x020 s (BitVec.ofNat 64 s.ecause.toNat) ∧
    (∀ i : Reg, HostReads (0x100 + 16 * i.val) s (BitVec.ofNat 64 (fullValue i s % 2 ^ 64)) ∧
      HostReads (0x108 + 16 * i.val) s (BitVec.ofNat 64 (fullValue i s / 2 ^ 64))) ∧
    HostReads 0x200 s (BitVec.ofNat 64 s.facc.pairs.length) ∧
    HostReads 0x208 s (BitVec.ofNat 64 (s.facc.plarge.toNat % 2 ^ 64)) ∧
    HostReads 0x210 s (BitVec.ofNat 64 (s.facc.plarge.toNat / 2 ^ 64)) ∧
    (∀ i < 26, HostReads (0x400 + 8 * i) s (((s.facc.pairs[i]?).map Entry.p).getD 0) ∧
      HostReads (0x600 + 8 * i) s (BitVec.ofNat 64 (((s.facc.pairs[i]?).map Entry.e).getD 0).toNat)) ∧
    (∀ off, off % 8 = 0 → off < 0x800 → ¬MappedOffset off → HostReads off s 0 ∧ ∀ v, HostWrites off v s s) ∧
    (∀ (i : Reg) (v : Word),
      HostWrites (0x100 + 16 * i.val) v s { s with x := s.x.set i.val (pair (hiWord s.x[i.val]) v) } ∧
      HostWrites (0x108 + 16 * i.val) v s { s with x := s.x.set i.val (pair v (loWord s.x[i.val])) }) ∧
    (∀ v, HostWrites 0x010 v s { s with prove := v.getLsbD 0 }) ∧
    (∀ v, (s.status.err = false → s.status.fatal = false → ∃ t, HostWrites 0x000 v s t ∧ t.cmd = v) ∧
      ∃ t, HostWrites 0x008 v s t ∧ t.status.lost = (s.status.lost && !v.getLsbD 4)) ∧
    (∀ off, off % 8 = 0 → MappedOffset off → (off = 0x018 ∨ off = 0x020 ∨ 0x200 ≤ off) →
      ∀ v, HostWrites off v s (lostState s))

/-- R56. -/
def Obligations.WritesDroppedWithLost : Prop :=
  ∀ (s : State) (v : Word),
    (s.status.busy = true → ∀ off, off % 8 = 0 → MappedOffset off → HostWrites off v s (lostState s)) ∧
    (s.status.busy = false → ∀ off, off % 8 = 0 → MappedOffset off →
      (off = 0x018 ∨ off = 0x020 ∨ 0x200 ≤ off) → HostWrites off v s (lostState s)) ∧
    (¬Ready s → HostWrites 0x000 v s (lostState s)) ∧
    (Ready s → ∃ t, HostWrites 0x000 v s t ∧ t.cmd = v ∧ t.status.lost = s.status.lost)

/-- R55. -/
def Obligations.UnmappedOffsetsAreInert : Prop :=
  ∀ (s : State) (off : Nat), off % 8 = 0 → off < 0x800 → ¬MappedOffset off →
    HostReads off s 0 ∧ ∀ v, HostWrites off v s s

/-- Refused accesses and byte order (spec/20_memory.md section 2, R54). That a refused read, too, sets LOST is the
model's choice (log 19). windowByte is the model's byte view of the window on a byte-addressed bus. -/
def Obligations.RefusedAccessesSetLost : Prop :=
  (∀ (s : State) (off width : Nat) (rest : List HostEvent), off < 0x800 → (width ≠ 8 ∨ off % 8 ≠ 0) →
    step { s with host := .read off width :: rest } = .next { lostState s with host := rest, rdata := 0 } ∧
    ∀ v, step { s with host := .write off width v :: rest } = .next { lostState s with host := rest }) ∧
  (∀ (s : State) (off : Nat) (v : Word) (k : Nat), Idle s → off % 8 = 0 → off < 0x800 → k < 8 → HostReads off s v →
    windowByte (off + k) s = BitVec.ofNat 8 (v.toNat / 2 ^ (8 * k))) ∧
  (∀ (s : State) (i : Reg), Idle s → HostReads (0x100 + 16 * i.val) s (loWord s.x[i.val]) ∧
    HostReads (0x100 + 16 * i.val + 8) s (hiWord s.x[i.val]))

/-- spec/20_memory.md section 2 (R57) on reads. The free value of log 4 is left open: the statement holds for every
value. -/
def Obligations.BusyReadsChangeNothing : Prop :=
  (∀ (s : State) (off : Nat) (rest : List HostEvent), off % 8 = 0 → off < 0x800 →
    ∃ (v : Word) (k : Nat), (k = s.freeIdx ∨ k = s.freeIdx + 1) ∧
      step { s with host := .read off 8 :: rest } = .next { s with host := rest, rdata := v, freeIdx := k }) ∧
  (∀ s : State, s.status.busy = true → HostReads 0x000 s s.cmd ∧
    HostReads 0x008 s (BitVec.ofNat 64 (1 + 2 * s.status.done.toNat + 4 * s.status.err.toNat +
      8 * s.status.fatal.toNat + 16 * s.status.lost.toNat)) ∧
    HostReads 0x010 s (BitVec.ofNat 64 s.prove.toNat))

/-- R35. The model's own fields (logs 1, 2, 4, 5, 11) are not spoken of. -/
def Obligations.ResetValues : Prop :=
  (∀ r : Reg, State.reset.x[r.val] = 0) ∧ State.reset.flags = { c := false, z := false } ∧ State.reset.cmd = 0 ∧
  State.reset.status = { busy := false, done := false, err := false, fatal := false, lost := false } ∧
  State.reset.prove = false ∧ State.reset.ecause = 0 ∧
  State.reset.facc.nf = 0 ∧ State.reset.facc.plarge = 0 ∧
  (∀ i < 26, State.reset.facc.primeSlot i = 0 ∧ State.reset.facc.multSlot i = 0) ∧
  (∀ off, off % 8 = 0 → off < 0x800 → HostReads off State.reset 0)

/-- The reset event (spec/70_reset_and_hazards.md section 1, R230). What the model's own fields do is its choice
(log 12). -/
def Obligations.ResetEventRestoresResetState : Prop :=
  ∀ (s : State) (rest : List HostEvent), step { s with host := .reset :: rest } =
    .next { State.reset with params := s.params, host := rest, rdata := s.rdata, freeIdx := s.freeIdx }

/-- R208. The premise ERR = 1, BUSY = 0 is the state the fault leaves and part of the invariant kept by every step.
-/
def Obligations.FatalLastsUntilReset : Prop :=
  (∀ s : State, (raiseFault .lucasFail s).status.fatal = true ∧ (raiseFault .lucasFail s).status.err = true ∧
    (raiseFault .lucasFail s).status.busy = false) ∧
  (∀ s t : State, s.status.fatal = true → s.status.err = true → s.status.busy = false → step s = .next t →
    (∀ rest, s.host ≠ .reset :: rest) →
    t.status.fatal = true ∧ t.status.err = true ∧ t.status.busy = false ∧ t.ecause = s.ecause ∧ t.cmd = s.cmd) ∧
  (∀ (s : State) (rest : List HostEvent), ∃ t, step { s with host := .reset :: rest } = .next t ∧
    t.status.fatal = false ∧ Ready t)

/-- R204, the trap entry, and what the host can do after it. The nine values are those of the table of R201. -/
def Obligations.RaiseFaultRecordsCode : Prop :=
  ∀ (code : FaultCode) (s : State),
    raiseFault code s = { s with
      ecause := code.code
      status := { busy := false, done := s.status.done, err := true
                  fatal := s.status.fatal || decide (code = .lucasFail), lost := s.status.lost } } ∧
    (FaultCode.illegal.code = 1 ∧ FaultCode.even.code = 2 ∧ FaultCode.topBit.code = 3 ∧ FaultCode.range.code = 4 ∧
      FaultCode.inv.code = 5 ∧ FaultCode.accFull.code = 6 ∧ FaultCode.accLarge.code = 7 ∧
      FaultCode.accMult.code = 8 ∧ FaultCode.lucasFail.code = 9) ∧
    (∀ c, HostWrites 0x000 c (raiseFault code s) (lostState (raiseFault code s))) ∧
    (∀ r : Reg, HostReads (0x100 + 16 * r.val) (raiseFault code s) (loWord s.x[r.val]) ∧
      HostReads (0x108 + 16 * r.val) (raiseFault code s) (hiWord s.x[r.val]) ∧
      ∀ v, HostWrites (0x100 + 16 * r.val) v (raiseFault code s)
        (raiseFault code { s with x := s.x.set r.val (pair (hiWord s.x[r.val]) v) }) ∧
      HostWrites (0x108 + 16 * r.val) v (raiseFault code s)
        (raiseFault code { s with x := s.x.set r.val (pair v (loWord s.x[r.val])) })) ∧
    HostReads 0x018 (raiseFault code s) (BitVec.ofNat 64 (s.flags.c.toNat + 2 * s.flags.z.toNat)) ∧
    HostReads 0x010 (raiseFault code s) (BitVec.ofNat 64 s.prove.toNat) ∧
    HostReads 0x200 (raiseFault code s) (BitVec.ofNat 64 s.facc.pairs.length) ∧
    HostReads 0x210 (raiseFault code s) (hiWord s.facc.plarge) ∧
    HostReads 0x208 (raiseFault code s) (loWord s.facc.plarge) ∧
    (∀ i < 26, HostReads (0x400 + 8 * i) (raiseFault code s) (s.facc.primeSlot i) ∧
      HostReads (0x600 + 8 * i) (raiseFault code s) ((s.facc.multSlot i).setWidth 64))

/-- R101. -/
def Obligations.Add2Result : Prop :=
  ∀ (rd ra rb : Reg) (s : State),
    EncodedAs (.add2 rd ra rb) (0x01 + 0x100 * rd.val + 0x1000 * ra.val + 0x10000 * rb.val) ∧
    exec (.add2 rd ra rb) s = .next (doneState { s with
      x := s.x.set rd.val (BitVec.ofNat 128 (fullValue ra s + fullValue rb s))
      flags := { c := decide (2 ^ 128 ≤ fullValue ra s + fullValue rb s)
                 z := decide ((fullValue ra s + fullValue rb s) % 2 ^ 128 = 0) } })

/-- R102. -/
def Obligations.Sub2Result : Prop :=
  ∀ (rd ra rb : Reg) (s : State),
    EncodedAs (.sub2 rd ra rb) (0x02 + 0x100 * rd.val + 0x1000 * ra.val + 0x10000 * rb.val) ∧
    exec (.sub2 rd ra rb) s = .next (doneState { s with
      x := s.x.set rd.val (BitVec.ofNat 128 (fullValue ra s + 2 ^ 128 - fullValue rb s))
      flags := { c := decide (fullValue ra s < fullValue rb s), z := decide (fullValue ra s = fullValue rb s) } })

/-- R103. -/
def Obligations.Cmp2Result : Prop :=
  ∀ (ra rb : Reg) (s : State),
    EncodedAs (.cmp2 ra rb) (0x03 + 0x1000 * ra.val + 0x10000 * rb.val) ∧
    exec (.cmp2 ra rb) s = .next (doneState { s with
      flags := { c := decide (fullValue ra s < fullValue rb s), z := decide (fullValue ra s = fullValue rb s) } }) ∧
    ∀ rd, ∃ t u, exec (.cmp2 ra rb) s = .next t ∧ exec (.sub2 rd ra rb) s = .next u ∧ t.flags = u.flags

/-- R105. Counts of 128 and more have no encoding (log 15). -/
def Obligations.Shl2Result : Prop :=
  ∀ (rd ra : Reg) (sh : Nat) (s : State),
    (sh < 128 → EncodedAs (.shl2 rd ra sh) (0x04 + 0x100 * rd.val + 0x1000 * ra.val + 0x10000 * sh)) ∧
    (sh < 128 → exec (.shl2 rd ra sh) s = .next (resultState rd (fullValue ra s * 2 ^ sh % 2 ^ 128) s))

/-- R106. -/
def Obligations.Shr2Result : Prop :=
  ∀ (rd ra : Reg) (sh : Nat) (s : State),
    (sh < 128 → EncodedAs (.shr2 rd ra sh) (0x05 + 0x100 * rd.val + 0x1000 * ra.val + 0x10000 * sh)) ∧
    (sh < 128 → exec (.shr2 rd ra sh) s = .next (resultState rd (fullValue ra s / 2 ^ sh) s))

/-- R111. -/
def Obligations.MinvResult : Prop :=
  ∀ (rd ra : Reg) (s : State),
    EncodedAs (.minv rd ra) (0x10 + 0x100 * rd.val + 0x1000 * ra.val) ∧
    (if lowWord ra s % 2 = 0 then exec (.minv rd ra) s = .next (raiseFault .even s)
     else ∃ v, (∀ u, (u < 2 ^ 64 ∧ lowWord ra s * u % 2 ^ 64 = 1) ↔ u = v) ∧
      exec (.minv rd ra) s = .next (resultState rd v s))

/-- R121. -/
def Obligations.Tomont1Result : Prop :=
  ∀ (rd ra rn : Reg) (s : State),
    EncodedAs (.tomont1 rd ra rn) (0x11 + 0x100 * rd.val + 0x1000 * ra.val + 0x10000 * rn.val) ∧
    exec (.tomont1 rd ra rn) s = .next
      (if lowWord rn s % 2 = 0 then raiseFault .even s
       else if lowWord rn s ≤ lowWord ra s then raiseFault .range s
       else resultState rd (lowWord ra s * 2 ^ 64 % lowWord rn s) s)

/-- R122. -/
def Obligations.Tomont2Result : Prop :=
  ∀ (rd ra rn : Reg) (s : State),
    EncodedAs (.tomont2 rd ra rn) (0x12 + 0x100 * rd.val + 0x1000 * ra.val + 0x10000 * rn.val) ∧
    exec (.tomont2 rd ra rn) s = .next
      (if fullValue rn s % 2 = 0 then raiseFault .even s
       else if 2 ^ 127 ≤ fullValue rn s then raiseFault .topBit s
       else if fullValue rn s ≤ fullValue ra s then raiseFault .range s
       else resultState rd (fullValue ra s * 2 ^ 128 % fullValue rn s) s)

/-- R115. The result is pinned as the residue of a * b * R^-1. -/
def Obligations.Mulredc1Result : Prop :=
  ∀ (rd ra rb rn ri : Reg) (s : State),
    EncodedAs (.mulredc1 rd ra rb rn ri)
      (0x13 + 0x100 * rd.val + 0x1000 * ra.val + 0x10000 * rb.val + 0x100000 * rn.val + 0x1000000 * ri.val) ∧
    (if lowWord rn s % 2 = 0 then exec (.mulredc1 rd ra rb rn ri) s = .next (raiseFault .even s)
     else if lowWord rn s ≤ lowWord ra s ∨ lowWord rn s ≤ lowWord rb s then
       exec (.mulredc1 rd ra rb rn ri) s = .next (raiseFault .range s)
     else if lowWord rn s * lowWord ri s % 2 ^ 64 ≠ 1 then
       exec (.mulredc1 rd ra rb rn ri) s = .next (raiseFault .inv s)
     else ∃ r, r < lowWord rn s ∧ r * 2 ^ 64 % lowWord rn s = lowWord ra s * lowWord rb s % lowWord rn s ∧
       exec (.mulredc1 rd ra rb rn ri) s = .next (resultState rd r s))

/-- R117. The result is pinned as the residue of a * b * R^-1. -/
def Obligations.Mulredc2Result : Prop :=
  ∀ (rd ra rb rn ri : Reg) (s : State),
    EncodedAs (.mulredc2 rd ra rb rn ri)
      (0x14 + 0x100 * rd.val + 0x1000 * ra.val + 0x10000 * rb.val + 0x100000 * rn.val + 0x1000000 * ri.val) ∧
    (if fullValue rn s % 2 = 0 then exec (.mulredc2 rd ra rb rn ri) s = .next (raiseFault .even s)
     else if 2 ^ 127 ≤ fullValue rn s then exec (.mulredc2 rd ra rb rn ri) s = .next (raiseFault .topBit s)
     else if fullValue rn s ≤ fullValue ra s ∨ fullValue rn s ≤ fullValue rb s then
       exec (.mulredc2 rd ra rb rn ri) s = .next (raiseFault .range s)
     else if lowWord rn s * lowWord ri s % 2 ^ 64 ≠ 1 then
       exec (.mulredc2 rd ra rb rn ri) s = .next (raiseFault .inv s)
     else ∃ r, r < fullValue rn s ∧ r * 2 ^ 128 % fullValue rn s = fullValue ra s * fullValue rb s % fullValue rn s ∧
       exec (.mulredc2 rd ra rb rn ri) s = .next (resultState rd r s))

/-- POWREDC1 and POWREDC2 (spec/41_modular.md section 4, R118 to R120). The closed form is an inference from the
loop of R118 (log 13). -/
def Obligations.PowredcResult : Prop :=
  ∀ (rd ra re rn ri ro : Reg) (s : State),
    EncodedAs (.powredc1 rd ra re rn ri ro) (0x15 + 0x100 * rd.val + 0x1000 * ra.val + 0x10000 * re.val +
      0x100000 * rn.val + 0x1000000 * ri.val + 0x10000000 * ro.val) ∧
    (if lowWord rn s % 2 = 0 then exec (.powredc1 rd ra re rn ri ro) s = .next (raiseFault .even s)
     else if lowWord rn s ≤ lowWord ra s ∨ lowWord rn s ≤ lowWord ro s then
       exec (.powredc1 rd ra re rn ri ro) s = .next (raiseFault .range s)
     else if lowWord rn s * lowWord ri s % 2 ^ 64 ≠ 1 then
       exec (.powredc1 rd ra re rn ri ro) s = .next (raiseFault .inv s)
     else ∃ r, r < lowWord rn s ∧
       (lowWord re s % 2 = 1 →
         r * (2 ^ 64) ^ (lowWord re s - 1) % lowWord rn s = lowWord ra s ^ lowWord re s % lowWord rn s) ∧
       (lowWord re s % 2 = 0 →
         r * (2 ^ 64) ^ lowWord re s % lowWord rn s = lowWord ro s * lowWord ra s ^ lowWord re s % lowWord rn s) ∧
       exec (.powredc1 rd ra re rn ri ro) s = .next (resultState rd r s)) ∧
    EncodedAs (.powredc2 rd ra re rn ri ro) (0x16 + 0x100 * rd.val + 0x1000 * ra.val + 0x10000 * re.val +
      0x100000 * rn.val + 0x1000000 * ri.val + 0x10000000 * ro.val) ∧
    (if fullValue rn s % 2 = 0 then exec (.powredc2 rd ra re rn ri ro) s = .next (raiseFault .even s)
     else if 2 ^ 127 ≤ fullValue rn s then exec (.powredc2 rd ra re rn ri ro) s = .next (raiseFault .topBit s)
     else if fullValue rn s ≤ fullValue ra s ∨ fullValue rn s ≤ fullValue ro s then
       exec (.powredc2 rd ra re rn ri ro) s = .next (raiseFault .range s)
     else if lowWord rn s * lowWord ri s % 2 ^ 64 ≠ 1 then
       exec (.powredc2 rd ra re rn ri ro) s = .next (raiseFault .inv s)
     else ∃ r, r < fullValue rn s ∧
       (fullValue re s % 2 = 1 →
         r * (2 ^ 128) ^ (fullValue re s - 1) % fullValue rn s = fullValue ra s ^ fullValue re s % fullValue rn s) ∧
       (fullValue re s % 2 = 0 →
         r * (2 ^ 128) ^ fullValue re s % fullValue rn s =
           fullValue ro s * fullValue ra s ^ fullValue re s % fullValue rn s) ∧
       exec (.powredc2 rd ra re rn ri ro) s = .next (resultState rd r s))

/-- Leaving Montgomery form (spec/41_modular.md section 5, R123, marked derived there). -/
def Obligations.FromMontgomeryRecoversValue : Prop :=
  ∀ (xd xa xn xi xu : Reg) (s : State) (A : Nat),
    (lowWord xn s % 2 = 1 → 1 < lowWord xn s → A < lowWord xn s → lowWord xa s = A * 2 ^ 64 % lowWord xn s →
      lowWord xu s = 1 → lowWord xn s * lowWord xi s % 2 ^ 64 = 1 →
      exec (fromMont1 xd xa xn xi xu) s = .next (resultState xd A s)) ∧
    (fullValue xn s % 2 = 1 → 1 < fullValue xn s → fullValue xn s < 2 ^ 127 → A < fullValue xn s →
      fullValue xa s = A * 2 ^ 128 % fullValue xn s → fullValue xu s = 1 →
      lowWord xn s * lowWord xi s % 2 ^ 64 = 1 →
      exec (fromMont2 xd xa xn xi xu) s = .next (resultState xd A s))

/-- The seed table and the prime table (spec/10_state.md section 6, R32 and R33) for every TD_COUNT, and the base
sequence of the oracle (spec/43_primality.md section 2, R146); that the model computes the prime table is log 1. -/
def Obligations.ConstantTables : Prop :=
  (seedTable.length = 128 ∧
    ∀ j < 128, (2 * j + 1) * seedTable.getD j 0 % 256 = 1 ∧ seedTable.getD j 0 < 256) ∧
  ∀ td : Nat, (primeTable td).length = td ∧ firstOmitted td = Nat.nth Nat.Prime (td + 1) ∧
    tablePrimes td = (primeTable td).map TableEntry.p ∧
    laterBases td true = tablePrimes td ∧ laterBases td false = (tablePrimes td).take 24 ∧
    (24 ≤ td → 2 :: laterBases td false =
      [2, 3, 5, 7, 11, 13, 17, 19, 23, 29, 31, 37, 41, 43, 47, 53, 59, 61, 67, 71, 73, 79, 83, 89, 97]) ∧
    ∀ (i : Nat) (en : TableEntry), (primeTable td)[i]? = some en →
      en.p = Nat.nth Nat.Prime (i + 1) ∧ en.diff = Nat.nth Nat.Prime (i + 1) - Nat.nth Nat.Prime i ∧
      en.pinv < 2 ^ 64 ∧ en.p * en.pinv % 2 ^ 64 = 1 ∧ en.lim = (2 ^ 64 - 1) / en.p

/-- spec/42_trial_division.md section 1 (R130, marked derived there, and R132; that the listed datapath is used is
log 13). -/
def Obligations.DivisibilityTests : Prop :=
  ∀ (ps : Params) (en : TableEntry) (t : Nat), ps.legal = true → en ∈ primeTable ps.tdCount →
    (t < 2 ^ 64 →
      (en.p ∣ t ↔ t * en.pinv % 2 ^ 64 ≤ en.lim) ∧ (en.p ∣ t → t * en.pinv % 2 ^ 64 = t / en.p) ∧
      quotient1 en t = if en.p ∣ t then some (t / en.p) else none) ∧
    (t < 2 ^ 128 → quotient2 en t = if en.p ∣ t then some (t / en.p) else none)

/-- The invariant at reset, and the constraints of spec/00_scope.md section 4 (R8) at the default of log 1. -/
def Obligations.ResetIsLegal : Prop :=
  Inv State.reset ∧ State.reset.params.legal = true

/-- The result of TDIV (spec/42_trial_division.md sections 2 and 3, R131, R133; R134 is marked derived there).
TrialTries says where the early exit leaves. -/
def Obligations.TdivStripsTablePrimes : Prop :=
  ∀ (rd ra : Reg) (s : State), s.params.legal = true → s.facc = Facc.empty →
    EncodedAs (.tdiv rd ra) (0x20 + 0x100 * rd.val + 0x1000 * ra.val) ∧
    (fullValue ra s = 29 → exec (.tdiv rd ra) s = .next (resultState rd 29 s)) ∧
    (if fullValue ra s = 0 then exec (.tdiv rd ra) s = .next (raiseFault .range s)
     else ∃ r acc e, exec (.tdiv rd ra) s = .next (resultState rd r { s with facc := acc }) ∧ r < 2 ^ 128 ∧
       TrialTries s.params.tdCount (fullValue ra s) e ∧ r = trialResidue s.params.tdCount e (fullValue ra s) ∧
       (∀ q : Word, acc.multOf q = if q.toNat = 2 ∨ q.toNat ∈ (tablePrimes s.params.tdCount).take e
         then padicValNat q.toNat (fullValue ra s) else 0) ∧
       (∀ p, p.Prime → p < nextPrime s.params.tdCount e → ¬p ∣ r) ∧
       fullValue ra s = r * acc.value ∧ r % 2 = 1 ∧ acc.Wf ∧ acc.plarge = 0 ∧
       (∀ en ∈ acc.pairs, en.p.toNat = 2 ∨ en.p.toNat ∈ tablePrimes s.params.tdCount) ∧
       (r < 2 ^ 64 → r = 1 ∨ r.Prime ∨ (fopSquared s ≤ r ∧ NoTableFactor s r)) ∧
       (2 ^ 64 ≤ r → NoTableFactor s r))

/-- TDIV on an accumulator in use (spec/42_trial_division.md section 2, spec/60_exceptions.md section 1, R206). What
one insert does and when it fails is what FinsInserts says of FINS. -/
def Obligations.TdivAddsToAccumulator : Prop :=
  (∀ (rd ra : Reg) (s : State), s.params.legal = true → fullValue ra s ≠ 0 →
    ∃ e, TrialTries s.params.tdCount (fullValue ra s) e ∧
      ∀ acc failed, recordAll (trialInserts s.params.tdCount e (fullValue ra s)) s.facc = (acc, failed) →
        (failed = none → exec (.tdiv rd ra) s =
          .next (resultState rd (trialResidue s.params.tdCount e (fullValue ra s)) { s with facc := acc })) ∧
        (∀ code, failed = some code → (code = .accFull ∨ code = .accMult) ∧
          exec (.tdiv rd ra) s = .next (raiseFault code { s with facc := acc }))) ∧
  (∀ (rd ra : Reg) (s : State) (r : Nat) (acc : Facc), s.params.legal = true → s.facc.Wf → s.status.done = false →
    r < 2 ^ 128 → exec (.tdiv rd ra) s = .next (resultState rd r { s with facc := acc }) →
    fullValue ra s * s.facc.value = r * acc.value ∧ acc.plarge = s.facc.plarge ∧ acc.Wf)

/-- MR1, MR2 (spec/43_primality.md section 1). The loop of R141 is marked general knowledge in the spec (log 14). -/
def Obligations.MillerRabinVerdict : Prop :=
  ∀ (rd rn rb : Reg) (s : State),
    EncodedAs (.mr1 rd rn rb) (0x30 + 0x100 * rd.val + 0x1000 * rn.val + 0x10000 * rb.val) ∧
    EncodedAs (.mr2 rd rn rb) (0x31 + 0x100 * rd.val + 0x1000 * rn.val + 0x10000 * rb.val) ∧
    (if lowWord rn s % 2 = 0 then exec (.mr1 rd rn rb) s = .next (raiseFault .even s)
     else if lowWord rn s < 3 ∨ lowWord rn s ≤ lowWord rb s then
       exec (.mr1 rd rn rb) s = .next (raiseFault .range s)
     else VerdictIs (.mr1 rd rn rb) rd s (StrongProbablePrime (lowWord rn s) (lowWord rb s))) ∧
    (if fullValue rn s % 2 = 0 then exec (.mr2 rd rn rb) s = .next (raiseFault .even s)
     else if 2 ^ 127 ≤ fullValue rn s then exec (.mr2 rd rn rb) s = .next (raiseFault .topBit s)
     else if fullValue rn s < 3 ∨ fullValue rn s ≤ fullValue rb s then
       exec (.mr2 rd rn rb) s = .next (raiseFault .range s)
     else VerdictIs (.mr2 rd rn rb) rd s (StrongProbablePrime (fullValue rn s) (fullValue rb s)))

/-- PRIME1 (spec/43_primality.md sections 2 and 3, R144 to R148). The test is the one of log 14. -/
def Obligations.Prime1Verdict : Prop :=
  ∀ (rd rn : Reg) (s : State), s.params.legal = true →
    EncodedAs (.prime1 rd rn) (0x32 + 0x100 * rd.val + 0x1000 * rn.val) ∧
    (if lowWord rn s ≤ 1 then exec (.prime1 rd rn) s = .next (resultState rd 0 s)
     else if lowWord rn s < fopSquared s then exec (.prime1 rd rn) s = .next (resultState rd 1 s)
     else if lowWord rn s % 2 = 0 then exec (.prime1 rd rn) s = .next (raiseFault .even s)
     else (s.proveSample = false → VerdictIs (.prime1 rd rn) rd s (PassesBases s (lowWord rn s))))

/-- PRIME2 (spec/43_primality.md sections 2 and 3, R145, R146, R149). The test is the one of log 14. -/
def Obligations.Prime2Verdict : Prop :=
  ∀ (rd rn : Reg) (s : State), s.params.legal = true →
    EncodedAs (.prime2 rd rn) (0x33 + 0x100 * rd.val + 0x1000 * rn.val) ∧
    (if fullValue rn s < 2 ^ 64 then exec (.prime2 rd rn) s = exec (.prime1 rd rn) s
     else if fullValue rn s % 2 = 0 then exec (.prime2 rd rn) s = .next (raiseFault .even s)
     else if 2 ^ 127 ≤ fullValue rn s then exec (.prime2 rd rn) s = .next (raiseFault .topBit s)
     else (s.proveSample = false → VerdictIs (.prime2 rd rn) rd s (PassesBases s (fullValue rn s))))

/-- ISPRIME (spec/43_primality.md section 3, R150) against primality itself. -/
def Obligations.IsprimeExactBelowFopSquared : Prop :=
  ∀ (rd rn : Reg) (s : State), s.params.legal = true → fullValue rn s < fopSquared s →
    VerdictIs (.isprime rd rn) rd s (Nat.Prime (fullValue rn s))

/-- ISPRIME on every operand (spec/43_primality.md section 3, R150; the test is the one of log 14). -/
def Obligations.IsprimeVerdict : Prop :=
  ∀ (rd rn : Reg) (s : State), s.params.legal = true →
    EncodedAs (.isprime rd rn) (0x34 + 0x100 * rd.val + 0x1000 * rn.val) ∧
    (fullValue rn s < 2 → exec (.isprime rd rn) s = .next (resultState rd 0 s)) ∧
    (2 ≤ fullValue rn s → fullValue rn s % 2 = 0 → VerdictIs (.isprime rd rn) rd s (fullValue rn s = 2)) ∧
    (2 ≤ fullValue rn s → fullValue rn s % 2 = 1 → ¬NoTableFactor s (fullValue rn s) →
      VerdictIs (.isprime rd rn) rd s (fullValue rn s ∈ tablePrimes s.params.tdCount)) ∧
    (2 ≤ fullValue rn s → fullValue rn s % 2 = 1 → NoTableFactor s (fullValue rn s) →
      fullValue rn s < fopSquared s → exec (.isprime rd rn) s = .next (resultState rd 1 s)) ∧
    (fullValue rn s % 2 = 1 → NoTableFactor s (fullValue rn s) → 2 ^ 127 ≤ fullValue rn s →
      exec (.isprime rd rn) s = .next (raiseFault .topBit s)) ∧
    (fullValue rn s % 2 = 1 → NoTableFactor s (fullValue rn s) → fopSquared s ≤ fullValue rn s →
      fullValue rn s < 2 ^ 127 → s.proveSample = false →
      VerdictIs (.isprime rd rn) rd s (PassesBases s (fullValue rn s)))

/-- What proof-mode verdicts mean and when LUCAS_FAIL is raised (spec/43_primality.md sections 2 and 3, R145, R147,
R151). The premises BUSY = 1, DONE = 0, ERR = 0 tell completion, fault and non-return apart. -/
def Obligations.ProofModeVerdictIsProof : Prop :=
  ∀ (rd rn : Reg) (s : State), s.params.legal = true → s.proveSample = true → s.status.busy = true →
    s.status.done = false → s.status.err = false →
    ProofSound (.isprime rd rn) rd s (fullValue rn s) ∧
    (fopSquared s ≤ lowWord rn s → ProofSound (.prime1 rd rn) rd s (lowWord rn s)) ∧
    (fopSquared s ≤ fullValue rn s → ProofSound (.prime2 rd rn) rd s (fullValue rn s)) ∧
    (fopSquared s ≤ lowWord rn s → lowWord rn s % 2 = 1 → SmoothEnough s (lowWord rn s - 1) →
      ProofOutcome (.prime1 rd rn) rd s (lowWord rn s)) ∧
    (fopSquared s ≤ fullValue rn s → fullValue rn s % 2 = 1 → fullValue rn s < 2 ^ 127 →
      SmoothEnough s (fullValue rn s - 1) → ProofOutcome (.prime2 rd rn) rd s (fullValue rn s) ∧
        (NoTableFactor s (fullValue rn s) → ProofOutcome (.isprime rd rn) rd s (fullValue rn s)))

/-- R161 and R162. -/
def Obligations.GcdResult : Prop :=
  ∀ (rd ra rb : Reg) (s : State),
    EncodedAs (.gcd1 rd ra rb) (0x40 + 0x100 * rd.val + 0x1000 * ra.val + 0x10000 * rb.val) ∧
    exec (.gcd1 rd ra rb) s = .next
      (if lowWord rb s % 2 = 0 then raiseFault .even s
       else resultState rd (Nat.gcd (lowWord ra s) (lowWord rb s)) s) ∧
    EncodedAs (.gcd2 rd ra rb) (0x41 + 0x100 * rd.val + 0x1000 * ra.val + 0x10000 * rb.val) ∧
    exec (.gcd2 rd ra rb) s = .next
      (if fullValue rb s % 2 = 0 then raiseFault .even s
       else resultState rd (Nat.gcd (fullValue ra s) (fullValue rb s)) s)

/-- The worked examples of RHO1 (spec/44_rho_factor.md section 2, R169), and the same operands through RHO2. The
iteration is the one of log 14. -/
def Obligations.RhoSplitsSmallComposites : Prop :=
  ∀ (rn : Reg) (s : State), s.params.legal = true → s.facc = Facc.empty →
    (lowWord rn s = 15 → exec (.rho1 rn 1) s =
      .next (faccState { pairs := [{ p := 3, e := 1 }, { p := 5, e := 1 }], plarge := 0 } s)) ∧
    (lowWord rn s = 25 → exec (.rho1 rn 1) s = .next (faccState { pairs := [{ p := 5, e := 2 }], plarge := 0 } s)) ∧
    (fullValue rn s = 15 → exec (.rho2 rn 1) s =
      .next (faccState { pairs := [{ p := 3, e := 1 }, { p := 5, e := 1 }], plarge := 0 } s)) ∧
    (fullValue rn s = 25 → exec (.rho2 rn 1) s = .next (faccState { pairs := [{ p := 5, e := 2 }], plarge := 0 } s))

/-- Entry checks of RHO1 and RHO2 and the hazard of a prime operand (spec/44_rho_factor.md section 2,
spec/70_reset_and_hazards.md section 3). -/
def Obligations.RhoEntryChecks : Prop :=
  ∀ (rn : Reg) (a : Nat) (s : State),
    (a < 256 → EncodedAs (.rho1 rn a) (0x42 + 0x1000 * rn.val + 0x10000 * a) ∧
      EncodedAs (.rho2 rn a) (0x43 + 0x1000 * rn.val + 0x10000 * a)) ∧
    (lowWord rn s % 2 = 0 → exec (.rho1 rn a) s = .next (raiseFault .even s)) ∧
    (lowWord rn s % 2 = 1 → (lowWord rn s < 3 ∨ lowWord rn s ≤ a) →
      exec (.rho1 rn a) s = .next (raiseFault .range s)) ∧
    (lowWord rn s = 7 → exec (.rho1 rn 1) s = .next (raiseFault .range s)) ∧
    (fullValue rn s % 2 = 0 → exec (.rho2 rn a) s = .next (raiseFault .even s)) ∧
    (fullValue rn s % 2 = 1 → 2 ^ 127 ≤ fullValue rn s → exec (.rho2 rn a) s = .next (raiseFault .topBit s)) ∧
    (fullValue rn s % 2 = 1 → fullValue rn s < 2 ^ 127 → (fullValue rn s < 3 ∨ fullValue rn s ≤ a) →
      exec (.rho2 rn a) s = .next (raiseFault .range s)) ∧
    (fullValue rn s = 7 → exec (.rho2 rn 1) s = .next (raiseFault .range s))

/-- Nothing is lost by rho (spec/44_rho_factor.md section 2): the exact divisions of R167 and R168 and the inserts
of what they leave. -/
def Obligations.RhoConservesValue : Prop :=
  ∀ (rn : Reg) (a : Nat) (s : State) (acc : Facc), s.facc.Wf → s.status.busy = true → s.status.done = false →
    (exec (.rho1 rn a) s = .next (faccState acc s) → acc.value = s.facc.value * lowWord rn s ∧ acc.Wf) ∧
    (exec (.rho2 rn a) s = .next (faccState acc s) → acc.value = s.facc.value * fullValue rn s ∧ acc.Wf)

/-- The first detection after init (spec/44_rho_factor.md section 2, R166, marked derived there; the bounds are log
6). -/
def Obligations.RhoFirstDetectionExists : Prop :=
  ∀ n a : Nat, n % 2 = 1 → 3 ≤ n → n < 2 ^ 127 → a < n →
    ∃ v g, rhoDetect (widthOf n) n a (rhoInit (widthOf n) n) = some (v, g) ∧ 1 < g ∧ g ∣ n

/-- FACTOR (spec/44_rho_factor.md section 3, R172, R173) against the prime factorization. -/
def Obligations.FactorExactBelowFopSquared : Prop :=
  ∀ (rn : Reg) (s : State), s.params.legal = true → fullValue rn s < fopSquared s →
    EncodedAs (.factor rn) (0x44 + 0x1000 * rn.val) ∧
    ∃ acc, exec (.factor rn) s = .next (faccState acc s) ∧ acc.Wf ∧ acc.plarge = 0 ∧
      (∀ en ∈ acc.pairs, Nat.Prime en.p.toNat) ∧ (fullValue rn s < 2 → acc = Facc.empty) ∧
      (1 ≤ fullValue rn s → acc.value = fullValue rn s)

/-- The product property of FACTOR and the codes it can raise (spec/44_rho_factor.md section 3, R172;
spec/60_exceptions.md section 1, R211, marked derived there). -/
def Obligations.FactorValueEqualsOperand : Prop :=
  ∀ (rn : Reg) (s : State), s.params.legal = true →
    (∀ acc, s.status.busy = true → s.status.done = false → 1 ≤ fullValue rn s →
      exec (.factor rn) s = .next (faccState acc s) → acc.value = fullValue rn s ∧ acc.Wf) ∧
    (∀ t, s.status.err = false → exec (.factor rn) s = .next t → t.status.err = true →
      (t.ecause = 3 ↔ fullValue rn s % 2 = 1 ∧ 2 ^ 127 ≤ fullValue rn s ∧ NoTableFactor s (fullValue rn s)) ∧
      (t.ecause = 3 ∨ t.ecause = 4 ∨ (t.ecause = 9 ∧ s.proveSample = true)))

/-- FACTOR in proof mode (spec/44_rho_factor.md section 3, R172: each factor accepted by the oracle, proved in proof
mode). -/
def Obligations.FactorProofModeGivesPrimes : Prop :=
  ∀ (rn : Reg) (s : State) (acc : Facc), s.params.legal = true → s.proveSample = true → s.status.busy = true →
    s.status.done = false → exec (.factor rn) s = .next (faccState acc s) →
    (∀ en ∈ acc.pairs, Nat.Prime en.p.toNat) ∧ (hiWord acc.plarge ≠ 0 → Nat.Prime acc.plarge.toNat)

/-- The edge of the two-word domain (spec/70_reset_and_hazards.md section 3, R241; spec/44_rho_factor.md section 3).
-/
def Obligations.TopBitAtEdgeOfDomain : Prop :=
  ∀ (rd rn : Reg) (a : Nat) (s : State), s.params.legal = true → fullValue rn s % 2 = 1 →
    2 ^ 127 ≤ fullValue rn s → NoTableFactor s (fullValue rn s) →
    exec (.isprime rd rn) s = .next (raiseFault .topBit s) ∧ exec (.prime2 rd rn) s = .next (raiseFault .topBit s) ∧
    exec (.rho2 rn a) s = .next (raiseFault .topBit s) ∧
    exec (.factor rn) s = .next (raiseFault .topBit { s with facc := Facc.empty })

/-- R180. -/
def Obligations.FclrEmptiesAccumulator : Prop :=
  EncodedAs .fclr 0x00000050 ∧
  ∀ s : State, ∃ acc, exec .fclr s = .next (faccState acc s) ∧ acc.nf = 0 ∧ acc.plarge = 0 ∧
    (∀ i < 26, acc.primeSlot i = 0 ∧ acc.multSlot i = 0) ∧ acc = Facc.empty

/-- R183, op 0x51. The accumulator is pinned by its legal form (ascending, positive) and the multiplicity of every
value. -/
def Obligations.FinsInserts : Prop :=
  ∀ (ra : Reg) (m : Nat) (s : State), s.facc.Wf → m < 256 →
    EncodedAs (.fins ra m) (0x51 + 0x1000 * ra.val + 0x10000 * m) ∧
    (if lowWord ra s < 2 ∨ m < 1 then exec (.fins ra m) s = .next (raiseFault .range s)
     else if s.facc.multOf (loWord s.x[ra.val]) ≠ 0 ∧ 255 < s.facc.multOf (loWord s.x[ra.val]) + m then
       exec (.fins ra m) s = .next (raiseFault .accMult s)
     else if s.facc.multOf (loWord s.x[ra.val]) = 0 ∧ s.facc.nf = 26 then
       exec (.fins ra m) s = .next (raiseFault .accFull s)
     else ∃ acc, exec (.fins ra m) s = .next (faccState acc s) ∧ acc.Wf ∧ acc.plarge = s.facc.plarge ∧
       ∀ q : Word, acc.multOf q = s.facc.multOf q + if q = loWord s.x[ra.val] then m else 0)

/-- R184, op 0x52. -/
def Obligations.FinslInserts : Prop :=
  ∀ (ra : Reg) (s : State),
    EncodedAs (.finsl ra) (0x52 + 0x1000 * ra.val) ∧
    (if fullValue ra s < 2 then exec (.finsl ra) s = .next (raiseFault .range s)
     else if fullValue ra s < 2 ^ 64 then exec (.finsl ra) s = exec (.fins ra 1) s
     else if hiWord s.facc.plarge ≠ 0 then exec (.finsl ra) s = .next (raiseFault .accLarge s)
     else exec (.finsl ra) s =
       .next (faccState { pairs := s.facc.pairs, plarge := BitVec.ofNat 128 (fullValue ra s) } s))

/-- The frame of every command (spec/10_state.md sections 3 and 5, R24 and R30; spec/30_encoding.md section 3;
spec/60_exceptions.md section 1; spec/70_reset_and_hazards.md section 3, R238). destOf, writesFlags and writesFacc
list the destinations. That a command which does not return leaves everything, FACC included, as at its issue is the
model's inference (log 6, log 8). -/
def Obligations.CommandFrame : Prop :=
  ∀ (i : Instr) (s t : State), exec i s = .next t →
    (∀ r : Reg, destOf i ≠ some r → t.x[r.val] = s.x[r.val]) ∧
    (writesFlags i = false → t.flags = s.flags) ∧ (writesFacc i = false → t.facc = s.facc) ∧
    t.cmd = s.cmd ∧ t.prove = s.prove ∧ t.proveSample = s.proveSample ∧ t.status.lost = s.status.lost ∧
    SameEnvironment s t ∧
    ((t.status = { s.status with busy := false, done := true } ∧ t.ecause = s.ecause) ∨
      (∃ code : FaultCode, code ≠ .illegal ∧ t.ecause = code.code ∧ t.status = { s.status with
        busy := false, err := true, fatal := s.status.fatal || decide (code = .lucasFail) }) ∨
      (t = s ∧ alwaysEnds s.proveSample i = false))

/-- FLAGS are outputs only (spec/10_state.md section 3, R24). -/
def Obligations.NoCommandReadsFlags : Prop :=
  ∀ (i : Instr) (s t : State) (f : Flags), exec i s = .next t →
    exec i { s with flags := f } = .next { t with flags := if writesFlags i then t.flags else f }

/-- The invariant of FACC (spec/10_state.md section 5) and of the control registers (spec/10_state.md section 4),
over every host action and command. -/
def Obligations.EveryStepKeepsInv : Prop :=
  ∀ s t : State, Inv s → step s = .next t → Inv t

/-- The state after a fault and the table of codes (spec/60_exceptions.md section 1, R206, R211). Which inserts they
are is said by TdivAddsToAccumulator and RhoAndFactorRecordInOrder. -/
def Obligations.FaultingCommandsKeepRegisters : Prop :=
  ∀ (i : Instr) (s t : State), s.status.err = false → exec i s = .next t → t.status.err = true →
    t.x = s.x ∧ t.flags = s.flags ∧ t.prove = s.prove ∧ t.cmd = s.cmd ∧ t.status.done = s.status.done ∧
    t.status.busy = false ∧ 2 ≤ t.ecause.toNat ∧ t.ecause.toNat ≤ 9 ∧
    (s.params.legal = true → ∃ code ∈ faultCodes s.proveSample i, t.ecause = code.code) ∧
    (t.status.fatal = true → s.status.fatal = true ∨ t.ecause = 9) ∧
    (t.facc = s.facc ∨ (∃ rd ra, i = .tdiv rd ra) ∨ (∃ rn a, i = .rho1 rn a) ∨ (∃ rn a, i = .rho2 rn a) ∨
      ∃ rn, i = .factor rn) ∧
    (((∃ rd ra, i = .tdiv rd ra) ∨ (∃ rn a, i = .rho1 rn a) ∨ ∃ rn a, i = .rho2 rn a) →
      CompletedInserts s.facc t.facc t.ecause) ∧
    ((∃ rn, i = .factor rn) → CompletedInserts Facc.empty t.facc t.ecause)

/-- The list of commands that always end (spec/70_reset_and_hazards.md section 3, R238, marked derived there). -/
def Obligations.BoundedCommandsEnd : Prop :=
  ∀ (i : Instr) (s : State), alwaysEnds s.proveSample i = true →
    ∃ t, exec i s = .next t ∧ t.status.busy = false ∧ (t.status.done = true ∨ t.status.err = true)

/-- TD_COUNT is a parameter and not state (spec/10_state.md section 9); carrying it in State is log 1, the stop
outside the window log 9. -/
def Obligations.StepsKeepTheParameter : Prop :=
  (∀ s t : State, step s = .next t → t.params = s.params) ∧
  (∀ (s : State) (why : Refusal), step s ≠ .refused why) ∧
  (∀ s : State, step s = .fault .outsideWindow ↔
    ∃ off width rest, 0x800 ≤ off ∧ (s.host = .read off width :: rest ∨ ∃ v, s.host = .write off width v :: rest))

/-- FACC after a fault of RHO1, RHO2 and FACTOR (spec/60_exceptions.md section 1, R206; spec/44_rho_factor.md
sections 2 and 3). What one insert does and when it fails is what FinsInserts and FinslInserts say. Leaving the
state, the old FACC included, as it is on non-return is the model's inference (log 6, log 8). -/
def Obligations.RhoAndFactorRecordInOrder : Prop :=
  (∀ (rn : Reg) (a : Nat) (s : State),
    (∃ (vs : List Nat) (e : RunEnd), (∀ v ∈ vs, 2 ≤ v) ∧ vs.prod ∣ lowWord rn s ∧
      (e = .completes → vs.prod = lowWord rn s) ∧ ∀ f, exec (.rho1 rn a) { s with facc := f } =
        .next (endedState (vs.map fun v => (v, 1)) f e { s with facc := f })) ∧
    (∃ (vs : List Nat) (e : RunEnd), (∀ v ∈ vs, 2 ≤ v) ∧ vs.prod ∣ fullValue rn s ∧
      (e = .completes → vs.prod = fullValue rn s) ∧ ∀ f, exec (.rho2 rn a) { s with facc := f } =
        .next (endedState (vs.map fun v => (v, 1)) f e { s with facc := f }))) ∧
  (∀ (rn : Reg) (s : State), s.params.legal = true → 2 ≤ fullValue rn s →
    ∃ (k : Nat) (vs : List Nat) (e : RunEnd), TrialTries s.params.tdCount (fullValue rn s) k ∧ (∀ v ∈ vs, 2 ≤ v) ∧
      vs.prod ∣ trialResidue s.params.tdCount k (fullValue rn s) ∧
      (e = .completes → vs.prod = trialResidue s.params.tdCount k (fullValue rn s)) ∧
      ∀ f, exec (.factor rn) { s with facc := f } = .next (endedState
        (trialInserts s.params.tdCount k (fullValue rn s) ++ vs.map fun v => (v, 1)) Facc.empty e
        { s with facc := f })) ∧
  (∀ (rn : Reg) (s : State), s.params.legal = true → lowWord rn s = 15 →
    s.facc = { pairs := [{ p := 5, e := 255 }], plarge := 0 } →
    exec (.rho1 rn 1) s = .next (raiseFault .accMult
      { s with facc := { pairs := [{ p := 3, e := 1 }, { p := 5, e := 255 }], plarge := 0 } })) ∧
  (∀ (rn : Reg) (s : State), s.params.tdCount = 24 → s.proveSample = true → fullValue rn s = 63542 →
    exec (.factor rn) s = .next (raiseFault .lucasFail
      { s with facc := { pairs := [{ p := 2, e := 1 }], plarge := 0 } }))
end

