-- ==== Sys2Proof/Laws/State.lean ====
section
/-!
SUPPORT. What each named update of the state leaves in each field: one lemma per field per update, all true by
definition, so that no later proof unfolds a record update.
-/
namespace Sys2Proof.Machine

@[simp] theorem writeReg_x (r : Reg) (v : Dword) (s : State) : (writeReg r v s).x = s.x.set r.val v := rfl
@[simp] theorem writeReg_flags (r : Reg) (v : Dword) (s : State) : (writeReg r v s).flags = s.flags := rfl
@[simp] theorem writeReg_cmd (r : Reg) (v : Dword) (s : State) : (writeReg r v s).cmd = s.cmd := rfl
@[simp] theorem writeReg_status (r : Reg) (v : Dword) (s : State) : (writeReg r v s).status = s.status := rfl
@[simp] theorem writeReg_prove (r : Reg) (v : Dword) (s : State) : (writeReg r v s).prove = s.prove := rfl
@[simp] theorem writeReg_ecause (r : Reg) (v : Dword) (s : State) : (writeReg r v s).ecause = s.ecause := rfl
@[simp] theorem writeReg_facc (r : Reg) (v : Dword) (s : State) : (writeReg r v s).facc = s.facc := rfl
@[simp] theorem writeReg_proveSample (r : Reg) (v : Dword) (s : State) : (writeReg r v s).proveSample = s.proveSample := rfl
@[simp] theorem writeReg_params (r : Reg) (v : Dword) (s : State) : (writeReg r v s).params = s.params := rfl
@[simp] theorem writeReg_host (r : Reg) (v : Dword) (s : State) : (writeReg r v s).host = s.host := rfl
@[simp] theorem writeReg_rdata (r : Reg) (v : Dword) (s : State) : (writeReg r v s).rdata = s.rdata := rfl
@[simp] theorem writeReg_freeIdx (r : Reg) (v : Dword) (s : State) : (writeReg r v s).freeIdx = s.freeIdx := rfl

@[simp] theorem writeDword_x (r : Reg) (v : Nat) (s : State) : (writeDword r v s).x = s.x.set r.val (BitVec.ofNat 128 v) := rfl
@[simp] theorem writeDword_flags (r : Reg) (v : Nat) (s : State) : (writeDword r v s).flags = s.flags := rfl
@[simp] theorem writeDword_cmd (r : Reg) (v : Nat) (s : State) : (writeDword r v s).cmd = s.cmd := rfl
@[simp] theorem writeDword_status (r : Reg) (v : Nat) (s : State) : (writeDword r v s).status = s.status := rfl
@[simp] theorem writeDword_prove (r : Reg) (v : Nat) (s : State) : (writeDword r v s).prove = s.prove := rfl
@[simp] theorem writeDword_ecause (r : Reg) (v : Nat) (s : State) : (writeDword r v s).ecause = s.ecause := rfl
@[simp] theorem writeDword_facc (r : Reg) (v : Nat) (s : State) : (writeDword r v s).facc = s.facc := rfl
@[simp] theorem writeDword_proveSample (r : Reg) (v : Nat) (s : State) : (writeDword r v s).proveSample = s.proveSample := rfl
@[simp] theorem writeDword_params (r : Reg) (v : Nat) (s : State) : (writeDword r v s).params = s.params := rfl
@[simp] theorem writeDword_host (r : Reg) (v : Nat) (s : State) : (writeDword r v s).host = s.host := rfl
@[simp] theorem writeDword_rdata (r : Reg) (v : Nat) (s : State) : (writeDword r v s).rdata = s.rdata := rfl
@[simp] theorem writeDword_freeIdx (r : Reg) (v : Nat) (s : State) : (writeDword r v s).freeIdx = s.freeIdx := rfl

@[simp] theorem writeWord_x (r : Reg) (v : Nat) (s : State) : (writeWord r v s).x = s.x.set r.val (pair 0 (BitVec.ofNat 64 v)) := rfl
@[simp] theorem writeWord_flags (r : Reg) (v : Nat) (s : State) : (writeWord r v s).flags = s.flags := rfl
@[simp] theorem writeWord_cmd (r : Reg) (v : Nat) (s : State) : (writeWord r v s).cmd = s.cmd := rfl
@[simp] theorem writeWord_status (r : Reg) (v : Nat) (s : State) : (writeWord r v s).status = s.status := rfl
@[simp] theorem writeWord_prove (r : Reg) (v : Nat) (s : State) : (writeWord r v s).prove = s.prove := rfl
@[simp] theorem writeWord_ecause (r : Reg) (v : Nat) (s : State) : (writeWord r v s).ecause = s.ecause := rfl
@[simp] theorem writeWord_facc (r : Reg) (v : Nat) (s : State) : (writeWord r v s).facc = s.facc := rfl
@[simp] theorem writeWord_proveSample (r : Reg) (v : Nat) (s : State) : (writeWord r v s).proveSample = s.proveSample := rfl
@[simp] theorem writeWord_params (r : Reg) (v : Nat) (s : State) : (writeWord r v s).params = s.params := rfl
@[simp] theorem writeWord_host (r : Reg) (v : Nat) (s : State) : (writeWord r v s).host = s.host := rfl
@[simp] theorem writeWord_rdata (r : Reg) (v : Nat) (s : State) : (writeWord r v s).rdata = s.rdata := rfl
@[simp] theorem writeWord_freeIdx (r : Reg) (v : Nat) (s : State) : (writeWord r v s).freeIdx = s.freeIdx := rfl

@[simp] theorem writeVerdict_x (r : Reg) (b : Bool) (s : State) : (writeVerdict r b s).x = s.x.set r.val (pair 0 (if b then 1 else 0)) := rfl
@[simp] theorem writeVerdict_flags (r : Reg) (b : Bool) (s : State) : (writeVerdict r b s).flags = s.flags := rfl
@[simp] theorem writeVerdict_cmd (r : Reg) (b : Bool) (s : State) : (writeVerdict r b s).cmd = s.cmd := rfl
@[simp] theorem writeVerdict_status (r : Reg) (b : Bool) (s : State) : (writeVerdict r b s).status = s.status := rfl
@[simp] theorem writeVerdict_prove (r : Reg) (b : Bool) (s : State) : (writeVerdict r b s).prove = s.prove := rfl
@[simp] theorem writeVerdict_ecause (r : Reg) (b : Bool) (s : State) : (writeVerdict r b s).ecause = s.ecause := rfl
@[simp] theorem writeVerdict_facc (r : Reg) (b : Bool) (s : State) : (writeVerdict r b s).facc = s.facc := rfl
@[simp] theorem writeVerdict_proveSample (r : Reg) (b : Bool) (s : State) : (writeVerdict r b s).proveSample = s.proveSample := rfl
@[simp] theorem writeVerdict_params (r : Reg) (b : Bool) (s : State) : (writeVerdict r b s).params = s.params := rfl
@[simp] theorem writeVerdict_host (r : Reg) (b : Bool) (s : State) : (writeVerdict r b s).host = s.host := rfl
@[simp] theorem writeVerdict_rdata (r : Reg) (b : Bool) (s : State) : (writeVerdict r b s).rdata = s.rdata := rfl
@[simp] theorem writeVerdict_freeIdx (r : Reg) (b : Bool) (s : State) : (writeVerdict r b s).freeIdx = s.freeIdx := rfl

@[simp] theorem setFacc_x (acc : Facc) (s : State) : (setFacc acc s).x = s.x := rfl
@[simp] theorem setFacc_flags (acc : Facc) (s : State) : (setFacc acc s).flags = s.flags := rfl
@[simp] theorem setFacc_cmd (acc : Facc) (s : State) : (setFacc acc s).cmd = s.cmd := rfl
@[simp] theorem setFacc_status (acc : Facc) (s : State) : (setFacc acc s).status = s.status := rfl
@[simp] theorem setFacc_prove (acc : Facc) (s : State) : (setFacc acc s).prove = s.prove := rfl
@[simp] theorem setFacc_ecause (acc : Facc) (s : State) : (setFacc acc s).ecause = s.ecause := rfl
@[simp] theorem setFacc_facc (acc : Facc) (s : State) : (setFacc acc s).facc = acc := rfl
@[simp] theorem setFacc_proveSample (acc : Facc) (s : State) : (setFacc acc s).proveSample = s.proveSample := rfl
@[simp] theorem setFacc_params (acc : Facc) (s : State) : (setFacc acc s).params = s.params := rfl
@[simp] theorem setFacc_host (acc : Facc) (s : State) : (setFacc acc s).host = s.host := rfl
@[simp] theorem setFacc_rdata (acc : Facc) (s : State) : (setFacc acc s).rdata = s.rdata := rfl
@[simp] theorem setFacc_freeIdx (acc : Facc) (s : State) : (setFacc acc s).freeIdx = s.freeIdx := rfl

@[simp] theorem setFlags_x (f : Flags) (s : State) : (setFlags f s).x = s.x := rfl
@[simp] theorem setFlags_flags (f : Flags) (s : State) : (setFlags f s).flags = f := rfl
@[simp] theorem setFlags_cmd (f : Flags) (s : State) : (setFlags f s).cmd = s.cmd := rfl
@[simp] theorem setFlags_status (f : Flags) (s : State) : (setFlags f s).status = s.status := rfl
@[simp] theorem setFlags_prove (f : Flags) (s : State) : (setFlags f s).prove = s.prove := rfl
@[simp] theorem setFlags_ecause (f : Flags) (s : State) : (setFlags f s).ecause = s.ecause := rfl
@[simp] theorem setFlags_facc (f : Flags) (s : State) : (setFlags f s).facc = s.facc := rfl
@[simp] theorem setFlags_proveSample (f : Flags) (s : State) : (setFlags f s).proveSample = s.proveSample := rfl
@[simp] theorem setFlags_params (f : Flags) (s : State) : (setFlags f s).params = s.params := rfl
@[simp] theorem setFlags_host (f : Flags) (s : State) : (setFlags f s).host = s.host := rfl
@[simp] theorem setFlags_rdata (f : Flags) (s : State) : (setFlags f s).rdata = s.rdata := rfl
@[simp] theorem setFlags_freeIdx (f : Flags) (s : State) : (setFlags f s).freeIdx = s.freeIdx := rfl

@[simp] theorem issue_x (v : Word) (s : State) : (issue v s).x = s.x := rfl
@[simp] theorem issue_flags (v : Word) (s : State) : (issue v s).flags = s.flags := rfl
@[simp] theorem issue_cmd (v : Word) (s : State) : (issue v s).cmd = v := rfl
@[simp] theorem issue_status (v : Word) (s : State) : (issue v s).status = { s.status with busy := true, done := false } := rfl
@[simp] theorem issue_prove (v : Word) (s : State) : (issue v s).prove = s.prove := rfl
@[simp] theorem issue_ecause (v : Word) (s : State) : (issue v s).ecause = s.ecause := rfl
@[simp] theorem issue_facc (v : Word) (s : State) : (issue v s).facc = s.facc := rfl
@[simp] theorem issue_proveSample (v : Word) (s : State) : (issue v s).proveSample = s.prove := rfl
@[simp] theorem issue_params (v : Word) (s : State) : (issue v s).params = s.params := rfl
@[simp] theorem issue_host (v : Word) (s : State) : (issue v s).host = s.host := rfl
@[simp] theorem issue_rdata (v : Word) (s : State) : (issue v s).rdata = s.rdata := rfl
@[simp] theorem issue_freeIdx (v : Word) (s : State) : (issue v s).freeIdx = s.freeIdx := rfl

@[simp] theorem complete_x (s : State) : (complete s).x = s.x := rfl
@[simp] theorem complete_flags (s : State) : (complete s).flags = s.flags := rfl
@[simp] theorem complete_cmd (s : State) : (complete s).cmd = s.cmd := rfl
@[simp] theorem complete_status (s : State) : (complete s).status = { s.status with busy := false, done := true } := rfl
@[simp] theorem complete_prove (s : State) : (complete s).prove = s.prove := rfl
@[simp] theorem complete_ecause (s : State) : (complete s).ecause = s.ecause := rfl
@[simp] theorem complete_facc (s : State) : (complete s).facc = s.facc := rfl
@[simp] theorem complete_proveSample (s : State) : (complete s).proveSample = s.proveSample := rfl
@[simp] theorem complete_params (s : State) : (complete s).params = s.params := rfl
@[simp] theorem complete_host (s : State) : (complete s).host = s.host := rfl
@[simp] theorem complete_rdata (s : State) : (complete s).rdata = s.rdata := rfl
@[simp] theorem complete_freeIdx (s : State) : (complete s).freeIdx = s.freeIdx := rfl

@[simp] theorem raiseFault_x (code : FaultCode) (s : State) : (raiseFault code s).x = s.x := rfl
@[simp] theorem raiseFault_flags (code : FaultCode) (s : State) : (raiseFault code s).flags = s.flags := rfl
@[simp] theorem raiseFault_cmd (code : FaultCode) (s : State) : (raiseFault code s).cmd = s.cmd := rfl
@[simp] theorem raiseFault_status (code : FaultCode) (s : State) : (raiseFault code s).status = { s.status with busy := false, err := true, fatal := s.status.fatal || decide (code = .lucasFail) } := rfl
@[simp] theorem raiseFault_prove (code : FaultCode) (s : State) : (raiseFault code s).prove = s.prove := rfl
@[simp] theorem raiseFault_ecause (code : FaultCode) (s : State) : (raiseFault code s).ecause = code.code := rfl
@[simp] theorem raiseFault_facc (code : FaultCode) (s : State) : (raiseFault code s).facc = s.facc := rfl
@[simp] theorem raiseFault_proveSample (code : FaultCode) (s : State) : (raiseFault code s).proveSample = s.proveSample := rfl
@[simp] theorem raiseFault_params (code : FaultCode) (s : State) : (raiseFault code s).params = s.params := rfl
@[simp] theorem raiseFault_host (code : FaultCode) (s : State) : (raiseFault code s).host = s.host := rfl
@[simp] theorem raiseFault_rdata (code : FaultCode) (s : State) : (raiseFault code s).rdata = s.rdata := rfl
@[simp] theorem raiseFault_freeIdx (code : FaultCode) (s : State) : (raiseFault code s).freeIdx = s.freeIdx := rfl

@[simp] theorem acknowledge_x (v : Word) (s : State) : (acknowledge v s).x = s.x := rfl
@[simp] theorem acknowledge_flags (v : Word) (s : State) : (acknowledge v s).flags = s.flags := rfl
@[simp] theorem acknowledge_cmd (v : Word) (s : State) : (acknowledge v s).cmd = s.cmd := rfl
@[simp] theorem acknowledge_status (v : Word) (s : State) : (acknowledge v s).status = { s.status with done := s.status.done && !v.getLsbD 1, err := s.status.err && !(v.getLsbD 2 && !s.status.fatal), lost := s.status.lost && !v.getLsbD 4 } := rfl
@[simp] theorem acknowledge_prove (v : Word) (s : State) : (acknowledge v s).prove = s.prove := rfl
@[simp] theorem acknowledge_ecause (v : Word) (s : State) : (acknowledge v s).ecause = if v.getLsbD 2 && !s.status.fatal then 0 else s.ecause := rfl
@[simp] theorem acknowledge_facc (v : Word) (s : State) : (acknowledge v s).facc = s.facc := rfl
@[simp] theorem acknowledge_proveSample (v : Word) (s : State) : (acknowledge v s).proveSample = s.proveSample := rfl
@[simp] theorem acknowledge_params (v : Word) (s : State) : (acknowledge v s).params = s.params := rfl
@[simp] theorem acknowledge_host (v : Word) (s : State) : (acknowledge v s).host = s.host := rfl
@[simp] theorem acknowledge_rdata (v : Word) (s : State) : (acknowledge v s).rdata = s.rdata := rfl
@[simp] theorem acknowledge_freeIdx (v : Word) (s : State) : (acknowledge v s).freeIdx = s.freeIdx := rfl

@[simp] theorem dropWrite_x (s : State) : (dropWrite s).x = s.x := rfl
@[simp] theorem dropWrite_flags (s : State) : (dropWrite s).flags = s.flags := rfl
@[simp] theorem dropWrite_cmd (s : State) : (dropWrite s).cmd = s.cmd := rfl
@[simp] theorem dropWrite_status (s : State) : (dropWrite s).status = { s.status with lost := true } := rfl
@[simp] theorem dropWrite_prove (s : State) : (dropWrite s).prove = s.prove := rfl
@[simp] theorem dropWrite_ecause (s : State) : (dropWrite s).ecause = s.ecause := rfl
@[simp] theorem dropWrite_facc (s : State) : (dropWrite s).facc = s.facc := rfl
@[simp] theorem dropWrite_proveSample (s : State) : (dropWrite s).proveSample = s.proveSample := rfl
@[simp] theorem dropWrite_params (s : State) : (dropWrite s).params = s.params := rfl
@[simp] theorem dropWrite_host (s : State) : (dropWrite s).host = s.host := rfl
@[simp] theorem dropWrite_rdata (s : State) : (dropWrite s).rdata = s.rdata := rfl
@[simp] theorem dropWrite_freeIdx (s : State) : (dropWrite s).freeIdx = s.freeIdx := rfl

@[simp] theorem resetEvent_x (s : State) : (resetEvent s).x = State.reset.x := rfl
@[simp] theorem resetEvent_flags (s : State) : (resetEvent s).flags = State.reset.flags := rfl
@[simp] theorem resetEvent_cmd (s : State) : (resetEvent s).cmd = State.reset.cmd := rfl
@[simp] theorem resetEvent_status (s : State) : (resetEvent s).status = State.reset.status := rfl
@[simp] theorem resetEvent_prove (s : State) : (resetEvent s).prove = State.reset.prove := rfl
@[simp] theorem resetEvent_ecause (s : State) : (resetEvent s).ecause = State.reset.ecause := rfl
@[simp] theorem resetEvent_facc (s : State) : (resetEvent s).facc = State.reset.facc := rfl
@[simp] theorem resetEvent_proveSample (s : State) : (resetEvent s).proveSample = State.reset.proveSample := rfl
@[simp] theorem resetEvent_params (s : State) : (resetEvent s).params = s.params := rfl
@[simp] theorem resetEvent_host (s : State) : (resetEvent s).host = s.host := rfl
@[simp] theorem resetEvent_rdata (s : State) : (resetEvent s).rdata = s.rdata := rfl
@[simp] theorem resetEvent_freeIdx (s : State) : (resetEvent s).freeIdx = s.freeIdx := rfl

end Sys2Proof.Machine
end

