-- ==== Sys2Proof/Laws/Ops.lean ====
section
/-!
SUPPORT. What each shared operation can do, said once: registers, checks, the ends of a command, and the two inserts of
the accumulator, which keep its legal form.
-/
namespace Sys2Proof.Machine

/-! ### Registers -/

/-- A register that was written reads as written. -/
@[simp] theorem readReg_writeReg_same (r : Reg) (v : Dword) (s : State) : readReg r (writeReg r v s) = v := by
  simp [readReg]

/-- Every other register reads as before. -/
theorem readReg_writeReg_ne {r r' : Reg} (h : r' ≠ r) (v : Dword) (s : State) :
    readReg r' (writeReg r v s) = readReg r' s := by
  have hne : r.val ≠ r'.val := fun e => h (Fin.ext e.symm)
  simp [readReg, hne]

/-! ### Checks and the ends of a command -/

/-- No check fails exactly when every check holds. -/
theorem firstFailed_eq_none (checks : List (Bool × FaultCode)) :
    firstFailed checks = none ↔ ∀ c ∈ checks, c.1 = true := by
  induction checks with
  | nil => simp [firstFailed]
  | cons c rest ih =>
    obtain ⟨ok, code⟩ := c
    cases ok <;> simp [firstFailed, ih]

/-- A guarded command either takes the fault of its first failing check, having written nothing, or goes on. -/
theorem guarded_cases (checks : List (Bool × FaultCode)) (s : State) (go : Unit → Result) :
    (∃ code, firstFailed checks = some code ∧ guarded checks s go = .next (raiseFault code s)) ∨
      (firstFailed checks = none ∧ guarded checks s go = go ()) := by
  unfold guarded
  cases h : firstFailed checks with
  | some code => exact .inl ⟨code, rfl, rfl⟩
  | none => exact .inr ⟨rfl, rfl⟩

/-- A guarded command whose checks all hold goes on. -/
theorem guarded_pass {checks : List (Bool × FaultCode)} (h : firstFailed checks = none) (s : State)
    (go : Unit → Result) : guarded checks s go = go () := by
  simp [guarded, h]

/-- A guarded command with a failing check takes the fault of the first one. -/
theorem guarded_fail {checks : List (Bool × FaultCode)} {code : FaultCode} (h : firstFailed checks = some code)
    (s : State) (go : Unit → Result) : guarded checks s go = .next (raiseFault code s) := by
  simp [guarded, h, trap]

/-- A command that ends with one insert completes with its result or faults with `FACC` unchanged. -/
theorem finishInsert_cases (r : Except FaultCode Facc) (s : State) :
    (∃ acc, r = .ok acc ∧ finishInsert r s = .next (complete (setFacc acc s))) ∨
      (∃ code, r = .error code ∧ finishInsert r s = .next (raiseFault code s)) := by
  cases r with
  | ok acc => exact .inl ⟨acc, rfl, rfl⟩
  | error code => exact .inr ⟨code, rfl, rfl⟩

/-- The three ends of a compound command on `FACC`. -/
theorem finishRun_cases {α : Type} (r : Run α) (s : State) :
    (∃ v acc, r = .done v acc ∧ finishRun r s = .next (complete (setFacc acc s))) ∨
      (∃ code acc, r = .fault code acc ∧ finishRun r s = .next (raiseFault code (setFacc acc s))) ∨
      (r = .hang ∧ finishRun r s = .next s) := by
  cases r with
  | done v acc => exact .inl ⟨v, acc, rfl, rfl⟩
  | fault code acc => exact .inr (.inl ⟨code, acc, rfl, rfl⟩)
  | hang => exact .inr (.inr ⟨rfl, rfl⟩)

/-- The three ends of an oracle command; none touches `FACC`. -/
theorem finishVerdict_cases (rd : Reg) (r : Run Bool) (s : State) :
    (∃ v acc, r = .done v acc ∧ finishVerdict rd r s = .next (complete (writeVerdict rd v s))) ∨
      (∃ code acc, r = .fault code acc ∧ finishVerdict rd r s = .next (raiseFault code s)) ∨
      (r = .hang ∧ finishVerdict rd r s = .next s) := by
  cases r with
  | done v acc => exact .inl ⟨v, acc, rfl, rfl⟩
  | fault code acc => exact .inr (.inl ⟨code, acc, rfl, rfl⟩)
  | hang => exact .inr (.inr ⟨rfl, rfl⟩)

/-- What a sequence of two parts returned, if it returned. -/
theorem Run.andThen_eq_done {α β : Type} {r : Run α} {k : α → Facc → Run β} {v : β} {acc : Facc}
    (h : r.andThen k = .done v acc) : ∃ u acc', r = .done u acc' ∧ k u acc' = .done v acc := by
  cases r with
  | done u acc' => exact ⟨u, acc', rfl, h⟩
  | fault code acc' => cases h
  | hang => cases h

/-- Where the fault of a sequence of two parts arose. -/
theorem Run.andThen_eq_fault {α β : Type} {r : Run α} {k : α → Facc → Run β} {code : FaultCode} {acc : Facc}
    (h : r.andThen k = .fault code acc) :
    r = .fault code acc ∨ ∃ u acc', r = .done u acc' ∧ k u acc' = .fault code acc := by
  cases r with
  | done u acc' => exact .inr ⟨u, acc', rfl, h⟩
  | fault code' acc' => exact .inl (by simpa [Run.andThen] using h)
  | hang => cases h

/-! ### The accumulator -/

/-- The empty accumulator has the legal form. -/
theorem Facc.empty_wf : Facc.empty.Wf :=
  { capacity := by decide
    ascending := List.Pairwise.nil
    positive := by intro en h; cases h
    emptyLarge := fun _ => rfl }

/-- The three ways `insertPrime` answers. -/
theorem insertPrime_cases (p : Word) (m : Nat) (f : Facc) :
    (f.pairs.any (fun en => en.p == p) = true ∧ f.multOf p + m ≤ Config.multMax ∧
        insertPrime p m f = .ok { f with pairs := f.pairs.map (bumpEntry p m) }) ∨
      (f.pairs.any (fun en => en.p == p) = false ∧ f.nf < Config.nfactMax ∧
        insertPrime p m f = .ok { f with
          pairs := f.pairs.take (f.pairs.countP (fun en => decide (en.p.toNat < p.toNat))) ++
            { p := p, e := BitVec.ofNat 8 m } ::
              f.pairs.drop (f.pairs.countP (fun en => decide (en.p.toNat < p.toNat))) }) ∨
      (∃ code, insertPrime p m f = .error code) := by
  unfold insertPrime
  cases f.pairs.any (fun en => en.p == p) with
  | true =>
    by_cases hm : f.multOf p + m ≤ Config.multMax
    · exact .inl ⟨rfl, hm, by simp [hm]⟩
    · exact .inr (.inr ⟨.accMult, by simp [hm]⟩)
  | false =>
    by_cases hn : f.nf < Config.nfactMax
    · exact .inr (.inl ⟨rfl, hn, by simp [hn]⟩)
    · exact .inr (.inr ⟨.accFull, by simp [hn]⟩)

/-! ### Runs of inserts -/

/-- Nothing to insert leaves the accumulator. -/
@[simp] theorem recordAll_nil (f : Facc) : recordAll [] f = (f, none) := rfl

/-- Inserting one list after another: the second runs where the first completed. -/
theorem recordAll_append (l l' : List (Nat × Nat)) (f : Facc) :
    recordAll (l ++ l') f = match recordAll l f with
      | (acc, some code) => (acc, some code)
      | (acc, none) => recordAll l' acc := by
  induction l generalizing f with
  | nil => rfl
  | cons vm rest ih =>
    simp only [List.cons_append, recordAll]
    split
    · exact ih _
    · rfl

end Sys2Proof.Machine
end

