-- ==== Sys2Proof/Laws/Facc.lean ====
section
/-!
SUPPORT. The two inserts keep the legal form of the accumulator (spec/10_state.md R30, R31 a, b).
-/
namespace Sys2Proof.Machine

/-- Adding to a multiplicity changes no prime. -/
@[simp] theorem bumpEntry_p (p : Word) (m : Nat) (en : Entry) : (bumpEntry p m en).p = en.p := by
  unfold bumpEntry
  split <;> rfl

/-- In an ascending table the multiplicity found for `p` is that of the one entry of `p`. -/
theorem multOf_eq_of_mem {f : Facc} (hf : f.Ascending) {en : Entry} (hen : en ∈ f.pairs) :
    f.multOf en.p = en.e.toNat := by
  have key : ∀ l : List Entry, l.Pairwise (fun a b => a.p.toNat < b.p.toNat) → en ∈ l →
      l.find? (fun x => x.p == en.p) = some en := by
    intro l
    induction l with
    | nil => intro _ h; cases h
    | cons a l ih =>
      intro hl hmem
      rw [List.pairwise_cons] at hl
      rcases List.mem_cons.mp hmem with rfl | hmem
      · simp
      · have hlt := hl.1 en hmem
        have hne : ¬ a.p = en.p := fun h => by rw [h] at hlt; exact lt_irrefl _ hlt
        simpa [hne] using ih hl.2 hmem
  simp [Facc.multOf, key f.pairs hf hen]

/-- In an ascending list the entries below `p` are exactly the first `countP` of them. -/
theorem ascending_split (p : Word) (l : List Entry) (h : l.Pairwise (fun a b => a.p.toNat < b.p.toNat)) :
    (∀ a ∈ l.take (l.countP (fun en => decide (en.p.toNat < p.toNat))), a.p.toNat < p.toNat) ∧
      ∀ a ∈ l.drop (l.countP (fun en => decide (en.p.toNat < p.toNat))), p.toNat ≤ a.p.toNat := by
  induction l with
  | nil => simp
  | cons a l ih =>
    rw [List.pairwise_cons] at h
    by_cases ha : a.p.toNat < p.toNat
    · obtain ⟨h1, h2⟩ := ih h.2
      simp only [List.countP_cons, ha, decide_true, if_true, List.take_succ_cons, List.drop_succ_cons,
        List.forall_mem_cons]
      exact ⟨⟨trivial, h1⟩, h2⟩
    · have hz : l.countP (fun en => decide (en.p.toNat < p.toNat)) = 0 := by
        rw [List.countP_eq_zero]
        intro b hb
        have := h.1 b hb
        simp only [decide_eq_true_eq]
        omega
      simp only [List.countP_cons, hz, ha, decide_false]
      refine ⟨by simp, ?_⟩
      intro b hb
      rcases List.mem_cons.mp (by simpa using hb) with rfl | hb
      · omega
      · have := h.1 b hb
        omega

/-- `insertPrime` keeps the legal form, for a multiplicity in its domain `1 <= m <= 255`
(spec/45_accumulator.md R181). -/
theorem insertPrime_keeps_wf {p : Word} {m : Nat} {f f' : Facc} (hf : f.Wf) (h1 : 1 ≤ m) (h2 : m ≤ 255)
    (h : insertPrime p m f = .ok f') : f'.Wf := by
  rcases insertPrime_cases p m f with ⟨_, hm, he⟩ | ⟨hab, hn, he⟩ | ⟨code, he⟩
  · rw [he] at h
    cases h
    refine ⟨by simpa [Facc.nf] using hf.capacity, ?_, ?_, hf.emptyLarge⟩
    · have := hf.ascending
      simp only [Facc.Ascending, List.pairwise_map, bumpEntry_p]
      exact this
    · intro en hen
      obtain ⟨b, hb, rfl⟩ := List.mem_map.mp hen
      have hb0 := hf.positive b hb
      unfold bumpEntry
      split
      · rename_i hbp
        have hmult : f.multOf p = b.e.toNat := by rw [← hbp]; exact multOf_eq_of_mem hf.ascending hb
        rw [hmult] at hm
        simp only [Config.multMax] at hm
        intro hz
        have := congrArg BitVec.toNat hz
        simp at this
        omega
      · exact hb0
  · rw [he] at h
    cases h
    obtain ⟨hlo, hhi⟩ := ascending_split p f.pairs hf.ascending
    refine ⟨?_, ?_, ?_, hf.emptyLarge⟩
    · have hle := List.countP_le_length (l := f.pairs) (p := fun en => decide (en.p.toNat < p.toNat))
      simp only [Facc.nf, Config.nfactMax] at hn
      simp only [Facc.nf, Config.nfactMax, List.length_append, List.length_take, List.length_cons,
        List.length_drop]
      omega
    · have hhi' : ∀ a ∈ f.pairs.drop (f.pairs.countP (fun en => decide (en.p.toNat < p.toNat))),
          p.toNat < a.p.toNat := by
        intro a ha
        refine lt_of_le_of_ne (hhi a ha) ?_
        intro hEq
        have hap : a.p = p := BitVec.eq_of_toNat_eq hEq.symm
        have := List.any_eq_false.mp hab a (List.mem_of_mem_drop ha)
        simp [hap] at this
      simp only [Facc.Ascending]
      rw [List.pairwise_append, List.pairwise_cons]
      refine ⟨hf.ascending.sublist (List.take_sublist _ _),
        ⟨hhi', hf.ascending.sublist (List.drop_sublist _ _)⟩, ?_⟩
      intro a ha b hb
      rcases List.mem_cons.mp hb with rfl | hb
      · exact hlo a ha
      · exact lt_trans (hlo a ha) (hhi' b hb)
    · intro en hen
      rcases List.mem_append.mp hen with hen | hen
      · exact hf.positive en (List.mem_of_mem_take hen)
      · rcases List.mem_cons.mp hen with rfl | hen
        · intro hz
          have := congrArg BitVec.toNat hz
          simp at this
          omega
        · exact hf.positive en (List.mem_of_mem_drop hen)
  · rw [he] at h
    cases h

/-- `insertLarge` keeps the legal form (spec/45_accumulator.md R182). -/
theorem insertLarge_keeps_wf {v : Dword} {f f' : Facc} (hf : f.Wf) (h : insertLarge v f = .ok f') : f'.Wf := by
  unfold insertLarge at h
  split at h
  · exact insertPrime_keeps_wf hf (by norm_num) (by norm_num) h
  · split at h
    · rename_i hv _
      cases h
      exact ⟨hf.capacity, hf.ascending, hf.positive, fun hz => absurd hz hv⟩
    · cases h

end Sys2Proof.Machine
end

