-- ==== Sys2Proof/Laws/PerInstr.lean ====
section
/-!
SUPPORT. Statements made per instruction: the command word of a well-formed instruction has 32 bits
(spec/30_encoding.md R70, R71).
-/
namespace Sys2Proof.Laws.EncodeFits

/-- A well-formed instruction's word fits the 32 bits of a command word. -/
def Statement (i : Instr) : Prop := WellFormed i → encodeWord i < 0x100000000

/-- Six slots and an opcode byte make a 32-bit word. -/
theorem packSlots_lt {op s1 s2 s3 s4 s5 s6 : Nat} (h0 : op < 0x100) (h1 : s1 < 16) (h2 : s2 < 16) (h3 : s3 < 16)
    (h4 : s4 < 16) (h5 : s5 < 16) (h6 : s6 < 16) : packSlots op s1 s2 s3 s4 s5 s6 < 0x100000000 := by
  unfold packSlots
  omega

/-- An opcode byte, two slots and an immediate make a 32-bit word. -/
theorem packImm_lt {op s1 s2 imm : Nat} (h0 : op < 0x100) (h1 : s1 < 16) (h2 : s2 < 16) (h3 : imm < 0x100) :
    packImm op s1 s2 imm < 0x100000000 := by
  unfold packImm
  omega

theorem add2 (rd ra rb : Reg) : Statement (.add2 rd ra rb) := by
  intro _
  exact packSlots_lt (by norm_num) (by omega) (by omega) (by omega) (by omega) (by omega) (by omega)

theorem sub2 (rd ra rb : Reg) : Statement (.sub2 rd ra rb) := by
  intro _
  exact packSlots_lt (by norm_num) (by omega) (by omega) (by omega) (by omega) (by omega) (by omega)

theorem cmp2 (ra rb : Reg) : Statement (.cmp2 ra rb) := by
  intro _
  exact packSlots_lt (by norm_num) (by omega) (by omega) (by omega) (by omega) (by omega) (by omega)

theorem shl2 (rd ra : Reg) (sh : Nat) : Statement (.shl2 rd ra sh) := by
  intro h
  have h' : sh < 256 := by have := of_decide_eq_true h; omega
  exact packImm_lt (by norm_num) (by omega) (by omega) h'

theorem shr2 (rd ra : Reg) (sh : Nat) : Statement (.shr2 rd ra sh) := by
  intro h
  have h' : sh < 256 := by have := of_decide_eq_true h; omega
  exact packImm_lt (by norm_num) (by omega) (by omega) h'

theorem minv (rd ra : Reg) : Statement (.minv rd ra) := by
  intro _
  exact packSlots_lt (by norm_num) (by omega) (by omega) (by omega) (by omega) (by omega) (by omega)

theorem tomont1 (rd ra rn : Reg) : Statement (.tomont1 rd ra rn) := by
  intro _
  exact packSlots_lt (by norm_num) (by omega) (by omega) (by omega) (by omega) (by omega) (by omega)

theorem tomont2 (rd ra rn : Reg) : Statement (.tomont2 rd ra rn) := by
  intro _
  exact packSlots_lt (by norm_num) (by omega) (by omega) (by omega) (by omega) (by omega) (by omega)

theorem mulredc1 (rd ra rb rn ri : Reg) : Statement (.mulredc1 rd ra rb rn ri) := by
  intro _
  exact packSlots_lt (by norm_num) (by omega) (by omega) (by omega) (by omega) (by omega) (by omega)

theorem mulredc2 (rd ra rb rn ri : Reg) : Statement (.mulredc2 rd ra rb rn ri) := by
  intro _
  exact packSlots_lt (by norm_num) (by omega) (by omega) (by omega) (by omega) (by omega) (by omega)

theorem powredc1 (rd ra re rn ri ro : Reg) : Statement (.powredc1 rd ra re rn ri ro) := by
  intro _
  exact packSlots_lt (by norm_num) (by omega) (by omega) (by omega) (by omega) (by omega) (by omega)

theorem powredc2 (rd ra re rn ri ro : Reg) : Statement (.powredc2 rd ra re rn ri ro) := by
  intro _
  exact packSlots_lt (by norm_num) (by omega) (by omega) (by omega) (by omega) (by omega) (by omega)

theorem tdiv (rd ra : Reg) : Statement (.tdiv rd ra) := by
  intro _
  exact packSlots_lt (by norm_num) (by omega) (by omega) (by omega) (by omega) (by omega) (by omega)

theorem mr1 (rd rn rb : Reg) : Statement (.mr1 rd rn rb) := by
  intro _
  exact packSlots_lt (by norm_num) (by omega) (by omega) (by omega) (by omega) (by omega) (by omega)

theorem mr2 (rd rn rb : Reg) : Statement (.mr2 rd rn rb) := by
  intro _
  exact packSlots_lt (by norm_num) (by omega) (by omega) (by omega) (by omega) (by omega) (by omega)

theorem prime1 (rd rn : Reg) : Statement (.prime1 rd rn) := by
  intro _
  exact packSlots_lt (by norm_num) (by omega) (by omega) (by omega) (by omega) (by omega) (by omega)

theorem prime2 (rd rn : Reg) : Statement (.prime2 rd rn) := by
  intro _
  exact packSlots_lt (by norm_num) (by omega) (by omega) (by omega) (by omega) (by omega) (by omega)

theorem isprime (rd rn : Reg) : Statement (.isprime rd rn) := by
  intro _
  exact packSlots_lt (by norm_num) (by omega) (by omega) (by omega) (by omega) (by omega) (by omega)

theorem gcd1 (rd ra rb : Reg) : Statement (.gcd1 rd ra rb) := by
  intro _
  exact packSlots_lt (by norm_num) (by omega) (by omega) (by omega) (by omega) (by omega) (by omega)

theorem gcd2 (rd ra rb : Reg) : Statement (.gcd2 rd ra rb) := by
  intro _
  exact packSlots_lt (by norm_num) (by omega) (by omega) (by omega) (by omega) (by omega) (by omega)

theorem rho1 (rn : Reg) (a : Nat) : Statement (.rho1 rn a) := by
  intro h
  have h' : a < 256 := by have := of_decide_eq_true h; omega
  exact packImm_lt (by norm_num) (by omega) (by omega) h'

theorem rho2 (rn : Reg) (a : Nat) : Statement (.rho2 rn a) := by
  intro h
  have h' : a < 256 := by have := of_decide_eq_true h; omega
  exact packImm_lt (by norm_num) (by omega) (by omega) h'

theorem factor (rn : Reg) : Statement (.factor rn) := by
  intro _
  exact packSlots_lt (by norm_num) (by omega) (by omega) (by omega) (by omega) (by omega) (by omega)

theorem fclr : Statement .fclr := by
  intro _
  exact packSlots_lt (by norm_num) (by omega) (by omega) (by omega) (by omega) (by omega) (by omega)

theorem fins (ra : Reg) (m : Nat) : Statement (.fins ra m) := by
  intro h
  have h' : m < 256 := by have := of_decide_eq_true h; omega
  exact packImm_lt (by norm_num) (by omega) (by omega) h'

theorem finsl (ra : Reg) : Statement (.finsl ra) := by
  intro _
  exact packSlots_lt (by norm_num) (by omega) (by omega) (by omega) (by omega) (by omega) (by omega)

end Sys2Proof.Laws.EncodeFits
end

