-- ==== Sys2Proof/Laws/Window.lean ====
section
/-!
SUPPORT. What the register window answers, said once: which slot an offset names, and what a host access does to a
state.
-/
namespace Sys2Proof.Machine
/-- An offset without a name is an unmapped slot. -/
theorem slotAt_unmapped {off : Nat} (h : ¬MappedOffset off) : slotAt off = .unmapped := by
  simp only [MappedOffset, not_or, not_and, not_le, not_lt] at h
  obtain ⟨h1, h2, h3, h4⟩ := h
  have e0 : off ≠ 0 := by omega
  have e1 : off ≠ 8 := by omega
  have e2 : off ≠ 16 := by omega
  have e3 : off ≠ 24 := by omega
  have e4 : off ≠ 32 := by omega
  have e5 : ¬(0x100 ≤ off ∧ off < 0x200) := by omega
  have e6 : off ≠ 0x200 := by omega
  have e7 : off ≠ 0x208 := by omega
  have e8 : off ≠ 0x210 := by omega
  have e9 : ¬(0x400 ≤ off ∧ off < 0x4D0) := by omega
  have e10 : ¬(0x600 ≤ off ∧ off < 0x6D0) := by omega
  unfold slotAt
  rw [if_neg e0, if_neg e1, if_neg e2, if_neg e3, if_neg e4, if_neg e5, if_neg e6, if_neg e7, if_neg e8, if_neg e9,
    if_neg e10]

/-- An aligned offset with a name is not an unmapped slot. -/
theorem slotAt_ne_unmapped {off : Nat} (h8 : off % 8 = 0) (h : MappedOffset off) : slotAt off ≠ .unmapped := by
  intro e
  unfold slotAt at e
  by_cases e0 : off = 0
  · rw [if_pos e0] at e; cases e
  rw [if_neg e0] at e
  by_cases e1 : off = 8
  · rw [if_pos e1] at e; cases e
  rw [if_neg e1] at e
  by_cases e2 : off = 16
  · rw [if_pos e2] at e; cases e
  rw [if_neg e2] at e
  by_cases e3 : off = 24
  · rw [if_pos e3] at e; cases e
  rw [if_neg e3] at e
  by_cases e4 : off = 32
  · rw [if_pos e4] at e; cases e
  rw [if_neg e4] at e
  by_cases e5 : 0x100 ≤ off ∧ off < 0x200
  · rw [if_pos e5] at e
    by_cases e : off % 16 = 0 <;> simp_all
  rw [if_neg e5] at e
  by_cases e6 : off = 0x200
  · rw [if_pos e6] at e; cases e
  rw [if_neg e6] at e
  by_cases e7 : off = 0x208
  · rw [if_pos e7] at e; cases e
  rw [if_neg e7] at e
  by_cases e8 : off = 0x210
  · rw [if_pos e8] at e; cases e
  rw [if_neg e8] at e
  by_cases e9 : 0x400 ≤ off ∧ off < 0x4D0
  · rw [if_pos e9] at e; cases e
  rw [if_neg e9] at e
  by_cases e10 : 0x600 ≤ off ∧ off < 0x6D0
  · rw [if_pos e10] at e; cases e
  simp only [MappedOffset] at h
  omega

/-- The offset of `x[i].lo`. -/
theorem slotAt_regLo (i : Reg) : slotAt (0x100 + 16 * i.val) = .regLo i := by
  revert i
  decide

/-- The offset of `x[i].hi`. -/
theorem slotAt_regHi (i : Reg) : slotAt (0x108 + 16 * i.val) = .regHi i := by
  revert i
  decide

/-- The offset of `FACC.P[i]`. -/
theorem slotAt_primeSlot {i : Nat} (h : i < 26) : slotAt (0x400 + 8 * i) = .primeSlot i := by
  revert i
  decide

/-- The offset of `FACC.E[i]`. -/
theorem slotAt_multSlot {i : Nat} (h : i < 26) : slotAt (0x600 + 8 * i) = .multSlot i := by
  revert i
  decide

/-- A write to a read-only slot is dropped. -/
theorem writeSlot_readOnly {off : Nat} (h8 : off % 8 = 0) (h : MappedOffset off)
    (hro : off = 0x018 ∨ off = 0x020 ∨ 0x200 ≤ off) (v : Word) (s : State) :
    writeSlot (slotAt off) v s = dropWrite s := by
  rcases hro with rfl | rfl | hge
  · rfl
  · rfl
  · unfold slotAt
    rw [if_neg (by omega), if_neg (by omega), if_neg (by omega), if_neg (by omega), if_neg (by omega),
      if_neg (by omega)]
    by_cases e6 : off = 0x200
    · rw [if_pos e6]; rfl
    rw [if_neg e6]
    by_cases e7 : off = 0x208
    · rw [if_pos e7]; rfl
    rw [if_neg e7]
    by_cases e8 : off = 0x210
    · rw [if_pos e8]; rfl
    rw [if_neg e8]
    by_cases e9 : 0x400 ≤ off ∧ off < 0x4D0
    · rw [if_pos e9]; rfl
    rw [if_neg e9, if_pos]
    · rfl
    · simp only [MappedOffset] at h
      omega

/-- A step on a host read in the window is that read. -/
theorem step_read {off : Nat} (h : off < 0x800) (width : Nat) (rest : List HostEvent) (s : State) :
    step { s with host := .read off width :: rest } = .next (hostRead off width { s with host := rest }) := by
  have hw : inWindow off = true := decide_eq_true h
  simp only [step, hostStep, hw, if_true]

/-- A step on a host write in the window is that write. -/
theorem step_write {off : Nat} (h : off < 0x800) (width : Nat) (v : Word) (rest : List HostEvent) (s : State) :
    step { s with host := .write off width v :: rest } = .next (hostWrite off width v { s with host := rest }) := by
  have hw : inWindow off = true := decide_eq_true h
  simp only [step, hostStep, hw, if_true]

/-- An aligned 64-bit access is not refused. -/
theorem refusedAccess_aligned {off : Nat} (h : off % 8 = 0) : refusedAccess off 8 = false := by
  simp [refusedAccess, h]

/-- An aligned read of an idle block returns what the slot holds. -/
theorem hostRead_idle {off : Nat} (h : off % 8 = 0) {s : State} (hb : s.status.busy = false) :
    hostRead off 8 s = { s with rdata := slotValue (slotAt off) s } := by
  simp only [hostRead, refusedAccess_aligned h, hb, Bool.false_and, if_false, Bool.false_eq_true]

/-- An aligned write to an idle block is a write to the slot. -/
theorem hostWrite_idle {off : Nat} (h : off % 8 = 0) (v : Word) {s : State} (hb : s.status.busy = false) :
    hostWrite off 8 v s = writeSlot (slotAt off) v s := by
  simp only [hostWrite, refusedAccess_aligned h, hb, Bool.false_and, if_false, Bool.false_eq_true]

/-- An aligned write to a mapped offset of a running block is dropped. -/
theorem hostWrite_busy {off : Nat} (h : off % 8 = 0) (hm : MappedOffset off) (v : Word) {s : State}
    (hb : s.status.busy = true) : hostWrite off 8 v s = dropWrite s := by
  have hu : (slotAt off != .unmapped) = true := bne_iff_ne.mpr (slotAt_ne_unmapped h hm)
  simp only [hostWrite, refusedAccess_aligned h, hb, hu, Bool.and_self, if_true, if_false, Bool.false_eq_true]

/-- A host read changes nothing but what the host got, the count of unspecified reads, and, when refused, `LOST`. -/
theorem hostRead_cases (off width : Nat) (s : State) :
    (hostRead off width s = { dropWrite s with rdata := 0 }) ∨
      (hostRead off width s = { s with rdata := Config.busyRead s.freeIdx, freeIdx := s.freeIdx + 1 }) ∨
      (hostRead off width s = { s with rdata := slotValue (slotAt off) s }) := by
  unfold hostRead
  cases refusedAccess off width
  · cases s.status.busy && (slotAt off).hiddenWhileBusy
    · exact .inr (.inr rfl)
    · exact .inr (.inl rfl)
  · exact .inl rfl

end Sys2Proof.Machine
end

