-- ==== Sys2Proof/Machine/Protocol.lean ====
section
/-!
DEFINITION. The host's side: the assembler spelling of commands and the host directives (spec/30_encoding.md R79), and
the source document's interface as host actions (spec/70_reset_and_hazards.md R233).
-/
namespace Sys2Proof.Machine

/-- A register as the assembler spells it, `x0` to `x15` (R79). -/
def regName (r : Reg) : String := "x" ++ toString r.val

/-- Operands separated by commas (R79). -/
def spelled (mnemonic : String) (operands : List String) : String :=
  if operands.isEmpty then mnemonic else mnemonic ++ " " ++ String.intercalate ", " operands

/-- The operands of a command in the slot order of R74, immediates in decimal (R79). -/
def operandNames : Instr → List String
  | .add2 rd ra rb => [regName rd, regName ra, regName rb]
  | .sub2 rd ra rb => [regName rd, regName ra, regName rb]
  | .cmp2 ra rb => [regName ra, regName rb]
  | .shl2 rd ra sh => [regName rd, regName ra, toString sh]
  | .shr2 rd ra sh => [regName rd, regName ra, toString sh]
  | .minv rd ra => [regName rd, regName ra]
  | .tomont1 rd ra rn => [regName rd, regName ra, regName rn]
  | .tomont2 rd ra rn => [regName rd, regName ra, regName rn]
  | .mulredc1 rd ra rb rn ri => [regName rd, regName ra, regName rb, regName rn, regName ri]
  | .mulredc2 rd ra rb rn ri => [regName rd, regName ra, regName rb, regName rn, regName ri]
  | .powredc1 rd ra re rn ri ro => [regName rd, regName ra, regName re, regName rn, regName ri, regName ro]
  | .powredc2 rd ra re rn ri ro => [regName rd, regName ra, regName re, regName rn, regName ri, regName ro]
  | .tdiv rd ra => [regName rd, regName ra]
  | .mr1 rd rn rb => [regName rd, regName rn, regName rb]
  | .mr2 rd rn rb => [regName rd, regName rn, regName rb]
  | .prime1 rd rn => [regName rd, regName rn]
  | .prime2 rd rn => [regName rd, regName rn]
  | .isprime rd rn => [regName rd, regName rn]
  | .gcd1 rd ra rb => [regName rd, regName ra, regName rb]
  | .gcd2 rd ra rb => [regName rd, regName ra, regName rb]
  | .rho1 rn a => [regName rn, toString a]
  | .rho2 rn a => [regName rn, toString a]
  | .factor rn => [regName rn]
  | .fclr => []
  | .fins ra m => [regName ra, toString m]
  | .finsl ra => [regName ra]

/-- A command in assembler syntax (R79). -/
def assembly (i : Instr) : String := spelled i.mnemonic (operandNames i)

/-- `HostRead(off)` of 64 bits (spec/20_memory.md R52). -/
def readAt (off : Nat) : HostEvent := .read off 8

/-- `HostWrite(off, v)` of 64 bits (spec/20_memory.md R52). -/
def writeAt (off : Nat) (v : Word) : HostEvent := .write off 8 v

/-- `WR xN, value`: both words of `x[N]` (R79). -/
def loadRegister (r : Reg) (v : Dword) : List HostEvent :=
  [writeAt (0x100 + 16 * r.val) (loWord v), writeAt (0x108 + 16 * r.val) (hiWord v)]

/-- A command line of a host program: the `CMD` write, then `WAIT` (R79). -/
def commandLine (i : Instr) : List HostEvent := [writeAt 0x000 (encode i), .elapse]

/-- `set_mode(prove)` (R233). -/
def setMode (proving : Bool) : List HostEvent := [writeAt 0x010 (bitAt proving 0)]

/-- `factor(n)` up to its `WAIT` (R233), through the register `r`. -/
def factorRequest (r : Reg) (n : Dword) : List HostEvent := loadRegister r n ++ commandLine (.factor r)

/-- `is_prime(n)` with the read of its result (R233), through the registers `r` and `rd`. -/
def isPrimeRequest (rd r : Reg) (n : Dword) : List HostEvent :=
  loadRegister r n ++ commandLine (.isprime rd r) ++ [readAt (0x100 + 16 * rd.val)]

end Sys2Proof.Machine
end

