-- ==== Sys2Proof/Tests/Slice0.lean ====
section
/-!
SUPPORT. The model's own tests. Expected values are those of spec/95_test_vectors.md (V-...) and of the examples in the
rules; the last part shows, for every statement with hypotheses, a state and operands that meet them.
-/
namespace Sys2Proof.Machine

set_option Elab.async false

/-! ### Helpers -/

/-- A running block with the smallest legal prime table. -/
def running : State :=
  { State.reset with params := { tdCount := 24 }, status := { State.reset.status with busy := true } }

/-- The running block with these values in `x[0]`, `x[1]`, .... -/
def loaded (vs : List Dword) : State := { running with x := Vector.ofFn fun i => vs.getD i.val 0 }

/-- The block of `loaded` with these pairs in `FACC`. -/
def holding (pairs : List Entry) (vs : List Dword) : State :=
  { loaded vs with facc := { pairs := pairs, plarge := 0 } }

/-- The block of `loaded` in proof mode. -/
def proving (vs : List Dword) : State := { loaded vs with prove := true, proveSample := true }

/-- The block idle after reset. -/
def idle : State := { State.reset with params := { tdCount := 24 } }

/-- The block idle with the fault of this code taken. -/
def faulted (code : FaultCode) : State := raiseFault code running

/-- `r` is a next state with this property. -/
def holds (r : Result) (p : State → Bool) : Bool :=
  match r with
  | .next t => p t
  | .fault _ => false
  | .refused _ => false

/-- `r` is the next state `u`. -/
def isNext (r : Result) (u : State) : Bool := holds r fun t => decide (t = u)

theorem eq_next_of_isNext {r : Result} {u : State} (h : isNext r u = true) : r = .next u := by
  cases r with
  | next t => exact congrArg _ (of_decide_eq_true h)
  | fault f => cases h
  | refused f => cases h

/-- The pairs of an accumulator as numbers. -/
def listed (f : Facc) : List (Nat × Nat) := f.pairs.map fun en => (en.p.toNat, en.e.toNat)

/-- `r` completes with `v` in `x[rd]`. -/
def gives (r : Result) (rd : Reg) (v : Nat) : Bool :=
  holds r fun t => decide ((t.x[rd.val]).toNat = v) && t.status.done && !t.status.busy && !t.status.err

/-- `r` takes the fault of this code. -/
def takes (r : Result) (code : Nat) : Bool :=
  holds r fun t => decide (t.ecause.toNat = code) && t.status.err && !t.status.busy && !t.status.done

/-! ### WellFormed -/

theorem test_shl2_count_too_large : (Instr.shl2 1 2 128).wellFormed = false := by decide
theorem test_shr2_count_too_large : (Instr.shr2 1 2 128).wellFormed = false := by decide
theorem test_rho1_parameter_too_large : (Instr.rho1 1 256).wellFormed = false := by decide
theorem test_rho2_parameter_too_large : (Instr.rho2 1 256).wellFormed = false := by decide
theorem test_fins_multiplicity_too_large : (Instr.fins 1 256).wellFormed = false := by decide
theorem test_largest_immediates_fit : (Instr.shl2 1 2 127).wellFormed = true ∧ (Instr.rho1 1 255).wellFormed = true ∧
    (Instr.fins 1 255).wellFormed = true := by decide

/-! ### Decode: words V-E1 to V-E34 written out, and the illegal words V-E40 to V-E55 -/

theorem test_decode_doubleword :
    decode 0x00021301#64 = .ok (.add2 3 1 2) ∧ decode 0x000FFF01#64 = .ok (.add2 15 15 15) ∧
    decode 0x00021302#64 = .ok (.sub2 3 1 2) ∧ decode 0x00021003#64 = .ok (.cmp2 1 2) ∧
    decode 0x007F1204#64 = .ok (.shl2 2 1 127) ∧ decode 0x00414404#64 = .ok (.shl2 4 4 65) ∧
    decode 0x007F1205#64 = .ok (.shr2 2 1 127) ∧ decode 0x00001804#64 = .ok (mov2 8 1) := by
  decide

theorem test_decode_modular :
    decode 0x00001210#64 = .ok (.minv 2 1) ∧ decode 0x00021311#64 = .ok (.tomont1 3 1 2) ∧
    decode 0x00021312#64 = .ok (.tomont2 3 1 2) ∧ decode 0x04321513#64 = .ok (.mulredc1 5 1 2 3 4) ∧
    decode 0x04321514#64 = .ok (.mulredc2 5 1 2 3 4) ∧
    decode 0xABCDEF15#64 = .ok (.powredc1 15 14 13 12 11 10) ∧
    decode 0x54321616#64 = .ok (.powredc2 6 1 2 3 4 5) ∧ decode 0x05148913#64 = .ok (fromMont1 9 8 1 5 4) := by
  decide

theorem test_decode_division_and_primality :
    decode 0x00001220#64 = .ok (.tdiv 2 1) ∧ decode 0x00001120#64 = .ok (.tdiv 1 1) ∧
    decode 0x00021330#64 = .ok (.mr1 3 1 2) ∧ decode 0x00021331#64 = .ok (.mr2 3 1 2) ∧
    decode 0x00001232#64 = .ok (.prime1 2 1) ∧ decode 0x00001233#64 = .ok (.prime2 2 1) ∧
    decode 0x00001234#64 = .ok (.isprime 2 1) := by
  decide

theorem test_decode_rho_and_accumulator :
    decode 0x00021340#64 = .ok (.gcd1 3 1 2) ∧ decode 0x00021341#64 = .ok (.gcd2 3 1 2) ∧
    decode 0x00011042#64 = .ok (.rho1 1 1) ∧ decode 0x00FF1042#64 = .ok (.rho1 1 255) ∧
    decode 0x00011043#64 = .ok (.rho2 1 1) ∧ decode 0x00001044#64 = .ok (.factor 1) ∧
    decode 0x0000F044#64 = .ok (.factor 15) ∧ decode 0x00000050#64 = .ok .fclr ∧
    decode 0x00011051#64 = .ok (.fins 1 1) ∧ decode 0x00FD1051#64 = .ok (.fins 1 253) ∧
    decode 0x00001052#64 = .ok (.finsl 1) := by
  decide

theorem test_decode_unused_opcodes :
    decode 0x00000000#64 = .error (.unusedOpcode 0x00) ∧ decode 0xFFFFFFFF#64 = .error (.unusedOpcode 0xFF) ∧
    decode 0x00000006#64 = .error (.unusedOpcode 0x06) ∧ decode 0x00000017#64 = .error (.unusedOpcode 0x17) := by
  decide

theorem test_decode_reserved_bits :
    decode 0x00102301#64 = .error (.reservedBits 0x01) ∧ decode 0x00021103#64 = .error (.reservedBits 0x03) ∧
    decode 0x00801204#64 = .error (.reservedBits 0x04) ∧ decode 0x00011210#64 = .error (.reservedBits 0x10) ∧
    decode 0x10021513#64 = .error (.reservedBits 0x13) ∧ decode 0x00000150#64 = .error (.reservedBits 0x50) ∧
    decode 0x00001144#64 = .error (.reservedBits 0x44) ∧ decode 0x00011142#64 = .error (.reservedBits 0x42) ∧
    decode 0x01011051#64 = .error (.reservedBits 0x51) ∧ decode 0x00011052#64 = .error (.reservedBits 0x52) := by
  decide

theorem test_decode_high_half :
    decode 0x0000000100000050#64 = .error .highHalf ∧ decode 0x8000000000021301#64 = .error .highHalf := by
  decide

/-! ### Double-word commands: V-D1, V-D2, V-D7, V-D12, V-D14, V-D16, V-D21, V-D24, V-D25 -/

theorem test_add2_carries_between_words :
    holds (exec (.add2 3 1 2) (loaded [0, 0xFFFFFFFFFFFFFFFF, 1]))
      (fun t => t.x[3] == pair 1 0 && !t.flags.c && !t.flags.z && t.status.done) = true := by decide +kernel
theorem test_add2_wraps_to_zero :
    holds (exec (.add2 3 1 2) (loaded [0, 0xFFFFFFFFFFFFFFFFFFFFFFFFFFFFFFFF, 1, 7]))
      (fun t => t.x[3] == 0 && t.flags.c && t.flags.z) = true := by decide +kernel
theorem test_sub2_borrows_out :
    holds (exec (.sub2 3 1 2) (loaded [0, 1, 2]))
      (fun t => t.x[3] == 0xFFFFFFFFFFFFFFFFFFFFFFFFFFFFFFFF && t.flags.c && !t.flags.z) = true := by decide +kernel
theorem test_sub2_borrows_between_words :
    holds (exec (.sub2 3 1 2) (loaded [0, pair 5 0, pair 4 0xFFFFFFFFFFFFFFFF]))
      (fun t => t.x[3] == 1 && !t.flags.c && !t.flags.z) = true := by decide +kernel
theorem test_cmp2_high_words_decide :
    holds (exec (.cmp2 1 2) (loaded [0, 0xFFFFFFFFFFFFFFFF, pair 1 0]))
      (fun t => t.flags.c && !t.flags.z && t.x[1] == 0xFFFFFFFFFFFFFFFF) = true := by decide +kernel
theorem test_cmp2_low_words_decide :
    holds (exec (.cmp2 1 2) (loaded [0, pair 7 6, pair 7 7])) (fun t => t.flags.c && !t.flags.z) = true := by
  decide +kernel
theorem test_shl2_one_and_sixty_five :
    gives (exec (.shl2 2 1 1) (loaded [0, 0x8000000000000001C000000000000003])) 2
        0x00000000000000038000000000000006 = true ∧
      gives (exec (.shl2 1 1 65) (loaded [0, 0x8000000000000001C000000000000003])) 1
        0x80000000000000060000000000000000 = true := by decide +kernel
theorem test_shl2_keeps_flags :
    holds (exec (.shl2 2 1 0) { loaded [0, 5] with flags := { c := true, z := true } })
      (fun t => t.flags.c && t.flags.z && t.x[2] == 5) = true := by decide +kernel
theorem test_shr2_one_and_one_hundred_twenty_seven :
    gives (exec (.shr2 2 1 1) (loaded [0, 0x8000000000000001C000000000000003])) 2
        0x4000000000000000E000000000000001 = true ∧
      gives (exec (.shr2 2 1 127) (loaded [0, 0x8000000000000001C000000000000003])) 2 1 = true := by decide +kernel
theorem test_shr2_sixty_four_and_sixty_five :
    gives (exec (.shr2 2 1 64) (loaded [0, 0x8000000000000001C000000000000003])) 2 0x8000000000000001 = true ∧
      gives (exec (.shr2 2 1 65) (loaded [0, 0x8000000000000001C000000000000003])) 2 0x4000000000000000 = true := by
  decide +kernel

/-! ### Modular commands: V-M9, V-M14, V-M16, V-M24, V-M36, V-M47, V-M50, examples of R115, R117, R119, R120 -/

theorem test_minv_ignores_high_word :
    gives (exec (.minv 2 1) (loaded [0, pair 0xDEADBEEF 3])) 2 0xAAAAAAAAAAAAAAAB = true ∧
      gives (exec (.minv 2 1) (loaded [0, 0x123456789ABCDEF1])) 2 0x77B73D68B2CC5211 = true := by decide +kernel
theorem test_minv_zero_is_even : takes (exec (.minv 2 1) (loaded [])) 2 = true := by decide +kernel
theorem test_tomont1_example : gives (exec (.tomont1 3 1 2) (loaded [0, 5, 1000003])) 3 0xB7F18 = true := by
  decide +kernel
theorem test_tomont1_even_before_range : takes (exec (.tomont1 3 1 2) (loaded [0, 9, 8])) 2 = true := by
  decide +kernel
theorem test_tomont2_example :
    gives (exec (.tomont2 3 1 2) (loaded [0, 3, 0x0000000C9F2C9CD04674EDEA40000039])) 3
      0x00000009A0CA1A155149169B73B53CE4 = true := by decide +kernel
theorem test_tomont2_even_before_topbit :
    takes (exec (.tomont2 3 1 2) (loaded [0, 1, 0x80000000000000000000000000000000])) 2 = true ∧
      takes (exec (.tomont2 3 1 2) (loaded [0, 1, 0x80000000000000000000000000000001])) 3 = true := by decide +kernel
theorem test_mulredc1_largest_operands :
    gives (exec (.mulredc1 5 1 2 3 4)
      (loaded [0, 0xFFFFFFFFFFFFFFC4, 0xFFFFFFFFFFFFFFC4, 0xFFFFFFFFFFFFFFC5, 0x34115B1E5F75270D])) 5
      0xCBEEA4E1A08AD8C4 = true := by decide +kernel
theorem test_mulredc1_wrong_inverse :
    takes (exec (.mulredc1 5 1 2 3 4) (loaded [0, 1, 1, 7, 7])) 5 = true := by decide +kernel
theorem test_mulredc2_form_of_fifteen :
    gives (exec (.mulredc2 5 1 2 3 4) (loaded [0, 0x00000009A0CA1A155149169B73B53CE4,
      0x00000007A1DDC2EE032BDC66EB836556, 0x0000000C9F2C9CD04674EDEA40000039, 0x36F112717823EE09])) 5
      0x0000000A466CABF9C30EA74A828A2FC9 = true := by decide +kernel
theorem test_mulredc2_range_before_inverse :
    takes (exec (.mulredc2 5 1 2 3 4) (loaded [0, 7, 1, 7, 7])) 4 = true := by decide +kernel
theorem test_powredc1_zero_and_ten :
    gives (exec (.powredc1 6 1 2 3 4 5)
        (loaded [0, 0xB1, 0, 0xFFFFFFFFFFFFFFC5, 0x34115B1E5F75270D, 0x3B])) 6 0x3B = true ∧
      gives (exec (.powredc1 6 1 2 3 4 5)
        (loaded [0, 0xB1, 10, 0xFFFFFFFFFFFFFFC5, 0x34115B1E5F75270D, 0x3B])) 6 0x3528F3 = true := by decide +kernel
theorem test_powredc1_largest_exponent :
    gives (exec (.powredc1 6 1 2 3 4 5)
      (loaded [0, 0xB1, 0xFFFFFFFFFFFFFFFF, 0xFFFFFFFFFFFFFFC5, 0x34115B1E5F75270D, 0x3B])) 6
      0x3AEC94FB749E464A = true := by decide +kernel
theorem test_powredc2_two_word_exponent :
    gives (exec (.powredc2 6 1 2 3 4 5) (loaded [0, 0x00000009A0CA1A155149169B73B53CE4, pair 1 1,
      0x0000000C9F2C9CD04674EDEA40000039, 0x36F112717823EE09, 0x0000000B9FB6713C9F6650CFFBE71472])) 6
      0x0000000711BC1ABE65708C0B31C56A32 = true := by decide +kernel
theorem test_powredc2_topbit :
    takes (exec (.powredc2 6 1 2 3 4 5) (loaded [0, 1, 1, 0x80000000000000000000000000000001, 1, 1])) 3 = true := by
  decide +kernel

/-! ### Trial division and tables: V-T16, V-T23, R130, R132, R33. The table of 24 primes leaves these as they are. -/

theorem test_tdiv_power_of_two :
    holds (exec (.tdiv 2 1) (loaded [0, pair 1 0])) (fun t => t.x[2] == 1 && listed t.facc == [(2, 64)]) = true := by
  decide +kernel
theorem test_tdiv_fault_keeps_completed_inserts :
    holds (exec (.tdiv 1 1) (holding [{ p := 3, e := 255 }] [0, 6]))
      (fun t => t.x[1] == 6 && listed t.facc == [(2, 1), (3, 255)] && t.ecause == 8) = true := by decide +kernel
theorem test_table_samples :
    (primeTable 24)[0]? = some { p := 3, diff := 1, pinv := 0xAAAAAAAAAAAAAAAB, lim := 0x5555555555555555 } ∧
      (primeTable 24)[7]? = some { p := 23, diff := 4, pinv := 0xD37A6F4DE9BD37A7, lim := 0x0B21642C8590B216 } ∧
      firstOmitted 24 = 101 := by decide +kernel

/-! ### Primality: V-P1, V-P2, V-P14, V-P20, V-P28, V-P34, V-P56. The table of 24 primes has `FOP^2 = 10201`. -/

theorem test_mr1_strong_pseudoprime :
    gives (exec (.mr1 3 1 2) (loaded [0, 2047, 2])) 3 1 = true ∧
      gives (exec (.mr1 3 1 2) (loaded [0, 2047, 3])) 3 0 = true := by decide +kernel
theorem test_mr1_base_too_large : takes (exec (.mr1 3 1 2) (loaded [0, 9, 9])) 4 = true := by decide +kernel
theorem test_mr2_mersenne_prime :
    gives (exec (.mr2 3 1 2) (loaded [0, 0x7FFFFFFFFFFFFFFFFFFFFFFFFFFFFFFF, 3])) 3 1 = true := by decide +kernel
theorem test_mr2_even_before_topbit :
    takes (exec (.mr2 3 1 2) (loaded [0, 0x80000000000000000000000000000000])) 2 = true := by decide +kernel
theorem test_prime1_small_composite_untested :
    gives (exec (.prime1 2 1) (loaded [0, 4])) 2 1 = true ∧ takes (exec (.prime1 2 1) (loaded [0, 10202])) 2 = true := by
  decide +kernel
theorem test_prime1_tested :
    gives (exec (.prime1 2 1) (loaded [0, 10201])) 2 0 = true ∧
      gives (exec (.prime1 2 1) (loaded [0, 25030013])) 2 1 = true := by decide +kernel
theorem test_prime2_two_word_composite :
    gives (exec (.prime2 2 1) (loaded [0, 0x03FFFFFFFFFFFFFFC000000000000001])) 2 0 = true := by decide +kernel
theorem test_prime2_topbit :
    takes (exec (.prime2 2 1) (loaded [0, 0x80000000000000000000000000000001])) 3 = true := by decide +kernel
theorem test_isprime_divides_first :
    gives (exec (.isprime 2 1) (loaded [0, 25])) 2 0 = true ∧
      gives (exec (.isprime 2 1) (loaded [0, 0x80000000000000000000000000000001])) 2 0 = true := by decide +kernel
theorem test_isprime_proof_mode :
    gives (exec (.isprime 2 1) (proving [0, 10211])) 2 1 = true ∧
      gives (exec (.isprime 2 1) (proving [0, 10201])) 2 0 = true := by decide +kernel

/-! ### Gcd, rho, factor: V-G6, V-G9, V-G11, V-H1, V-H2, V-H11, V-H25, V-H26, V-F5 -/

theorem test_gcd1_even_first_operand :
    gives (exec (.gcd1 3 1 2) (loaded [0, 14, 21])) 3 7 = true ∧
      takes (exec (.gcd1 3 1 2) (loaded [0, 15, 12])) 2 = true := by decide +kernel
theorem test_gcd2_two_words :
    gives (exec (.gcd2 3 1 2) (loaded [0, pair 0x138B 0xFE0F, pair 7 0x5B])) 3 0x1000000000000000D = true := by
  decide +kernel
theorem test_rho1_restarts :
    holds (exec (.rho1 1 1) (loaded [0, 25])) (fun t => listed t.facc == [(5, 2)] && t.status.done) = true := by
  decide +kernel
theorem test_rho1_prime_ends_with_range :
    holds (exec (.rho1 1 1) (loaded [0, 7])) (fun t => listed t.facc == [] && t.ecause == 4) = true := by
  decide +kernel
theorem test_rho2_delegates :
    holds (exec (.rho2 1 1) (loaded [0, 15])) (fun t => listed t.facc == [(3, 1), (5, 1)]) = true := by decide +kernel
theorem test_rho2_topbit :
    takes (exec (.rho2 1 1) (loaded [0, 0x80000000000000000000000000000001])) 3 = true := by decide +kernel
theorem test_factor_clears_and_factors :
    holds (exec (.factor 1) (holding [{ p := 7, e := 9 }] [0, 12]))
      (fun t => listed t.facc == [(2, 2), (3, 1)] && t.x[1] == 12) = true := by decide +kernel
theorem test_factor_square_of_first_omitted :
    holds (exec (.factor 1) (loaded [0, 10201])) (fun t => listed t.facc == [(101, 2)]) = true := by decide +kernel

/-! ### Accumulator: R183, R184, V-A examples -/

/-- 26 pairs: the even numbers 2 to 52, each once. -/
def fullPairs : List Entry := (List.range 26).map fun i => { p := BitVec.ofNat 64 (2 * i + 2), e := 1 }

theorem test_fclr :
    holds (exec .fclr (holding [{ p := 7, e := 9 }] [])) (fun t => decide (t.facc = Facc.empty)) = true := by
  decide +kernel
theorem test_fins_sorts_and_adds :
    holds (exec (.fins 1 1) (holding [{ p := 7, e := 2 }] [0, 3])) (fun t => listed t.facc == [(3, 1), (7, 2)]) = true ∧
      holds (exec (.fins 1 1) (holding [{ p := 3, e := 1 }, { p := 7, e := 2 }] [0, 7]))
        (fun t => listed t.facc == [(3, 1), (7, 3)]) = true := by decide +kernel
theorem test_fins_faults :
    takes (exec (.fins 1 56) (holding [{ p := 7, e := 200 }] [0, 7])) 8 = true ∧
      takes (exec (.fins 1 1) (holding fullPairs [0, 3])) 6 = true ∧
      holds (exec (.fins 1 1) (holding fullPairs [0, 4])) (fun t => t.facc.multOf 4 == 2) = true := by decide +kernel
theorem test_finsl_sets_large_slot :
    holds (exec (.finsl 1) (loaded [0, pair 1 0xD])) (fun t => t.facc.plarge == pair 1 0xD && t.facc.nf == 0) = true := by
  decide +kernel
theorem test_finsl_faults_when_set :
    takes (exec (.finsl 1) { loaded [0, pair 1 0xD] with facc := { pairs := [], plarge := pair 1 0xD } }) 7 = true := by
  decide +kernel

/-! ### Reset, the window, one step -/

theorem test_reset_is_idle :
    State.reset.status.busy = false ∧ State.reset.facc.nf = 0 ∧ Sys2Proof.core.reset = State.reset :=
  ⟨rfl, rfl, rfl⟩
theorem test_little_endian_byte :
    windowByte 0x11A { loaded [0, 0x11223344556677880000000000000000] with status := idle.status } = 0x66 := by
  decide +kernel
theorem test_illegal_value :
    takes (step { running with cmd := 0x0000000100000050 }) 1 = true := by decide +kernel
theorem test_fetch_word_runs_next :
    gives (step ((loaded [0, 5]).withFetchWord 32 0x00001804)) 8 5 = true := by decide +kernel
theorem test_busy_write_is_dropped :
    holds (step { running with host := [.write 0x118 8 7] }) (fun t => t.status.lost && t.x[1] == 0) = true := by
  decide +kernel
theorem test_outside_window_stops :
    step { idle with host := [.read 0x800 8] } = .fault .outsideWindow := rfl

/-! ### Witnesses: the hypotheses of each statement, met -/

theorem legal_running : running.params.legal = true := by decide +kernel
theorem wf_full : ({ pairs := fullPairs, plarge := 0 } : Facc).Wf :=
  ⟨by decide, by decide +kernel, by decide +kernel, by decide⟩
theorem inv_reset : Inv State.reset := by
  refine ⟨⟨by decide, by decide, by decide, by decide⟩, ⟨?_, ?_, ?_, ?_, ?_, ?_⟩⟩ <;> decide

/-- A prime that divides a product of listed primes is listed. -/
theorem mem_of_prime_dvd_prod {p : Nat} {qs : List Nat} (hp : p.Prime) (hq : ∀ q ∈ qs, q.Prime) (hd : p ∣ qs.prod) :
    p ∈ qs := by
  obtain ⟨q, hm, hpq⟩ := (Prime.dvd_prod_iff hp.prime).1 hd
  exact ((Nat.prime_dvd_prime_iff_eq hp (hq q hm)).1 hpq) ▸ hm

/-- The multiplicity of a prime, by two divisibility checks. -/
theorem padicValNat_of_dvd {p n k : Nat} (hp : p.Prime) (hn : n ≠ 0) (h : p ^ k ∣ n) (h' : ¬p ^ (k + 1) ∣ n) :
    padicValNat p n = k := by
  have : Fact p.Prime := ⟨hp⟩
  rw [padicValNat_dvd_iff_le hn] at h h'
  omega

/-- Trial division of 6 tries one group of 8 primes and makes these inserts. -/
theorem trialInserts_six : trialInserts 24 0 6 = [(2, 1)] ∧ trialInserts 24 8 6 = [(2, 1), (3, 1)] := by
  have h2 : padicValNat 2 6 = 1 := padicValNat_of_dvd (by norm_num) (by norm_num) (by norm_num) (by norm_num)
  have h3 : padicValNat 3 6 = 1 := padicValNat_of_dvd (by norm_num) (by norm_num) (by norm_num) (by norm_num)
  have h : (tablePrimes 24).take 8 = [3, 5, 7, 11, 13, 17, 19, 23] := by decide +kernel
  simp [trialInserts, h, h2, h3, padicValNat.eq_zero_of_not_dvd]

/-- Trial division of 6 tries exactly one group. -/
theorem trialTries_six : TrialTries 24 6 8 := by
  refine ⟨0, by norm_num, by omega, fun _ => ?_, .inr ⟨by norm_num, 1, le_rfl, by norm_num, .inr ?_, by omega⟩⟩
  · rw [trialResidue, trialInserts_six.1]; decide
  · rw [trialResidue, trialInserts_six.2]; decide +kernel
theorem witness_DecodeInvertsEncode : WellFormed (.shl2 15 15 127) ∧ WellFormed (.fins 15 255) := by decide
theorem witness_EncodeInvertsDecode : decode 0x007F1204#64 = .ok (.shl2 2 1 127) := by decide
theorem witness_DecoderFollowsOpcodeTable : (0xFFFFFFFF : Nat) < 0x100000000 ∧
    (⟨"FCLR", 0x00000050, 0xFFFFFFFF⟩ : OpRow) ∈ opcodeTable ∧ (0x00000050 : Nat) &&& 0xFFFFFFFF = 0x00000050 := by
  decide
theorem witness_UnlistedValuesRaiseIllegal :
    (running.status.busy = true ∧ running.host = [] ∧
      ({ running with host := [.elapse] } : State).host = .elapse :: [] ∧
      ∀ row ∈ opcodeTable, running.cmd.toNat &&& row.mask ≠ row.matchBits) ∧
    0x100000000 ≤ ({ running with cmd := 0x100000000 } : State).cmd.toNat ∧
    ∃ row ∈ opcodeTable, (0x50 : Word).toNat &&& row.mask = row.matchBits := by decide
theorem witness_StepRunsDecodedCommand :
    decode ({ running with cmd := 0x50 } : State).cmd = .ok .fclr ∧ running.status.busy = true ∧ running.host = [] ∧
    ({ running with cmd := 0x50, host := [.elapse] } : State).host = .elapse :: [] ∧
    idle.status.busy = false ∧ idle.host = [] ∧
    ({ idle with host := [.elapse] } : State).host = .elapse :: [] := by decide
theorem witness_CmdWriteIssuesOrDrops :
    Ready idle ∧ ¬Ready running ∧ ¬Ready (faulted .even) ∧ WellFormed .fclr ∧ idle.host = [] ∧
    exec .fclr running = .next (complete running) ∧ step { running with cmd := 0x50 } =
      .next (complete { running with cmd := 0x50 }) := by
  refine ⟨by decide, by decide, by decide, by decide, rfl, ?_, ?_⟩
  · exact eq_next_of_isNext (by decide +kernel)
  · exact eq_next_of_isNext (by decide +kernel)
theorem witness_StatusWriteAcknowledges :
    Idle (faulted .even) ∧ (faulted .even).status.err = true ∧ (faulted .even).status.fatal = false ∧
    (4 : Word).getLsbD 2 = true ∧ (acknowledge 4 (faulted .even)).host = [] ∧
    Idle (faulted .lucasFail) ∧ (faulted .lucasFail).status.fatal = true := by decide
theorem witness_ModeIsSampledPerCommand :
    Ready idle ∧ running.status.busy = true ∧ Idle idle ∧ exec .fclr running = .next (complete running) := by
  exact ⟨by decide, by decide, by decide, eq_next_of_isNext (by decide +kernel)⟩
theorem witness_RegisterMap : Idle idle ∧ idle.status.err = false ∧ idle.status.fatal = false ∧
    ¬MappedOffset 0x028 ∧ ¬MappedOffset 0x7F8 ∧ MappedOffset 0x018 ∧ MappedOffset 0x020 ∧ MappedOffset 0x200 ∧
    MappedOffset 0x6C8 ∧ ¬MappedOffset 0x6D0 := by decide
theorem witness_WritesDroppedWithLost : running.status.busy = true ∧ idle.status.busy = false ∧ MappedOffset 0x000 ∧
    MappedOffset 0x6C8 ∧ MappedOffset 0x018 ∧ MappedOffset 0x200 ∧ ¬Ready running ∧ Ready idle := by decide
theorem witness_UnmappedOffsetsAreInert : 0x028 % 8 = 0 ∧ ¬MappedOffset 0x028 ∧ ¬MappedOffset 0x0F8 ∧
    ¬MappedOffset 0x218 ∧ ¬MappedOffset 0x4D0 ∧ 0x7F8 < 0x800 ∧ ¬MappedOffset 0x7F8 := by decide
theorem witness_RefusedAccessesSetLost :
    (0x000 < 0x800 ∧ (4 : Nat) ≠ 8) ∧ (0x7FF < 0x800 ∧ 0x7FF % 8 ≠ 0) ∧ Idle idle ∧ 0x7F8 % 8 = 0 ∧ 7 < 8 ∧
    HostReads 0x7F8 idle 0 :=
  ⟨by decide, by decide, rfl, by decide, by decide, fun _ => rfl⟩
theorem witness_BusyReadsChangeNothing : 0x7F8 % 8 = 0 ∧ 0x7F8 < 0x800 ∧ running.status.busy = true := by decide
theorem witness_FatalLastsUntilReset :
    (faulted .lucasFail).status.fatal = true ∧ (faulted .lucasFail).status.err = true ∧
    (faulted .lucasFail).status.busy = false ∧ step (faulted .lucasFail) = .next (faulted .lucasFail) ∧
    (∀ rest, (faulted .lucasFail).host ≠ .reset :: rest) :=
  ⟨by decide, by decide, by decide, rfl, fun _ h => nomatch h⟩
theorem witness_Shl2Result_Shr2Result : 0 < 128 ∧ 127 < 128 := by decide
theorem witness_FromMontgomeryRecoversValue :
    (lowWord 1 (loaded [1, 7, 0x6DB6DB6DB6DB6DB7, 5]) % 2 = 1 ∧ 1 < lowWord 1 (loaded [1, 7, 0x6DB6DB6DB6DB6DB7, 5]) ∧
      6 < lowWord 1 (loaded [1, 7, 0x6DB6DB6DB6DB6DB7, 5]) ∧
      lowWord 3 (loaded [1, 7, 0x6DB6DB6DB6DB6DB7, 5]) =
        6 * 2 ^ 64 % lowWord 1 (loaded [1, 7, 0x6DB6DB6DB6DB6DB7, 5]) ∧
      lowWord 0 (loaded [1, 7, 0x6DB6DB6DB6DB6DB7, 5]) = 1 ∧
      lowWord 1 (loaded [1, 7, 0x6DB6DB6DB6DB6DB7, 5]) * lowWord 2 (loaded [1, 7, 0x6DB6DB6DB6DB6DB7, 5]) % 2 ^ 64 = 1) ∧
    (fullValue 1 (loaded [1, 7, 0x6DB6DB6DB6DB6DB7, 5]) < 2 ^ 127 ∧
      fullValue 3 (loaded [1, 7, 0x6DB6DB6DB6DB6DB7, 5]) =
        3 * 2 ^ 128 % fullValue 1 (loaded [1, 7, 0x6DB6DB6DB6DB6DB7, 5]) ∧
      fullValue 0 (loaded [1, 7, 0x6DB6DB6DB6DB6DB7, 5]) = 1) := by decide +kernel
theorem witness_ConstantTables : (∃ en, (primeTable 24)[23]? = some en ∧ en.p = 97) ∧ 24 ≤ 24 :=
  ⟨⟨_, rfl, by decide +kernel⟩, le_rfl⟩
theorem witness_DivisibilityTests : ∃ en ∈ primeTable running.params.tdCount, running.params.legal = true ∧
    (en.p ∣ 0 ∧ (0 : Nat) < 2 ^ 64) ∧ (2 ^ 64 - 1 : Nat) < 2 ^ 64 ∧ (2 ^ 128 - 1 : Nat) < 2 ^ 128 :=
  ⟨_, List.mem_cons_self, legal_running, by decide, by decide, by decide⟩
theorem witness_TdivStripsTablePrimes : (loaded [0, 0xFFFFFFFFFFFFFFFFFFFFFFFFFFFFFFFF]).params.legal = true ∧
    (loaded [0, 0xFFFFFFFFFFFFFFFFFFFFFFFFFFFFFFFF]).facc = Facc.empty ∧ fullValue 0 (loaded [0, 1]) = 0 ∧
    fullValue 1 (loaded [0, 29]) = 29 :=
  ⟨legal_running, rfl, by decide⟩
theorem witness_TdivAddsToAccumulator : (holding fullPairs [0, 6 * 103]).params.legal = true ∧
    (holding fullPairs [0, 6 * 103]).facc.Wf ∧ (holding fullPairs [0, 6 * 103]).status.done = false ∧ 309 < 2 ^ 128 ∧
    ∃ acc, exec (.tdiv 2 1) (holding fullPairs [0, 2 * 103]) =
      .next (resultState 2 103 { holding fullPairs [0, 2 * 103] with facc := acc }) :=
  ⟨legal_running, wf_full, rfl, by decide,
    { pairs := fullPairs.map (bumpEntry 2 1), plarge := 0 }, eq_next_of_isNext (by decide +kernel)⟩
theorem witness_TdivInsertsInOrder : (holding [{ p := 3, e := 255 }] [0, 6]).params.legal = true ∧
    fullValue 1 (holding [{ p := 3, e := 255 }] [0, 6]) = 6 ∧ TrialTries 24 6 8 ∧
    recordAll (trialInserts 24 8 6) { pairs := [{ p := 3, e := 255 }], plarge := 0 } =
      ({ pairs := [{ p := 2, e := 1 }, { p := 3, e := 255 }], plarge := 0 }, some .accMult) ∧
    recordAll (trialInserts 24 8 6) { pairs := [{ p := 3, e := 254 }], plarge := 0 } =
      ({ pairs := [{ p := 2, e := 1 }, { p := 3, e := 255 }], plarge := 0 }, none) := by
  rw [trialInserts_six.2]
  exact ⟨legal_running, by decide +kernel, trialTries_six, by decide +kernel, by decide +kernel⟩
theorem witness_PrimalityVerdicts : (loaded [0, 10201]).params.legal = true ∧ (loaded [0, 10201]).proveSample = false ∧
    fopSquared (loaded [0, 10201]) = 10201 ∧ lowWord 1 (loaded [0, 10201]) = 10201 ∧
    fullValue 1 (loaded [0, pair 1 0xD]) = 0x1000000000000000D :=
  ⟨legal_running, rfl, by decide +kernel, by decide +kernel, by decide +kernel⟩
theorem witness_IsprimeExactBelowFopSquared : (loaded [0, 10200]).params.legal = true ∧
    fullValue 1 (loaded [0, 10200]) < fopSquared (loaded [0, 10200]) := ⟨legal_running, by decide +kernel⟩
theorem witness_IsprimeVerdict :
    fullValue 1 (loaded [0, 1]) < 2 ∧ (2 ≤ fullValue 1 (loaded [0, 2]) ∧ fullValue 1 (loaded [0, 2]) % 2 = 0) ∧
    ¬NoTableFactor (loaded [0, 97]) (fullValue 1 (loaded [0, 97])) ∧
    (NoTableFactor (loaded [0, 10193]) (fullValue 1 (loaded [0, 10193])) ∧
      fullValue 1 (loaded [0, 10193]) < fopSquared (loaded [0, 10193])) ∧
    (NoTableFactor (loaded [0, 0x8000000000000000000000000000001D]) (fullValue 1 (loaded [0, 0x8000000000000000000000000000001D])) ∧
      2 ^ 127 ≤ fullValue 1 (loaded [0, 0x8000000000000000000000000000001D])) ∧
    (NoTableFactor (loaded [0, 10201]) (fullValue 1 (loaded [0, 10201])) ∧
      fopSquared (loaded [0, 10201]) ≤ fullValue 1 (loaded [0, 10201])) := by
  refine ⟨by decide +kernel, by decide +kernel, ?_, ?_, ?_, ?_⟩ <;> simp only [NoTableFactor] <;> decide +kernel
/-- The premises of ProofModeVerdictIsProof and each of its ends, PRIME1 and PRIME2 at `FOP^2` itself among them. -/
theorem witness_ProofModeVerdictIsProof : (proving [0, 10211]).params.legal = true ∧
    (proving [0, 10211]).proveSample = true ∧ (proving [0, 10211]).status.busy = true ∧
    (proving [0, 10211]).status.done = false ∧ (proving [0, 10211]).status.err = false ∧
    fopSquared (proving [0, 10201]) = 10201 ∧ lowWord 1 (proving [0, 10201]) = 10201 ∧
    fullValue 1 (proving [0, 10201]) = 10201 ∧
    exec (.isprime 2 1) (proving [0, 10211]) = .next (resultState 2 1 (proving [0, 10211])) ∧
    exec (.prime1 2 1) (proving [0, 10211]) = .next (resultState 2 1 (proving [0, 10211])) ∧
    exec (.prime2 2 1) (proving [0, 10201]) = .next (resultState 2 0 (proving [0, 10201])) ∧
    exec (.isprime 2 1) (proving [0, 31771]) = .next (raiseFault .lucasFail (proving [0, 31771])) ∧
    exec (.prime1 2 1) (proving [0, 31771]) = .next (raiseFault .lucasFail (proving [0, 31771])) ∧
    exec (.prime2 2 1) (proving [0, 31771]) = .next (raiseFault .lucasFail (proving [0, 31771])) := by
  refine ⟨legal_running, rfl, rfl, rfl, rfl, by decide +kernel, by decide +kernel, by decide +kernel, ?_, ?_, ?_, ?_, ?_,
    ?_⟩ <;> exact eq_next_of_isNext (by decide +kernel)
/-- 10211 is a prime above `FOP^2`, and 11 is its first Lucas base. -/
theorem witness_ProofOutcome_proved : Nat.Prime 10211 ∧ SmoothEnough (proving [0, 10211]) (10211 - 1) ∧
    ∃ b ∈ proofBases (proving [0, 10211]), LucasBase 10211 b := by
  have hq : ∀ q ∈ [2, 5, 1021], Nat.Prime q := by norm_num
  refine ⟨by norm_num, ⟨10, 1021, by norm_num, fun p hp hd => ?_, by decide +kernel⟩, 11, by decide +kernel,
    fun p hp hd => ?_⟩
  · exact (by decide +kernel : ∀ p ∈ [2, 5], p = 2 ∨ p ∈ tablePrimes 24) p
      (mem_of_prime_dvd_prod hp (by norm_num) (by simpa using hd))
  · exact (by decide +kernel : ∀ p ∈ [2, 5, 1021], 11 ^ ((10211 - 1) / p) % 10211 ≠ 1) p
      (mem_of_prime_dvd_prod hp hq (by simpa using hd))

/-- 10201 is no strong probable prime to the base 2. -/
theorem witness_ProofOutcome_refuted : SmoothEnough (proving [0, 10201]) (10201 - 1) ∧
    ∃ b ∈ proofBases (proving [0, 10201]), ¬StrongProbablePrime 10201 b := by
  refine ⟨⟨1, 10200, rfl, fun p hp hd => absurd (Nat.dvd_one.1 hd) hp.ne_one, by decide +kernel⟩, 2,
    by decide +kernel, ?_⟩
  rintro ⟨q, k, hn, hodd, h⟩
  have hk : k = 3 := by
    have : k < 14 := (Nat.pow_lt_pow_iff_right (by norm_num)).1 (lt_of_le_of_lt (b := 10200)
      (by rw [show 10200 = 10201 - 1 from rfl, hn]; exact Nat.le_mul_of_pos_left _ (by omega)) (by norm_num : _ < 2 ^ 14))
    interval_cases k <;> omega
  subst hk
  obtain rfl : q = 1275 := by omega
  exact absurd h (by decide +kernel)

/-- 31771 is a prime that no base of the smallest table proves. -/
theorem witness_ProofOutcome_unproved : Nat.Prime 31771 ∧ SmoothEnough (proving [0, 31771]) (31771 - 1) ∧
    NoTableFactor (proving [0, 31771]) 31771 ∧ Unproved (proving [0, 31771]) 31771 := by
  refine ⟨by norm_num, ⟨90, 353, by norm_num, fun p hp hd => ?_, by decide +kernel⟩,
    by simp only [NoTableFactor]; decide +kernel, fun b hb => ⟨⟨15885, 1, by norm_num, by norm_num, ?_⟩, fun hl => ?_⟩⟩
  · exact (by decide +kernel : ∀ p ∈ [2, 3, 3, 5], p = 2 ∨ p ∈ tablePrimes 24) p
      (mem_of_prime_dvd_prod hp (by norm_num) (by simpa using hd))
  · exact (by decide +kernel : ∀ b ∈ proofBases (proving [0, 31771]),
      b ^ 15885 % 31771 = 1 ∨ ∃ i, i < 1 ∧ b ^ (15885 * 2 ^ i) % 31771 = 31771 - 1) b hb
  · obtain ⟨p, hp, h1⟩ := (by decide +kernel : ∀ b ∈ proofBases (proving [0, 31771]),
      ∃ p ∈ [2, 3, 5, 353], b ^ ((31771 - 1) / p) % 31771 = 1) b hb
    exact hl p ((by norm_num : ∀ p ∈ [2, 3, 5, 353], Nat.Prime p) p hp)
      ((by decide : ∀ p ∈ [2, 3, 5, 353], p ∣ 31771 - 1) p hp) h1
theorem witness_RhoSplitsSmallComposites : (loaded [0, 15, 25]).params.legal = true ∧
    (loaded [0, 15, 25]).facc = Facc.empty ∧ lowWord 1 (loaded [0, 15, 25]) = 15 ∧
    lowWord 2 (loaded [0, 15, 25]) = 25 ∧ fullValue 1 (loaded [0, 15, 25]) = 15 ∧
    fullValue 2 (loaded [0, 15, 25]) = 25 := ⟨legal_running, rfl, by decide +kernel⟩
theorem witness_RhoEntryChecks : 255 < 256 ∧ lowWord 1 (loaded [0, 16]) % 2 = 0 ∧
    (lowWord 1 (loaded [0, 15]) % 2 = 1 ∧ lowWord 1 (loaded [0, 15]) ≤ 15) ∧ lowWord 1 (loaded [0, 1]) < 3 ∧
    lowWord 1 (loaded [0, 7]) = 7 ∧ fullValue 1 (loaded [0, 16]) % 2 = 0 ∧
    (fullValue 1 (loaded [0, 0x80000000000000000000000000000001]) % 2 = 1 ∧
      2 ^ 127 ≤ fullValue 1 (loaded [0, 0x80000000000000000000000000000001])) ∧
    (fullValue 1 (loaded [0, 15]) < 2 ^ 127 ∧ fullValue 1 (loaded [0, 15]) ≤ 15) ∧
    fullValue 1 (loaded [0, 7]) = 7 := by decide +kernel
theorem witness_RhoConservesValue : (loaded [0, 15]).facc.Wf ∧ (loaded [0, 15]).status.busy = true ∧
    (loaded [0, 15]).status.done = false ∧
    exec (.rho1 1 1) (loaded [0, 15]) =
      .next (faccState { pairs := [{ p := 3, e := 1 }, { p := 5, e := 1 }], plarge := 0 } (loaded [0, 15])) ∧
    exec (.rho2 1 1) (loaded [0, 15]) =
      .next (faccState { pairs := [{ p := 3, e := 1 }, { p := 5, e := 1 }], plarge := 0 } (loaded [0, 15])) :=
  ⟨⟨by decide, by decide, by decide, by decide⟩, rfl, rfl, eq_next_of_isNext (by decide +kernel),
    eq_next_of_isNext (by decide +kernel)⟩
theorem witness_RhoFirstDetectionExists : 3 % 2 = 1 ∧ 3 ≤ 3 ∧ 2 < 3 ∧ (2 ^ 127 - 1) % 2 = 1 ∧ 2 ^ 127 - 1 < 2 ^ 127 := by
  decide
theorem witness_FactorStatements : (proving [0, 10201]).params.legal = true ∧
    fullValue 1 (loaded [0, 10200]) < fopSquared (loaded [0, 10200]) ∧ (proving [0, 10201]).proveSample = true ∧
    (proving [0, 10201]).status.busy = true ∧ (proving [0, 10201]).status.done = false ∧
    1 ≤ fullValue 1 (proving [0, 10201]) ∧
    exec (.factor 1) (proving [0, 10201]) =
      .next (faccState { pairs := [{ p := 101, e := 2 }], plarge := 0 } (proving [0, 10201])) :=
  ⟨legal_running, by decide +kernel, rfl, rfl, rfl, by decide +kernel, eq_next_of_isNext (by decide +kernel)⟩
/-- 63542 = 2 * 31771: the insert of 2 is complete when the oracle gives up on 31771. -/
theorem witness_FactorFaultCodes : (proving [0, 63542]).params.legal = true ∧ (proving [0, 63542]).params.tdCount = 24 ∧
    (proving [0, 63542]).status.err = false ∧ (proving [0, 63542]).proveSample = true ∧
    fullValue 1 (proving [0, 63542]) = 63542 ∧
    exec (.factor 1) (proving [0, 63542]) = .next (raiseFault .lucasFail
      { proving [0, 63542] with facc := { pairs := [{ p := 2, e := 1 }], plarge := 0 } }) :=
  ⟨legal_running, rfl, rfl, rfl, by decide +kernel, eq_next_of_isNext (by decide +kernel)⟩
theorem witness_TopBitAtEdgeOfDomain :
    (loaded [0, 0x8000000000000000000000000000001D]).params.legal = true ∧
    fullValue 1 (loaded [0, 0x8000000000000000000000000000001D]) % 2 = 1 ∧
    2 ^ 127 ≤ fullValue 1 (loaded [0, 0x8000000000000000000000000000001D]) ∧
    NoTableFactor (loaded [0, 0x8000000000000000000000000000001D])
      (fullValue 1 (loaded [0, 0x8000000000000000000000000000001D])) := by
  refine ⟨legal_running, by decide +kernel, by decide +kernel, ?_⟩
  simp only [NoTableFactor]
  decide +kernel
theorem witness_FinsInserts : (holding fullPairs [0, 3]).facc.Wf ∧ 255 < 256 ∧
    (holding fullPairs [0, 3]).facc.multOf 3 = 0 ∧ (holding fullPairs [0, 3]).facc.nf = 26 ∧
    (holding fullPairs [0, 4]).facc.multOf 4 = 1 ∧ 255 < 1 + 255 ∧ 1 + 254 ≤ 255 :=
  ⟨wf_full, by decide, by decide +kernel, by decide +kernel, by decide +kernel, by decide, by decide⟩
theorem witness_CommandFrame :
    exec (.rho1 1 1) (loaded [0, 25]) =
      .next (faccState { pairs := [{ p := 5, e := 2 }], plarge := 0 } (loaded [0, 25])) ∧
    exec (.rho1 1 1) (loaded [0, 7]) = .next (raiseFault .range (loaded [0, 7])) :=
  ⟨eq_next_of_isNext (by decide +kernel), eq_next_of_isNext (by decide +kernel)⟩
theorem witness_NoCommandReadsFlags : exec (.shl2 2 1 0) (loaded [0, 5]) =
    .next (resultState 2 5 (loaded [0, 5])) := eq_next_of_isNext (by decide +kernel)
theorem witness_EveryStepKeepsInv : Inv State.reset ∧ step State.reset = .next State.reset := ⟨inv_reset, rfl⟩
theorem witness_FaultingCommandsKeepRegisters : (loaded []).status.err = false ∧
    exec (.minv 2 1) (loaded []) = .next (raiseFault .even (loaded [])) ∧
    (raiseFault .even (loaded [])).status.err = true := ⟨rfl, eq_next_of_isNext (by decide +kernel), rfl⟩
theorem witness_RhoAndFactorRecordInOrder :
    (holding [{ p := 5, e := 255 }] [0, 15]).params.legal = true ∧
    lowWord 1 (holding [{ p := 5, e := 255 }] [0, 15]) = 15 ∧ 2 ≤ fullValue 1 (loaded [0, 2]) ∧
    (holding [{ p := 5, e := 255 }] [0, 15]).status.err = false ∧
    exec (.rho1 1 1) (holding [{ p := 5, e := 255 }] [0, 15]) =
      .next (raiseFault .accMult (holding [{ p := 3, e := 1 }, { p := 5, e := 255 }] [0, 15])) :=
  ⟨legal_running, by decide +kernel, by decide +kernel, rfl, eq_next_of_isNext (by decide +kernel)⟩
theorem witness_BoundedCommandsEnd : alwaysEnds true (.tdiv 1 1) = true ∧ alwaysEnds false (.isprime 1 1) = true := by
  decide
theorem witness_StepsKeepTheParameter : step idle = .next idle := rfl

end Sys2Proof.Machine
end

section
/-!
PROOFS. The command word (spec/30_encoding.md R70 to R76): what each slot of a packed word reads, and decode after
encode.
-/
namespace Sys2Proof

/-- An immediate stands where slot 3 and the slots above it stand. -/
theorem packImm_eq_packSlots (op s1 s2 imm : Nat) : packImm op s1 s2 imm = packSlots op s1 s2 imm 0 0 0 := by
  simp [packImm, packSlots]

section Slots
variable {op s1 s2 s3 s4 s5 s6 : Nat}

@[simp] theorem packSlots_opcode (h : op < 0x100) : packSlots op s1 s2 s3 s4 s5 s6 % 0x100 = op := by
  simp only [packSlots]; omega

@[simp] theorem slot1_packSlots (r : Reg) (h : op < 0x100) : slot1 (packSlots op r s2 s3 s4 s5 s6) = r := by
  apply Fin.ext
  simp only [slot1, packSlots, Fin.val_ofNat]; omega

@[simp] theorem slot2_packSlots (r : Reg) (h : op < 0x100) (h1 : s1 < 16) :
    slot2 (packSlots op s1 r s3 s4 s5 s6) = r := by
  apply Fin.ext
  simp only [slot2, packSlots, Fin.val_ofNat]; omega

@[simp] theorem slot3_packSlots (r : Reg) (h : op < 0x100) (h1 : s1 < 16) (h2 : s2 < 16) :
    slot3 (packSlots op s1 s2 r s4 s5 s6) = r := by
  apply Fin.ext
  simp only [slot3, packSlots, Fin.val_ofNat]; omega

@[simp] theorem slot4_packSlots (r : Reg) (h : op < 0x100) (h1 : s1 < 16) (h2 : s2 < 16) (h3 : s3 < 16) :
    slot4 (packSlots op s1 s2 s3 r s5 s6) = r := by
  apply Fin.ext
  simp only [slot4, packSlots, Fin.val_ofNat]; omega

@[simp] theorem slot5_packSlots (r : Reg) (h : op < 0x100) (h1 : s1 < 16) (h2 : s2 < 16) (h3 : s3 < 16)
    (h4 : s4 < 16) : slot5 (packSlots op s1 s2 s3 s4 r s6) = r := by
  apply Fin.ext
  simp only [slot5, packSlots, Fin.val_ofNat]; omega

@[simp] theorem slot6_packSlots (r : Reg) (h : op < 0x100) (h1 : s1 < 16) (h2 : s2 < 16) (h3 : s3 < 16)
    (h4 : s4 < 16) (h5 : s5 < 16) : slot6 (packSlots op s1 s2 s3 s4 s5 r) = r := by
  apply Fin.ext
  simp only [slot6, packSlots, Fin.val_ofNat]; omega

@[simp] theorem shiftField_packSlots {sh : Nat} (h : op < 0x100) (h1 : s1 < 16) (h2 : s2 < 16) (hsh : sh < 0x80) :
    shiftField (packSlots op s1 s2 sh 0 0 0) = sh := by
  simp only [shiftField, packSlots]; omega

@[simp] theorem immField_packSlots {imm : Nat} (h : op < 0x100) (h1 : s1 < 16) (h2 : s2 < 16) (himm : imm < 0x100) :
    immField (packSlots op s1 s2 imm 0 0 0) = imm := by
  simp only [immField, packSlots]; omega

/-! Each format accepts a word packed with zero in the bits it reserves (R76). -/

theorem accept_true (op : Nat) (i : Instr) : accept true op i = .ok i := rfl

@[simp] theorem decodeR3_packSlots (i : Instr) (h : op < 0x100) (h1 : s1 < 16) (h2 : s2 < 16) (h3 : s3 < 16) :
    decodeR3 (packSlots op s1 s2 s3 0 0 0) i = .ok i := by
  have hz : packSlots op s1 s2 s3 0 0 0 / 0x100000 = 0 := by simp only [packSlots]; omega
  simp [decodeR3, hz, accept_true]

@[simp] theorem decodeR2_packSlots (i : Instr) (h : op < 0x100) (h1 : s1 < 16) (h2 : s2 < 16) :
    decodeR2 (packSlots op s1 s2 0 0 0 0) i = .ok i := by
  have hz : packSlots op s1 s2 0 0 0 0 / 0x10000 = 0 := by simp only [packSlots]; omega
  simp [decodeR2, hz, accept_true]

@[simp] theorem decodeR5_packSlots (i : Instr) (h : op < 0x100) (h1 : s1 < 16) (h2 : s2 < 16) (h3 : s3 < 16)
    (h4 : s4 < 16) (h5 : s5 < 16) : decodeR5 (packSlots op s1 s2 s3 s4 s5 0) i = .ok i := by
  have hz : packSlots op s1 s2 s3 s4 s5 0 / 0x10000000 = 0 := by simp only [packSlots]; omega
  simp [decodeR5, hz, accept_true]

@[simp] theorem decodeRS2_packSlots (i : Instr) (h : op < 0x100) (h2 : s2 < 16) :
    decodeRS2 (packSlots op 0 s2 0 0 0 0) i = .ok i := by
  have hz : packSlots op 0 s2 0 0 0 0 / 0x10000 = 0 := by simp only [packSlots]; omega
  have hs : packSlots op 0 s2 0 0 0 0 / 0x100 % 0x10 = 0 := by simp only [packSlots]; omega
  simp [decodeRS2, hz, hs, accept_true]

@[simp] theorem decodeS_packSlots {sh : Nat} (i : Instr) (h : op < 0x100) (h1 : s1 < 16) (h2 : s2 < 16)
    (hsh : sh < 0x80) : decodeS (packSlots op s1 s2 sh 0 0 0) i = .ok i := by
  have hz : packSlots op s1 s2 sh 0 0 0 / 0x800000 = 0 := by simp only [packSlots]; omega
  simp [decodeS, hz, accept_true]

@[simp] theorem decodeI_packSlots {imm : Nat} (i : Instr) (h : op < 0x100) (h2 : s2 < 16) (himm : imm < 0x100) :
    decodeI (packSlots op 0 s2 imm 0 0 0) i = .ok i := by
  have hz : packSlots op 0 s2 imm 0 0 0 / 0x1000000 = 0 := by simp only [packSlots]; omega
  have hs : packSlots op 0 s2 imm 0 0 0 / 0x100 % 0x10 = 0 := by simp only [packSlots]; omega
  simp [decodeI, hz, hs, accept_true]

end Slots

/-- CMP2 is the one three-slot command that reserves slot 1. -/
theorem decodeWord_encodeWord_cmp2 (ra rb : Reg) : decodeWord (encodeWord (.cmp2 ra rb)) = .ok (.cmp2 ra rb) := by
  have hz : packSlots 0x03 0 ra rb 0 0 0 / 0x100000 = 0 := by simp only [packSlots]; omega
  have hs : packSlots 0x03 0 ra rb 0 0 0 / 0x100 % 0x10 = 0 := by simp only [packSlots]; omega
  simp [encodeWord, decodeWord, hz, hs, accept_true]

/-- The register commands need only the slot lemmas; an immediate needs its bound (R73). -/
theorem decodeWord_encodeWord {i : Instr} (h : WellFormed i) : decodeWord (encodeWord i) = .ok i := by
  cases i with
  | shl2 rd ra sh =>
    have hsh : sh < 0x80 := of_decide_eq_true h
    simp [encodeWord, decodeWord, packImm_eq_packSlots, hsh]
  | shr2 rd ra sh =>
    have hsh : sh < 0x80 := of_decide_eq_true h
    simp [encodeWord, decodeWord, packImm_eq_packSlots, hsh]
  | rho1 rn a =>
    have ha : a < 0x100 := of_decide_eq_true h
    simp [encodeWord, decodeWord, packImm_eq_packSlots, ha]
  | rho2 rn a =>
    have ha : a < 0x100 := of_decide_eq_true h
    simp [encodeWord, decodeWord, packImm_eq_packSlots, ha]
  | fins ra m =>
    have hm : m < 0x100 := of_decide_eq_true h
    simp [encodeWord, decodeWord, packImm_eq_packSlots, hm]
  | cmp2 ra rb => exact decodeWord_encodeWord_cmp2 ra rb
  | fclr => rfl
  | _ => simp [encodeWord, decodeWord]

/-- A well-formed command's word fits the low half of `CMD` (R70). -/
theorem encodeWord_lt {i : Instr} (h : WellFormed i) : encodeWord i < 0x100000000 := by
  cases i with
  | add2 rd ra rb => exact Laws.EncodeFits.add2 rd ra rb h
  | sub2 rd ra rb => exact Laws.EncodeFits.sub2 rd ra rb h
  | cmp2 ra rb => exact Laws.EncodeFits.cmp2 ra rb h
  | shl2 rd ra sh => exact Laws.EncodeFits.shl2 rd ra sh h
  | shr2 rd ra sh => exact Laws.EncodeFits.shr2 rd ra sh h
  | minv rd ra => exact Laws.EncodeFits.minv rd ra h
  | tomont1 rd ra rn => exact Laws.EncodeFits.tomont1 rd ra rn h
  | tomont2 rd ra rn => exact Laws.EncodeFits.tomont2 rd ra rn h
  | mulredc1 rd ra rb rn ri => exact Laws.EncodeFits.mulredc1 rd ra rb rn ri h
  | mulredc2 rd ra rb rn ri => exact Laws.EncodeFits.mulredc2 rd ra rb rn ri h
  | powredc1 rd ra re rn ri ro => exact Laws.EncodeFits.powredc1 rd ra re rn ri ro h
  | powredc2 rd ra re rn ri ro => exact Laws.EncodeFits.powredc2 rd ra re rn ri ro h
  | tdiv rd ra => exact Laws.EncodeFits.tdiv rd ra h
  | mr1 rd rn rb => exact Laws.EncodeFits.mr1 rd rn rb h
  | mr2 rd rn rb => exact Laws.EncodeFits.mr2 rd rn rb h
  | prime1 rd rn => exact Laws.EncodeFits.prime1 rd rn h
  | prime2 rd rn => exact Laws.EncodeFits.prime2 rd rn h
  | isprime rd rn => exact Laws.EncodeFits.isprime rd rn h
  | gcd1 rd ra rb => exact Laws.EncodeFits.gcd1 rd ra rb h
  | gcd2 rd ra rb => exact Laws.EncodeFits.gcd2 rd ra rb h
  | rho1 rn a => exact Laws.EncodeFits.rho1 rn a h
  | rho2 rn a => exact Laws.EncodeFits.rho2 rn a h
  | factor rn => exact Laws.EncodeFits.factor rn h
  | fclr => exact Laws.EncodeFits.fclr h
  | fins ra m => exact Laws.EncodeFits.fins ra m h
  | finsl ra => exact Laws.EncodeFits.finsl ra h

/-- The value the host writes for a well-formed command decodes to that command. -/
theorem decode_encode {i : Instr} (h : WellFormed i) : decode (encode i) = .ok i := by
  have hlt := encodeWord_lt h
  have hval : (encode i).toNat = encodeWord i := by
    simp only [encode, BitVec.toNat_ofNat]
    omega
  rw [decode, hval, if_pos (Nat.div_eq_of_lt hlt), decodeWord_encodeWord h]

end Sys2Proof
end

section
/-!
PROOFS. What a command can do to the state, said once for all 26 of them: it writes registers, `FLAGS` and `FACC` and
completes, or it faults with registers and `FLAGS` kept, or it does not return (spec/30_encoding.md R75,
spec/60_exceptions.md R204, spec/70_reset_and_hazards.md R238).
-/
namespace Sys2Proof.Machine

/-- `u` differs from `s` at most in the general registers, `FLAGS` and `FACC`: the destinations of commands. -/
structure DataOnly (s u : State) : Prop extends SameEnvironment s u where
  cmd : u.cmd = s.cmd
  status : u.status = s.status
  prove : u.prove = s.prove
  ecause : u.ecause = s.ecause
  proveSample : u.proveSample = s.proveSample

theorem DataOnly.refl (s : State) : DataOnly s s := ⟨⟨rfl, rfl, rfl, rfl⟩, rfl, rfl, rfl, rfl, rfl⟩

theorem DataOnly.writeReg {s u : State} (h : DataOnly s u) (r : Reg) (v : Dword) : DataOnly s (writeReg r v u) :=
  ⟨⟨h.params, h.host, h.rdata, h.freeIdx⟩, h.cmd, h.status, h.prove, h.ecause, h.proveSample⟩

theorem DataOnly.setFlags {s u : State} (h : DataOnly s u) (f : Flags) : DataOnly s (setFlags f u) :=
  ⟨⟨h.params, h.host, h.rdata, h.freeIdx⟩, h.cmd, h.status, h.prove, h.ecause, h.proveSample⟩

theorem DataOnly.setFacc {s u : State} (h : DataOnly s u) (acc : Facc) : DataOnly s (setFacc acc u) :=
  ⟨⟨h.params, h.host, h.rdata, h.freeIdx⟩, h.cmd, h.status, h.prove, h.ecause, h.proveSample⟩

/-- The states in which a command running in `s` can leave the block. -/
inductive CommandEnd (s : State) : State → Prop where
  | completes {u : State} (h : DataOnly s u) : CommandEnd s (complete u)
  | faults (code : FaultCode) (acc : Facc) : CommandEnd s (raiseFault code (setFacc acc s))
  | never : CommandEnd s s

/-- The answer `r` is a next state in which a command running in `s` can leave the block. -/
def EndsFrom (s : State) (r : Result) : Prop := ∃ t, r = .next t ∧ CommandEnd s t

theorem endsFrom_finish {s u : State} (h : DataOnly s u) : EndsFrom s (finish u) := ⟨_, rfl, .completes h⟩

/-- One register written, and the command completes: how most commands end. -/
theorem endsFrom_finish_writeReg (r : Reg) (v : Dword) (s : State) : EndsFrom s (finish (writeReg r v s)) :=
  endsFrom_finish ((DataOnly.refl s).writeReg r v)

theorem endsFrom_trap (code : FaultCode) (s : State) : EndsFrom s (trap code s) := ⟨_, rfl, .faults code s.facc⟩

theorem endsFrom_guarded (checks : List (Bool × FaultCode)) {s : State} {go : Unit → Result}
    (h : EndsFrom s (go ())) : EndsFrom s (guarded checks s go) := by
  obtain ⟨code, -, hr⟩ | ⟨-, hr⟩ := guarded_cases checks s go
  · rw [hr]
    exact endsFrom_trap code s
  · rwa [hr]

theorem endsFrom_finishInsert (r : Except FaultCode Facc) (s : State) : EndsFrom s (finishInsert r s) := by
  cases r with
  | ok acc => exact endsFrom_finish ((DataOnly.refl s).setFacc acc)
  | error code => exact endsFrom_trap code s

theorem endsFrom_finishRun {α : Type} (r : Run α) (s : State) : EndsFrom s (finishRun r s) := by
  cases r with
  | done v acc => exact endsFrom_finish ((DataOnly.refl s).setFacc acc)
  | fault code acc => exact ⟨_, rfl, .faults code acc⟩
  | hang => exact ⟨_, rfl, .never⟩

theorem endsFrom_finishVerdict (rd : Reg) (r : Run Bool) (s : State) : EndsFrom s (finishVerdict rd r s) := by
  cases r with
  | done v acc => exact endsFrom_finish_writeReg rd _ s
  | fault code acc => exact endsFrom_trap code s
  | hang => exact ⟨_, rfl, .never⟩

/-! The same behind a command's checks. -/

theorem endsFrom_guarded_writeReg (checks : List (Bool × FaultCode)) (r : Reg) (v : Dword) (s : State) :
    EndsFrom s (guarded checks s fun _ => finish (writeReg r v s)) :=
  endsFrom_guarded checks (endsFrom_finish_writeReg r v s)

theorem endsFrom_guarded_finishInsert (checks : List (Bool × FaultCode)) (r : Except FaultCode Facc) (s : State) :
    EndsFrom s (guarded checks s fun _ => finishInsert r s) :=
  endsFrom_guarded checks (endsFrom_finishInsert r s)

theorem endsFrom_guarded_finishRun {α : Type} (checks : List (Bool × FaultCode)) (r : Run α) (s : State) :
    EndsFrom s (guarded checks s fun _ => finishRun r s) :=
  endsFrom_guarded checks (endsFrom_finishRun r s)

/-- TDIV is the one command that writes a register and `FACC`. -/
theorem endsFrom_execTdiv (rd ra : Reg) (s : State) : EndsFrom s (execTdiv rd ra s) := by
  unfold execTdiv
  apply endsFrom_guarded
  cases tdiv s.params.tdCount (dwordOperand ra s) s.facc with
  | done r acc => exact endsFrom_finish (((DataOnly.refl s).setFacc acc).writeReg rd _)
  | fault code acc => exact ⟨_, rfl, .faults code acc⟩
  | hang => exact ⟨_, rfl, .never⟩

/-- Every command answers with a next state, in one of the three ends. -/
theorem exec_endsFrom (i : Instr) (s : State) : EndsFrom s (exec i s) := by
  cases i with
  | add2 rd ra rb => exact endsFrom_finish (((DataOnly.refl s).writeReg rd _).setFlags _)
  | sub2 rd ra rb => exact endsFrom_finish (((DataOnly.refl s).writeReg rd _).setFlags _)
  | cmp2 ra rb => exact endsFrom_finish ((DataOnly.refl s).setFlags _)
  | shl2 rd ra sh => exact endsFrom_finish_writeReg rd _ s
  | shr2 rd ra sh => exact endsFrom_finish_writeReg rd _ s
  | minv rd ra => exact endsFrom_guarded_writeReg _ rd _ s
  | tomont1 rd ra rn => exact endsFrom_guarded_writeReg _ rd _ s
  | tomont2 rd ra rn => exact endsFrom_guarded_writeReg _ rd _ s
  | mulredc1 rd ra rb rn ri => exact endsFrom_guarded_writeReg _ rd _ s
  | mulredc2 rd ra rb rn ri => exact endsFrom_guarded_writeReg _ rd _ s
  | powredc1 rd ra re rn ri ro => exact endsFrom_guarded_writeReg _ rd _ s
  | powredc2 rd ra re rn ri ro => exact endsFrom_guarded_writeReg _ rd _ s
  | tdiv rd ra => exact endsFrom_execTdiv rd ra s
  | mr1 rd rn rb => exact endsFrom_guarded_writeReg _ rd _ s
  | mr2 rd rn rb => exact endsFrom_guarded_writeReg _ rd _ s
  | prime1 rd rn => exact endsFrom_finishVerdict rd _ s
  | prime2 rd rn => exact endsFrom_finishVerdict rd _ s
  | isprime rd rn => exact endsFrom_finishVerdict rd _ s
  | gcd1 rd ra rb => exact endsFrom_guarded_writeReg _ rd _ s
  | gcd2 rd ra rb => exact endsFrom_guarded_writeReg _ rd _ s
  | rho1 rn a => exact endsFrom_guarded_finishRun _ _ s
  | rho2 rn a => exact endsFrom_guarded_finishRun _ _ s
  | factor rn => exact endsFrom_finishRun _ s
  | fclr => exact endsFrom_finish ((DataOnly.refl s).setFacc _)
  | fins ra m => exact endsFrom_guarded_finishInsert _ _ s
  | finsl ra => exact endsFrom_guarded_finishInsert _ _ s

/-- A value in `CMD` that is no command faults, so the engine, too, ends in one of the three ways. -/
theorem runCommand_endsFrom (s : State) : EndsFrom s (runCommand s) := by
  unfold runCommand
  cases decode s.cmd with
  | ok i => exact exec_endsFrom i s
  | error e => exact endsFrom_trap .illegal s

theorem CommandEnd.cmd_eq {s t : State} (h : CommandEnd s t) : t.cmd = s.cmd := by
  cases h with
  | completes h => exact h.cmd
  | faults code acc => rfl
  | never => rfl

theorem EndsFrom.commandEnd {s t : State} {r : Result} (h : EndsFrom s r) (hr : r = .next t) : CommandEnd s t := by
  obtain ⟨u, rfl, hu⟩ := h
  cases hr
  exact hu

end Sys2Proof.Machine
end

section
/-!
PROOFS. When the engine moves, and the host's accesses as `HostReads` and `HostWrites` state them
(spec/10_state.md R25, spec/20_memory.md R52, R53, R56).
-/
namespace Sys2Proof.Machine

/-- When the host does nothing, time passes. -/
theorem step_of_host_nil {s : State} (h : s.host = []) : step s = elapse s := by
  simp only [step, h]

theorem elapse_busy {s : State} (h : s.status.busy = true) : elapse s = runCommand s := by
  simp only [elapse, h, if_true]

theorem runCommand_of_decode {s : State} {i : Instr} (h : decode s.cmd = .ok i) : runCommand s = exec i s := by
  simp only [runCommand, h]

/-- No slot of the window shows the host's queue. -/
@[simp] theorem slotValue_withHost (slot : Slot) (s : State) (rest : List HostEvent) :
    slotValue slot { s with host := rest } = slotValue slot s := by
  cases slot <;> rfl

theorem hostReads_idle {off : Nat} (h8 : off % 8 = 0) (hlt : off < 0x800) {s : State} (hb : Idle s) :
    HostReads off s (slotValue (slotAt off) s) := by
  intro rest
  have hb' : ({ s with host := rest } : State).status.busy = false := hb
  rw [step_read hlt, hostRead_idle h8 hb', slotValue_withHost]

/-- `CMD` is no hidden slot (R57), so the host reads it at any time. -/
theorem hostReads_cmd (s : State) : HostReads 0x000 s s.cmd := by
  intro rest
  rw [step_read (by decide)]
  simp [hostRead, refusedAccess, slotAt, Slot.hiddenWhileBusy, slotValue]

theorem writeSlot_cmd_ready {s : State} (h : Ready s) (v : Word) : writeSlot .cmd v s = issue v s := by
  obtain ⟨-, herr, hfatal⟩ := h
  simp [writeSlot, herr, hfatal]

theorem writeSlot_cmd_error {s : State} (h : s.status.err = true ∨ s.status.fatal = true) (v : Word) :
    writeSlot .cmd v s = dropWrite s := by
  simp [writeSlot, h]

theorem hostWrite_cmd_ready {s : State} (h : Ready s) (v : Word) : hostWrite 0x000 8 v s = issue v s :=
  (hostWrite_idle rfl v h.1).trans (writeSlot_cmd_ready h v)

/-- A `CMD` write that is not taken is dropped, whether the engine runs (R56) or a fault is pending (R25). -/
theorem hostWrite_cmd_dropped {s : State} (h : ¬Ready s) (v : Word) : hostWrite 0x000 8 v s = dropWrite s := by
  cases hb : s.status.busy with
  | true => exact hostWrite_busy rfl (by decide) v hb
  | false =>
    have herr : s.status.err = true ∨ s.status.fatal = true := by
      by_contra hno
      simp only [not_or, Bool.not_eq_true] at hno
      exact h ⟨hb, hno⟩
    exact (hostWrite_idle rfl v hb).trans (writeSlot_cmd_error herr v)

/-- A write that does to the block what it does whatever the host has queued is the write of `HostWrites`. -/
theorem hostWrites_of_hostWrite {off : Nat} (hlt : off < 0x800) {v : Word} {s t : State}
    (h : ∀ rest, hostWrite off 8 v { s with host := rest } = { t with host := rest }) : HostWrites off v s t := by
  intro rest
  rw [step_write hlt, h rest]

theorem hostWrites_cmd_ready {s : State} (h : Ready s) (v : Word) : HostWrites 0x000 v s (issue v s) :=
  hostWrites_of_hostWrite (by decide) fun rest => hostWrite_cmd_ready (s := { s with host := rest }) h v

theorem hostWrites_cmd_dropped {s : State} (h : ¬Ready s) (v : Word) : HostWrites 0x000 v s (lostState s) :=
  hostWrites_of_hostWrite (by decide) fun rest => hostWrite_cmd_dropped (s := { s with host := rest }) h v

/-- With no host action to come, the step after the issue of a command runs that command. -/
theorem step_issue_encode {s : State} (hs : s.host = []) {i : Instr} (hi : WellFormed i) :
    step (issue (encode i) s) = exec i (issue (encode i) s) := by
  have hhost : (issue (encode i) s).host = [] := hs
  rw [step_of_host_nil hhost, elapse_busy rfl, runCommand_of_decode (decode_encode hi)]

/-- Every slot of the window reads 0 after reset (R35). -/
theorem slotValue_reset (slot : Slot) : slotValue slot State.reset = 0 := by
  cases slot with
  | regLo r => simp [slotValue, State.reset, readReg, loWord]
  | regHi r => simp [slotValue, State.reset, readReg, hiWord]
  | _ => rfl

end Sys2Proof.Machine
end

section
/-!
PROOFS. The statements of spec/10_state.md: the `CMD` register (R25) and the state after reset (R35).
-/
open Sys2Proof Sys2Proof.Machine

/-- Settles O7. Execution leaves `CMD` because it does in each of the three ends of a command. -/
theorem cmdWriteIssuesOrDrops : Obligations.CmdWriteIssuesOrDrops := by
  refine ⟨fun s v => ⟨fun h => hostWrites_cmd_ready h v, fun h => hostWrites_cmd_dropped h v, hostReads_cmd s⟩,
    fun s i hready _ hi => ?issuedRuns, fun i s t h => ((exec_endsFrom i s).commandEnd h).cmd_eq,
    fun s t hbusy hhost h => ?runKeepsCmd, rfl⟩
  case issuedRuns =>
    exact ⟨_, hostWrites_cmd_ready hready (encode i) [], step_issue_encode (s := { s with host := [] }) rfl hi⟩
  case runKeepsCmd =>
    rw [step_of_host_nil hhost, elapse_busy hbusy] at h
    exact ((runCommand_endsFrom s).commandEnd h).cmd_eq

/-- Settles O15. -/
theorem resetValues : Obligations.ResetValues := by
  refine ⟨fun r => by simp [State.reset], rfl, rfl, rfl, rfl, rfl, rfl, rfl, fun i _ => ⟨rfl, rfl⟩,
    fun off h8 hlt => ?_⟩
  have hread := hostReads_idle h8 hlt (s := State.reset) rfl
  rwa [slotValue_reset] at hread
end

section
/-!
PROOFS. The host's reads and writes of one slot as `HostReads` and `HostWrites` state them: of an idle engine by the
slot (spec/20_memory.md R53), of an unmapped offset (R55), and the writes that are dropped (R56).
-/
namespace Sys2Proof.Machine

/-- The map names offsets of the window only (R51). -/
theorem lt_of_mappedOffset {off : Nat} (h : MappedOffset off) : off < 0x800 := by
  unfold MappedOffset at h
  omega

/-! What the packed and the narrow slots hold, as one number. -/

theorem bitAt_eq_ofNat (b : Bool) (i : Nat) : bitAt b i = BitVec.ofNat 64 (2 ^ i * b.toNat) := by
  cases b <;> simp [bitAt]

/-- `STATUS` has a bit a field, in the order of R26. -/
theorem statusWord_eq_ofNat (st : Status) :
    statusWord st = BitVec.ofNat 64 (st.busy.toNat + 2 * st.done.toNat + 4 * st.err.toNat + 8 * st.fatal.toNat +
      16 * st.lost.toNat) := by
  obtain ⟨busy, done, err, fatal, lost⟩ := st
  revert busy done err fatal lost
  decide

theorem flagsWord_eq_ofNat (f : Flags) : flagsWord f = BitVec.ofNat 64 (f.c.toNat + 2 * f.z.toNat) := by
  obtain ⟨c, z⟩ := f
  revert c z
  decide

theorem loWord_eq_ofNat_mod (v : Dword) : loWord v = BitVec.ofNat 64 (v.toNat % 2 ^ 64) := by
  apply BitVec.eq_of_toNat_eq
  simp [loWord]

/-- A field of 8 bits is zero-extended. -/
theorem setWidth_eq_ofNat (e : BitVec 8) : e.setWidth 64 = BitVec.ofNat 64 e.toNat := by
  apply BitVec.eq_of_toNat_eq
  simp

/-! Reads and writes of an idle engine, by the slot at the offset. -/

theorem hostReads_slot {off : Nat} {slot : Slot} (hslot : slotAt off = slot) (h8 : off % 8 = 0) (hlt : off < 0x800)
    {s : State} (hb : Idle s) {v : Word} (hv : slotValue slot s = v) : HostReads off s v := by
  have hread := hostReads_idle h8 hlt hb
  rwa [hslot, hv] at hread

/-- No write depends on the host's queue or changes it. -/
theorem writeSlot_withHost (slot : Slot) (v : Word) (s : State) (rest : List HostEvent) :
    writeSlot slot v { s with host := rest } = { writeSlot slot v s with host := rest } := by
  cases slot with
  | cmd =>
    unfold writeSlot
    cases s.status.err || s.status.fatal <;> rfl
  | _ => rfl

theorem hostWrites_slot {off : Nat} {slot : Slot} (hslot : slotAt off = slot) (h8 : off % 8 = 0) (hlt : off < 0x800)
    {s : State} (hb : Idle s) (v : Word) : HostWrites off v s (writeSlot slot v s) :=
  hostWrites_of_hostWrite hlt fun rest => by
    rw [hostWrite_idle h8 v (s := { s with host := rest }) hb, hslot, writeSlot_withHost]

/-! Accesses without effect. -/

/-- The slot of an unmapped offset is hidden by no running command (R57). -/
theorem hostReads_unmapped {off : Nat} (h8 : off % 8 = 0) (hlt : off < 0x800) (hu : ¬MappedOffset off) (s : State) :
    HostReads off s 0 := by
  intro rest
  rw [step_read hlt]
  simp [hostRead, refusedAccess_aligned h8, slotAt_unmapped hu, Slot.hiddenWhileBusy, slotValue]

/-- A running command does not make the write of an unmapped offset one that sets `LOST`. -/
theorem hostWrites_unmapped {off : Nat} (h8 : off % 8 = 0) (hlt : off < 0x800) (hu : ¬MappedOffset off) (s : State)
    (v : Word) : HostWrites off v s s :=
  hostWrites_of_hostWrite hlt fun rest => by
    simp [hostWrite, refusedAccess_aligned h8, slotAt_unmapped hu, writeSlot]

theorem hostWrites_busy {off : Nat} (h8 : off % 8 = 0) (hm : MappedOffset off) {s : State}
    (hb : s.status.busy = true) (v : Word) : HostWrites off v s (lostState s) :=
  hostWrites_of_hostWrite (lt_of_mappedOffset hm) fun rest => hostWrite_busy (s := { s with host := rest }) h8 hm v hb

/-- `FLAGS`, `ECAUSE` and the slots of `FACC` are the read-only ones (R53). -/
theorem hostWrites_readOnly {off : Nat} (h8 : off % 8 = 0) (hm : MappedOffset off)
    (hro : off = 0x018 ∨ off = 0x020 ∨ 0x200 ≤ off) {s : State} (hb : Idle s) (v : Word) :
    HostWrites off v s (lostState s) := by
  have hwrite := hostWrites_slot rfl h8 (lt_of_mappedOffset hm) hb v
  rwa [writeSlot_readOnly h8 hm hro] at hwrite

/-! The rows of the map that are families: registers and the table of `FACC`. -/

section Families
variable {s : State} (hb : Idle s)
include hb

theorem hostReads_regLo (i : Reg) :
    HostReads (0x100 + 16 * i.val) s (BitVec.ofNat 64 (fullValue i s % 2 ^ 64)) :=
  hostReads_slot (slotAt_regLo i) (by omega) (by omega) hb (loWord_eq_ofNat_mod _)

theorem hostReads_regHi (i : Reg) :
    HostReads (0x108 + 16 * i.val) s (BitVec.ofNat 64 (fullValue i s / 2 ^ 64)) :=
  hostReads_slot (slotAt_regHi i) (by omega) (by omega) hb rfl

theorem hostReads_primeSlot {i : Nat} (hi : i < 26) : HostReads (0x400 + 8 * i) s (s.facc.primeSlot i) :=
  hostReads_slot (slotAt_primeSlot hi) (by omega) (by omega) hb rfl

theorem hostReads_multSlot {i : Nat} (hi : i < 26) :
    HostReads (0x600 + 8 * i) s (BitVec.ofNat 64 (s.facc.multSlot i).toNat) :=
  hostReads_slot (slotAt_multSlot hi) (by omega) (by omega) hb (setWidth_eq_ofNat _)

theorem hostWrites_regLo (i : Reg) (v : Word) :
    HostWrites (0x100 + 16 * i.val) v s (writeReg i (pair (hiWord (readReg i s)) v) s) :=
  hostWrites_slot (slotAt_regLo i) (by omega) (by omega) hb v

theorem hostWrites_regHi (i : Reg) (v : Word) :
    HostWrites (0x108 + 16 * i.val) v s (writeReg i (pair v (loWord (readReg i s))) s) :=
  hostWrites_slot (slotAt_regHi i) (by omega) (by omega) hb v

end Families

end Sys2Proof.Machine
end

section
/-!
PROOFS. The statements of spec/20_memory.md on the register map: what each offset reads and takes (R53), unmapped
offsets (R55), and dropped writes (R56).
-/
open Sys2Proof Sys2Proof.Machine

/-- Settles O10, row by row: the reads of R53, then the writes. -/
theorem registerMap : Obligations.RegisterMap := by
  intro s hb
  refine ⟨hostReads_cmd s, ?status, ?ctrl, ?flags, ?ecause, fun i => ⟨hostReads_regLo hb i, hostReads_regHi hb i⟩,
    ?nf, ?plargeLo, ?plargeHi, fun i hi => ⟨hostReads_primeSlot hb hi, hostReads_multSlot hb hi⟩,
    fun off h8 hlt hu => ⟨hostReads_unmapped h8 hlt hu s, hostWrites_unmapped h8 hlt hu s⟩,
    fun i v => ⟨hostWrites_regLo hb i v, hostWrites_regHi hb i v⟩, ?ctrlWrite, fun v => ⟨?cmdWrite, ?statusWrite⟩,
    fun off h8 hm hro => hostWrites_readOnly h8 hm hro hb⟩
  case status => exact hostReads_slot rfl rfl (by decide) hb (statusWord_eq_ofNat s.status)
  case ctrl => exact hostReads_slot rfl rfl (by decide) hb ((bitAt_eq_ofNat s.prove 0).trans (by simp))
  case flags => exact hostReads_slot rfl rfl (by decide) hb (flagsWord_eq_ofNat s.flags)
  case ecause => exact hostReads_slot rfl rfl (by decide) hb (setWidth_eq_ofNat s.ecause)
  case nf => exact hostReads_slot rfl rfl (by decide) hb rfl
  case plargeLo => exact hostReads_slot rfl rfl (by decide) hb (loWord_eq_ofNat_mod s.facc.plarge)
  case plargeHi => exact hostReads_slot rfl rfl (by decide) hb rfl
  case ctrlWrite => exact hostWrites_slot (slot := .ctrl) rfl rfl (by decide) hb
  case cmdWrite => exact fun herr hfatal => ⟨_, hostWrites_cmd_ready ⟨hb, herr, hfatal⟩ v, rfl⟩
  case statusWrite => exact ⟨_, hostWrites_slot (slot := .status) rfl rfl (by decide) hb v, rfl⟩

/-- Settles O11. -/
theorem writesDroppedWithLost : Obligations.WritesDroppedWithLost := by
  intro s v
  refine ⟨fun hb off h8 hm => hostWrites_busy h8 hm hb v, fun hb off h8 hm hro => hostWrites_readOnly h8 hm hro hb v,
    fun h => hostWrites_cmd_dropped h v, fun h => ⟨issue v s, hostWrites_cmd_ready h v, ?_, ?_⟩⟩
  · exact issue_cmd v s
  · rw [issue_status]

/-- Settles O12. -/
theorem unmappedOffsetsAreInert : Obligations.UnmappedOffsetsAreInert :=
  fun s _ h8 hlt hu => ⟨hostReads_unmapped h8 hlt hu s, hostWrites_unmapped h8 hlt hu s⟩
end

section
/-!
PROOFS. The decoder against the match and mask columns of the opcode table (spec/30_encoding.md R74, R76), and the step
of a running engine whose `CMD` holds no command (R70).
-/
namespace Sys2Proof

/-- The word `c` selects a row of the opcode table (R74). -/
def MatchesTable (c : Nat) : Prop := ∃ row ∈ opcodeTable, c &&& row.mask = row.matchBits

/-- Every mask of the table covers the `l` low bits and the bits from `k` up, so a word selects the row when its low
bits are the match and nothing stands from bit `k` up. -/
theorem and_mask_eq_iff {l k mask c op : Nat} (hmask : mask = 2 ^ k * (2 ^ (32 - k) - 1) + (2 ^ l - 1)) (hlk : l ≤ k)
    (hk : k ≤ 32) (hc : c < 0x100000000) (hop : op < 2 ^ l) :
    c &&& mask = op ↔ c % 2 ^ l = op ∧ c / 2 ^ k = 0 := by
  have hpow : 2 ^ l ≤ 2 ^ k := Nat.pow_le_pow_right (by decide) hlk
  have hlow : 2 ^ l - 1 < 2 ^ k := by omega
  have hop' : op < 2 ^ k := hop.trans_le hpow
  have hhigh : c / 2 ^ k < 2 ^ (32 - k) := by
    rw [Nat.div_lt_iff_lt_mul (by positivity), ← pow_add, Nat.sub_add_cancel hk]
    exact hc
  have hmod : (c &&& mask) % 2 ^ k = c % 2 ^ l := by
    rw [Nat.and_mod_two_pow, hmask, Nat.mul_add_mod, Nat.mod_eq_of_lt hlow, Nat.and_two_pow_sub_one_eq_mod,
      Nat.mod_mod_of_dvd c (pow_dvd_pow 2 hlk)]
  have hdiv : (c &&& mask) / 2 ^ k = c / 2 ^ k := by
    rw [Nat.and_div_two_pow, hmask, Nat.mul_add_div (by positivity), Nat.div_eq_of_lt hlow, Nat.add_zero,
      Nat.and_two_pow_sub_one_of_lt_two_pow hhigh]
  constructor
  · intro h
    exact ⟨by rw [← hmod, h, Nat.mod_eq_of_lt hop'], by rw [← hdiv, h, Nat.div_eq_of_lt hop']⟩
  · rintro ⟨hl, hz⟩
    rw [← Nat.div_add_mod (c &&& mask) (2 ^ k), hmod, hdiv, hl, hz, Nat.mul_zero, Nat.zero_add]

/-! The masks of the table, one for each set of reserved bits. -/

section Masks
variable {c op : Nat} (hc : c < 0x100000000) (hop : op < 0x100)
include hc hop

theorem and_maskR3_iff : c &&& 0xFFF000FF = op ↔ c % 0x100 = op ∧ c / 0x100000 = 0 :=
  and_mask_eq_iff (l := 8) (k := 20) rfl (by decide) (by decide) hc hop

theorem and_maskR2_iff : c &&& 0xFFFF00FF = op ↔ c % 0x100 = op ∧ c / 0x10000 = 0 :=
  and_mask_eq_iff (l := 8) (k := 16) rfl (by decide) (by decide) hc hop

theorem and_maskR5_iff : c &&& 0xF00000FF = op ↔ c % 0x100 = op ∧ c / 0x10000000 = 0 :=
  and_mask_eq_iff (l := 8) (k := 28) rfl (by decide) (by decide) hc hop

theorem and_maskS_iff : c &&& 0xFF8000FF = op ↔ c % 0x100 = op ∧ c / 0x800000 = 0 :=
  and_mask_eq_iff (l := 8) (k := 23) rfl (by decide) (by decide) hc hop

/-- POWREDC1 and POWREDC2 use all six slots. -/
theorem and_maskOpcode_iff : c &&& 0x000000FF = op ↔ c % 0x100 = op := by
  rw [and_mask_eq_iff (l := 8) (k := 32) (mask := 0x000000FF) rfl (by decide) (by decide) hc hop]
  omega

/-- FCLR uses no slot. -/
theorem and_maskAll_iff : c &&& 0xFFFFFFFF = op ↔ c % 0x100 = op ∧ c / 0x100 = 0 :=
  and_mask_eq_iff (l := 8) (k := 8) rfl (by decide) (by decide) hc hop

/-! Where `s1` is reserved, the mask's low bits are the opcode and that slot. -/

theorem and_maskI_iff : c &&& 0xFF000FFF = op ↔ c % 0x100 = op ∧ c / 0x1000000 = 0 ∧ c / 0x100 % 0x10 = 0 := by
  rw [and_mask_eq_iff (l := 12) (k := 24) (mask := 0xFF000FFF) rfl (by decide) (by decide) hc (by omega)]
  omega

theorem and_maskRS2_iff : c &&& 0xFFFF0FFF = op ↔ c % 0x100 = op ∧ c / 0x10000 = 0 ∧ c / 0x100 % 0x10 = 0 := by
  rw [and_mask_eq_iff (l := 12) (k := 16) (mask := 0xFFFF0FFF) rfl (by decide) (by decide) hc (by omega)]
  omega

theorem and_maskCmp_iff : c &&& 0xFFF00FFF = op ↔ c % 0x100 = op ∧ c / 0x100000 = 0 ∧ c / 0x100 % 0x10 = 0 := by
  rw [and_mask_eq_iff (l := 12) (k := 20) (mask := 0xFFF00FFF) rfl (by decide) (by decide) hc (by omega)]
  omega

end Masks

/-! When each format is accepted. -/

section Formats
variable {c : Nat} {i j : Instr}

@[simp] theorem accept_eq_ok_iff {b : Bool} {op : Nat} : accept b op i = .ok j ↔ b = true ∧ i = j := by
  cases b <;> simp [accept]

@[simp] theorem decodeR3_eq_ok_iff : decodeR3 c i = .ok j ↔ c / 0x100000 = 0 ∧ i = j := by
  rw [decodeR3, accept_eq_ok_iff, beq_iff_eq]

@[simp] theorem decodeR2_eq_ok_iff : decodeR2 c i = .ok j ↔ c / 0x10000 = 0 ∧ i = j := by
  rw [decodeR2, accept_eq_ok_iff, beq_iff_eq]

@[simp] theorem decodeR5_eq_ok_iff : decodeR5 c i = .ok j ↔ c / 0x10000000 = 0 ∧ i = j := by
  rw [decodeR5, accept_eq_ok_iff, beq_iff_eq]

@[simp] theorem decodeS_eq_ok_iff : decodeS c i = .ok j ↔ c / 0x800000 = 0 ∧ i = j := by
  rw [decodeS, accept_eq_ok_iff, beq_iff_eq]

@[simp] theorem decodeRS2_eq_ok_iff :
    decodeRS2 c i = .ok j ↔ (c / 0x10000 = 0 ∧ c / 0x100 % 0x10 = 0) ∧ i = j := by
  rw [decodeRS2, accept_eq_ok_iff, Bool.and_eq_true, beq_iff_eq, beq_iff_eq]

@[simp] theorem decodeI_eq_ok_iff :
    decodeI c i = .ok j ↔ (c / 0x1000000 = 0 ∧ c / 0x100 % 0x10 = 0) ∧ i = j := by
  rw [decodeI, accept_eq_ok_iff, Bool.and_eq_true, beq_iff_eq, beq_iff_eq]

end Formats

/-- The table becomes conditions on the opcode byte and the reserved bits: an opcode byte of the table leaves one row,
whose condition is that of the decoder's format, and any other byte (the last case) leaves none. -/
theorem exists_decodeWord_iff {c : Nat} (hc : c < 0x100000000) :
    (∃ i, decodeWord c = .ok i) ↔ MatchesTable c := by
  simp only [MatchesTable, opcodeTable, List.cons_append, List.nil_append, List.mem_cons, List.not_mem_nil, or_false,
    exists_eq_or_imp, exists_eq_left]
  simp only [and_maskR3_iff hc, and_maskR2_iff hc, and_maskR5_iff hc, and_maskS_iff hc, and_maskOpcode_iff hc,
    and_maskAll_iff hc, and_maskI_iff hc, and_maskRS2_iff hc, and_maskCmp_iff hc, Nat.reduceLT]
  unfold decodeWord
  split
  case h_27 => simp_all
  all_goals simp [*]

/-- The values that are commands: high half zero (R70), low half in the table (R76). -/
theorem exists_decode_iff (v : Word) : (∃ i, decode v = .ok i) ↔ v.toNat < 0x100000000 ∧ MatchesTable v.toNat := by
  by_cases hv : v.toNat < 0x100000000
  · rw [decode, if_pos (Nat.div_eq_of_lt hv), exists_decodeWord_iff hv, and_iff_right hv]
  · rw [decode, if_neg (by omega)]
    simp [hv]

namespace Machine

theorem step_of_host_elapse {s : State} {rest : List HostEvent} (h : s.host = .elapse :: rest) :
    step s = elapse { s with host := rest } := by
  simp only [step, h, hostStep]

theorem elapse_of_not_decodes {s : State} (hb : s.status.busy = true) (h : ¬∃ i, decode s.cmd = .ok i) :
    elapse s = .next (raiseFault .illegal s) := by
  rw [elapse_busy hb, runCommand]
  split
  case h_1 i hi => exact absurd ⟨i, hi⟩ h
  case h_2 => rfl

end Machine
end Sys2Proof
end

section
/-!
PROOFS. The statement of spec/30_encoding.md on the values that are no command (R76).
-/
open Sys2Proof Sys2Proof.Machine

/-- Settles O5: a value with a high half or outside the table does not decode, and every other value does. -/
theorem unlistedValuesRaiseIllegal : Obligations.UnlistedValuesRaiseIllegal := by
  refine ⟨fun s hb hv => ?_, by decide, fun v hlt hrow => (exists_decode_iff v).mpr ⟨hlt, hrow⟩⟩
  have hno : ¬∃ i, decode s.cmd = .ok i := by
    rw [exists_decode_iff]
    rintro ⟨hlt, row, hrow, heq⟩
    rcases hv with hhigh | hunlisted
    · omega
    · exact hunlisted row hrow heq
  constructor
  · intro hhost
    rw [step_of_host_nil hhost, elapse_of_not_decodes hb hno]
  · intro rest hhost
    rw [step_of_host_elapse hhost, elapse_of_not_decodes (s := { s with host := rest }) hb hno]
end

section
/-!
PROOFS. The word-by-word arithmetic of spec/40_doubleword.md as arithmetic of the 128-bit values: the words of a value
(R9), the sum and its carry (R101), the difference and its borrow (R102), the compare (R103), the shifts (R105, R106).
-/
namespace Sys2Proof

/-! ### A two-word value and its words (R9), as numbers and bit by bit -/

@[simp] theorem toNat_loWord (v : Dword) : (loWord v).toNat = v.toNat % 2 ^ 64 := by
  simp [loWord]

@[simp] theorem toNat_hiWord (v : Dword) : (hiWord v).toNat = v.toNat / 2 ^ 64 := by
  simp only [hiWord, BitVec.toNat_ofNat]
  omega

@[simp] theorem toNat_pair (hi lo : Word) : (pair hi lo).toNat = hi.toNat * 2 ^ 64 + lo.toNat := by
  simp only [pair, BitVec.toNat_ofNat]
  omega

theorem pair_eq_append (hi lo : Word) : pair hi lo = hi ++ lo := by
  apply BitVec.eq_of_toNat_eq
  rw [toNat_pair, BitVec.toNat_append, Nat.mul_comm, Nat.two_pow_add_eq_or_of_lt lo.isLt, Nat.shiftLeft_eq,
    Nat.mul_comm]

theorem getLsbD_pair (hi lo : Word) (i : Nat) :
    (pair hi lo).getLsbD i = if i < 64 then lo.getLsbD i else hi.getLsbD (i - 64) := by
  rw [pair_eq_append, BitVec.getLsbD_append]

theorem getLsbD_loWord (v : Dword) (i : Nat) : (loWord v).getLsbD i = (decide (i < 64) && v.getLsbD i) := by
  simp only [BitVec.getLsbD, toNat_loWord, Nat.testBit_mod_two_pow]

theorem getLsbD_hiWord (v : Dword) (i : Nat) : (hiWord v).getLsbD i = v.getLsbD (i + 64) := by
  simp only [BitVec.getLsbD, toNat_hiWord, Nat.testBit_div_two_pow]

/-- A value is the pair of two words when its low bits are those of the one and its high bits those of the other. -/
theorem pair_eq_of_bits {hi lo : Word} {v : Dword} (hlo : ∀ i < 64, lo.getLsbD i = v.getLsbD i)
    (hhi : ∀ i < 64, hi.getLsbD i = v.getLsbD (i + 64)) : pair hi lo = v := by
  apply BitVec.eq_of_getLsbD_eq
  intro i hi
  rw [getLsbD_pair]
  split_ifs with hlow
  · exact hlo i hlow
  · rw [hhi (i - 64) (by omega), Nat.sub_add_cancel (by omega)]

end Sys2Proof

namespace Sys2Proof.Machine

/-! ### Sum, difference and compare -/

/-- The carry of the low words links the two word sums into one sum of the 128-bit values (R101). -/
theorem add2Words_eq (a b : Dword) :
    add2Words a b = (BitVec.ofNat 128 (a.toNat + b.toNat), (a.toNat + b.toNat) / 2 ^ 128) := by
  refine Prod.ext (BitVec.eq_of_toNat_eq ?_) ?_
  · simp only [add2Words, addCarry, Config.base, toNat_pair, toNat_loWord, toNat_hiWord, BitVec.toNat_ofNat]
    omega
  · simp only [add2Words, addCarry, Config.base, toNat_loWord, toNat_hiWord]
    omega

/-- The borrow of the low words links the two word differences into one difference of the 128-bit values (R102). -/
theorem sub2Words_eq (a b : Dword) :
    sub2Words a b = (BitVec.ofNat 128 (a.toNat + 2 ^ 128 - b.toNat), if a.toNat < b.toNat then 1 else 0) := by
  refine Prod.ext (BitVec.eq_of_toNat_eq ?_) ?_
  · simp only [sub2Words, subBorrow, Config.base, toNat_pair, toNat_loWord, toNat_hiWord, BitVec.toNat_ofNat]
    split_ifs <;> omega
  · simp only [sub2Words, subBorrow, toNat_loWord, toNat_hiWord]
    split_ifs <;> omega

theorem arithFlags_add2Words (a b : Dword) : arithFlags (add2Words a b) =
    { c := decide (2 ^ 128 ≤ a.toNat + b.toNat), z := decide ((a.toNat + b.toNat) % 2 ^ 128 = 0) } := by
  have hc : (a.toNat + b.toNat) / 2 ^ 128 = 1 ↔ 2 ^ 128 ≤ a.toNat + b.toNat := by omega
  have hz : BitVec.ofNat 128 (a.toNat + b.toNat) = 0 ↔ (a.toNat + b.toNat) % 2 ^ 128 = 0 := by
    rw [← BitVec.toNat_inj, BitVec.toNat_ofNat, BitVec.ofNat_eq_ofNat, BitVec.toNat_zero]
  simp only [arithFlags, add2Words_eq, hc, hz]

theorem arithFlags_sub2Words (a b : Dword) : arithFlags (sub2Words a b) =
    { c := decide (a.toNat < b.toNat), z := decide (a.toNat = b.toNat) } := by
  have hc : (if a.toNat < b.toNat then 1 else 0) = 1 ↔ a.toNat < b.toNat := by simp
  have hz : BitVec.ofNat 128 (a.toNat + 2 ^ 128 - b.toNat) = 0 ↔ a.toNat = b.toNat := by
    rw [← BitVec.toNat_inj, BitVec.toNat_ofNat, BitVec.ofNat_eq_ofNat, BitVec.toNat_zero]
    omega
  simp only [arithFlags, sub2Words_eq, hc, hz]

/-- The words compare as the digits of a number do: the high words decide unless they are equal (R103). -/
theorem compareFlags_eq (a b : Dword) :
    compareFlags a b = { c := decide (a.toNat < b.toNat), z := decide (a.toNat = b.toNat) } := by
  have hlt : (a.toNat / 2 ^ 64 < b.toNat / 2 ^ 64 ∨
      a.toNat / 2 ^ 64 = b.toNat / 2 ^ 64 ∧ a.toNat % 2 ^ 64 < b.toNat % 2 ^ 64) ↔ a.toNat < b.toNat := by omega
  have heq : (a.toNat / 2 ^ 64 = b.toNat / 2 ^ 64 ∧ a.toNat % 2 ^ 64 = b.toNat % 2 ^ 64) ↔ a.toNat = b.toNat := by
    omega
  simp only [compareFlags, ← BitVec.toNat_inj, toNat_loWord, toNat_hiWord, ← Bool.decide_and, ← Bool.decide_or, hlt,
    heq]

/-- R103: a compare sets the flags a subtract of the same values sets. -/
theorem compareFlags_eq_arithFlags_sub2Words (a b : Dword) : compareFlags a b = arithFlags (sub2Words a b) := by
  rw [compareFlags_eq, arithFlags_sub2Words]

/-! ### Shifts

Bit by bit: `pair_eq_of_bits` leaves a goal for the low and one for the high word of each branch. Only
below 64 do two words meet in one, and there the bit index decides which of the two a bit comes from. -/

/-- Each word of a shift left takes its bits from `sh` places below (R105). -/
theorem shl2Words_eq_shiftLeft (a : Dword) (sh : Nat) : shl2Words a sh = a <<< sh := by
  unfold shl2Words
  split_ifs with hzero hshort hword
  · rw [hzero, BitVec.shiftLeft_zero]
  all_goals
    refine pair_eq_of_bits (fun i hi => ?_) (fun i hi => ?_) <;>
      simp only [BitVec.getLsbD_or, BitVec.getLsbD_shiftLeft, BitVec.getLsbD_ushiftRight, getLsbD_loWord,
        getLsbD_hiWord, BitVec.ofNat_eq_ofNat, BitVec.getLsbD_zero]
  -- `0 < sh < 64`: the low word's top `sh` bits come in below the high word's.
  · grind
  · by_cases hlow : i < sh <;> grind
  -- `sh = 64`
  · grind
  · grind
  -- `64 < sh`
  · grind
  · grind

/-- Each word of a logical shift right takes its bits from `sh` places above (R106). -/
theorem shr2Words_eq_ushiftRight (a : Dword) (sh : Nat) : shr2Words a sh = a >>> sh := by
  unfold shr2Words
  split_ifs with hzero hshort hword
  · rw [hzero, BitVec.ushiftRight_zero]
  all_goals
    refine pair_eq_of_bits (fun i hi => ?_) (fun i hi => ?_) <;>
      simp only [BitVec.getLsbD_or, BitVec.getLsbD_shiftLeft, BitVec.getLsbD_ushiftRight, getLsbD_loWord,
        getLsbD_hiWord, BitVec.ofNat_eq_ofNat, BitVec.getLsbD_zero]
  -- `0 < sh < 64`: the high word's bottom `sh` bits come in above the low word's.
  · by_cases hlow : sh + i < 64 <;> grind
  · grind
  -- `sh = 64`
  · grind
  · grind
  -- `64 < sh`
  · grind
  · grind

theorem shl2Words_eq (a : Dword) (sh : Nat) : shl2Words a sh = BitVec.ofNat 128 (a.toNat * 2 ^ sh % 2 ^ 128) := by
  rw [shl2Words_eq_shiftLeft]
  apply BitVec.eq_of_toNat_eq
  simp [Nat.shiftLeft_eq]

theorem shr2Words_eq (a : Dword) (sh : Nat) : shr2Words a sh = BitVec.ofNat 128 (a.toNat / 2 ^ sh) := by
  rw [shr2Words_eq_ushiftRight]
  apply BitVec.eq_of_toNat_eq
  rw [BitVec.toNat_ushiftRight, BitVec.toNat_ofNat, Nat.shiftRight_eq_div_pow,
    Nat.mod_eq_of_lt ((Nat.div_le_self _ _).trans_lt a.isLt)]

/-! ### The command word -/

/-- The word of a well-formed command decodes to that command, however the word is written. -/
theorem encodedAs_of_encodeWord {i : Instr} {w : Nat} (h : WellFormed i) (hw : encodeWord i = w) : EncodedAs i w :=
  hw ▸ decode_encode h

end Sys2Proof.Machine
end

section
/-!
PROOFS. The statements of spec/40_doubleword.md (R101 to R106).
-/
open Sys2Proof Sys2Proof.Machine

/-- Settles O19. The carry out of the two word sums is the quotient of the sum by `2^128`, 0 or 1. -/
theorem add2Result : Obligations.Add2Result := by
  intro rd ra rb s
  refine ⟨encodedAs_of_encodeWord rfl (packImm_eq_packSlots ..).symm, ?_⟩
  simp only [exec, execAdd2, arithFlags_add2Words]
  rw [add2Words_eq]
  rfl

/-- Settles O20. The borrow out of the two word differences is the comparison of the sources. -/
theorem sub2Result : Obligations.Sub2Result := by
  intro rd ra rb s
  refine ⟨encodedAs_of_encodeWord rfl (packImm_eq_packSlots ..).symm, ?_⟩
  simp only [exec, execSub2, arithFlags_sub2Words]
  rw [sub2Words_eq]
  rfl

/-- Settles O21. -/
theorem cmp2Result : Obligations.Cmp2Result := by
  intro ra rb s
  refine ⟨encodedAs_of_encodeWord rfl ?word, ?nextState,
    fun rd => ⟨_, _, rfl, rfl, compareFlags_eq_arithFlags_sub2Words _ _⟩⟩
  case word => simp [encodeWord, packSlots]
  case nextState =>
    simp only [exec, execCmp2, compareFlags_eq]
    rfl

/-- Settles O22: the word-by-word shift is the shift of the 128-bit value. -/
theorem shl2Result : Obligations.Shl2Result := by
  refine fun rd ra sh s => ⟨fun hsh => encodedAs_of_encodeWord (decide_eq_true hsh) rfl, fun _ => ?_⟩
  simp only [exec, execShl2, shl2Words_eq]
  rfl

/-- Settles O23: the word-by-word shift is the shift of the 128-bit value. -/
theorem shr2Result : Obligations.Shr2Result := by
  refine fun rd ra sh s => ⟨fun hsh => encodedAs_of_encodeWord (decide_eq_true hsh) rfl, fun _ => ?_⟩
  simp only [exec, execShr2, shr2Words_eq]
  rfl
end

section
/-!
PROOFS. What commands with checks share, in the words of the statements: operands, each check of a command
(spec/60_exceptions.md R205), and the state a result leaves (spec/10_state.md R21).
-/
namespace Sys2Proof.Machine

theorem base_eq : Config.base = 2 ^ 64 := by norm_num [Config.base]

/-! ### Operands

`(rfl)` keeps simp from using an equation as a definitional one, which would leave the deciders of a command's checks
as they are and keep the rules on checks below from matching. -/

theorem wordOperand_eq_lowWord (r : Reg) (s : State) : wordOperand r s = lowWord r s := toNat_loWord _

theorem dwordOperand_eq_fullValue (r : Reg) (s : State) : dwordOperand r s = fullValue r s := (rfl)

theorem lowWord_lt (r : Reg) (s : State) : lowWord r s < Config.base := Nat.mod_lt _ (by decide)

theorem lowWord_eq_fullValue_mod (r : Reg) (s : State) : lowWord r s = fullValue r s % Config.base := (rfl)

/-! ### Checks -/

section Checks
variable (rest : List (Bool × FaultCode)) (s : State) (go : Unit → Result)

theorem guarded_nil : guarded [] s go = go () := rfl

/-- The first check fails, and its fault is taken, or it holds and the other checks decide (R205). -/
theorem guarded_cons {ok fails : Prop} [Decidable ok] [Decidable fails] (h : ok ↔ ¬fails) (code : FaultCode) :
    guarded ((decide ok, code) :: rest) s go =
      if fails then .next (raiseFault code s) else guarded rest s go := by
  by_cases hf : fails
  · rw [if_pos hf, decide_eq_false (fun hok => h.mp hok hf)]
    rfl
  · rw [if_neg hf, decide_eq_true (h.mpr hf)]
    rfl

theorem guarded_even (n : Nat) : guarded ((decide (n % 2 = 1), .even) :: rest) s go =
    if n % 2 = 0 then .next (raiseFault .even s) else guarded rest s go :=
  guarded_cons rest s go Nat.mod_two_ne_zero.symm .even

theorem guarded_topBit (n : Nat) : guarded ((decide (n < Config.topBit), .topBit) :: rest) s go =
    if 2 ^ 127 ≤ n then .next (raiseFault .topBit s) else guarded rest s go :=
  guarded_cons rest s go not_le.symm .topBit

theorem guarded_range (x n : Nat) : guarded ((decide (x < n), .range) :: rest) s go =
    if n ≤ x then .next (raiseFault .range s) else guarded rest s go :=
  guarded_cons rest s go not_le.symm .range

theorem guarded_range_pair (a b n : Nat) : guarded ((decide (a < n ∧ b < n), .range) :: rest) s go =
    if n ≤ a ∨ n ≤ b then .next (raiseFault .range s) else guarded rest s go :=
  guarded_cons rest s go (by rw [not_or, not_le, not_le]) .range

theorem guarded_inv (p : Nat) : guarded ((decide (p % Config.base = 1), .inv) :: rest) s go =
    if p % 2 ^ 64 ≠ 1 then .next (raiseFault .inv s) else guarded rest s go :=
  guarded_cons rest s go not_not.symm .inv

end Checks

/-! ### Results -/

theorem finish_writeDword (rd : Reg) (v : Nat) (s : State) :
    finish (writeDword rd v s) = .next (resultState rd v s) := rfl

theorem finish_writeWord {v : Nat} (hv : v < Config.base) (rd : Reg) (s : State) :
    finish (writeWord rd v s) = .next (resultState rd v s) := by
  have hpair : pair 0 (BitVec.ofNat 64 v) = BitVec.ofNat 128 v := by
    apply BitVec.eq_of_toNat_eq
    have hzero : (0 : Word).toNat = 0 := rfl
    rw [base_eq] at hv
    simp only [toNat_pair, BitVec.toNat_ofNat, hzero]
    omega
  rw [writeWord, hpair]
  rfl

end Sys2Proof.Machine
end

section
/-!
PROOFS. The modular reduction layer of spec/41_modular.md as arithmetic: the Newton inverse (R110), conversion by
doublings (R112, R113), and word-level REDC on signed integers, from which both Montgomery products follow (R114, R116).
-/
namespace Sys2Proof.Machine

/-! ### The inverse of a word (R110) -/

/-- The error `1 - n * v` of an approximate inverse squares, so its zero low bits double. -/
theorem one_sub_mul_newtonStep (n v : Word) : 1 - n * newtonStep n v = (1 - n * v) ^ 2 := by
  unfold newtonStep
  ring

/-- The rule of R32 for the table's 128 entries. -/
theorem seedTable_inverts : ∀ j < 128, (2 * j + 1) * seedTable.getD j 0 % 256 = 1 := by decide

/-- The seed inverts an odd word in its low 8 bits. -/
theorem dvd_one_sub_mul_seed {n : Word} (hn : n.toNat % 2 = 1) :
    2 ^ 8 ∣ 1 - n * BitVec.ofNat 64 (seedTable.getD (n.toNat / 2 % 128) 0) := by
  have hseed := seedTable_inverts (n.toNat / 2 % 128) (Nat.mod_lt _ (by norm_num))
  have hlow : 2 * (n.toNat / 2 % 128) + 1 = n.toNat % 256 := by omega
  rw [hlow, Nat.mod_mul_mod] at hseed
  generalize seedTable.getD (n.toNat / 2 % 128) 0 = v at hseed ⊢
  have hprod : n * BitVec.ofNat 64 v = 2 ^ 8 * BitVec.ofNat 64 (n.toNat * v / 256) + 1 := by
    apply BitVec.eq_of_toNat_eq
    have hshift : (2 ^ 8 : Word).toNat = 256 := rfl
    have hone : (1 : Word).toNat = 1 := rfl
    simp only [BitVec.toNat_add, BitVec.toNat_mul, BitVec.toNat_ofNat, Nat.mul_mod_mod, Nat.mod_add_mod, hshift, hone]
    omega
  exact ⟨-BitVec.ofNat 64 (n.toNat * v / 256), by rw [hprod]; ring⟩

/-- Three Newton steps raise the 8 bits of the seed to 64. -/
theorem mul_inv64 {n : Word} (hn : n.toNat % 2 = 1) : n * inv64 n = 1 := by
  obtain ⟨c, hc⟩ := dvd_one_sub_mul_seed hn
  have herr : 1 - n * inv64 n = 2 ^ 64 * c ^ 8 := by
    rw [inv64, one_sub_mul_newtonStep, one_sub_mul_newtonStep, one_sub_mul_newtonStep, hc]
    ring
  have hbase : (2 ^ 64 : Word) = 0 := by grind
  rw [hbase, zero_mul, sub_eq_zero] at herr
  exact herr.symm

theorem inverseOf_lt (n : Nat) : inverseOf n < Config.base := (inv64 _).isLt

theorem mul_inverseOf {n : Nat} (hn : n % 2 = 1) : n * inverseOf n % Config.base = 1 := by
  have hodd : (BitVec.ofNat 64 n).toNat % 2 = 1 := by
    rw [BitVec.toNat_ofNat]
    omega
  have h := congrArg BitVec.toNat (mul_inv64 hodd)
  rw [BitVec.toNat_mul, BitVec.toNat_ofNat, Nat.mod_mul_mod] at h
  exact h

/-- An inverse modulo `b` is unique below `b`. -/
theorem eq_of_mul_mod_eq_one {n u v b : Nat} (hu : u < b) (hv : v < b) (hnu : n * u % b = 1) (hnv : n * v % b = 1) :
    u = v := by
  calc u = u * (n * v % b) % b := by rw [hnv, mul_one, Nat.mod_eq_of_lt hu]
    _ = v * (n * u % b) % b := by
      rw [Nat.mul_mod_mod, Nat.mul_mod_mod, Nat.mul_left_comm u, Nat.mul_left_comm v, mul_comm u]
    _ = v := by rw [hnu, mul_one, Nat.mod_eq_of_lt hv]

/-! ### Conversion into Montgomery form (R112, R113) -/

theorem doublings_eq {n : Nat} (k : Nat) {r : Nat} (hr : r < n) : doublings n k r = r * 2 ^ k % n := by
  induction k generalizing r with
  | zero => rw [doublings, pow_zero, mul_one, Nat.mod_eq_of_lt hr]
  | succ k ih =>
    rw [doublings, addmod, ih (Nat.mod_lt _ (Nat.zero_lt_of_lt hr)), Nat.mod_mul_mod, pow_succ]
    congr 1
    ring

theorem tomont_eq (w : Width) {x n : Nat} (hx : x < n) : tomont w x n = x * w.radix % n := by
  cases w with
  | one => exact doublings_eq 64 hx
  | two => exact doublings_eq 128 hx

/-! ### Montgomery products (R114, R116)

Both widths run rounds of word-level REDC on a signed value `t`. A round keeps `t` above `-n`, divides its upper bound by
the word base, and divides its residue modulo `n` by the word base; `hinv` is the check that `ni` is the positive inverse
of the low word of `n`. -/

/-- The conditional addition after the last round (R116). -/
def addIfNeg (n : Nat) (t : Int) : Nat := (if t < 0 then t + n else t).toNat

theorem mulredc2_eq_redcRounds (a b n ni : Nat) :
    mulredc2 a b n ni = addIfNeg n (redcRound n ni (redcRound n ni (a * b : Nat))) := rfl

/-- The multiplier of `n` in a round of REDC (R116). -/
def redcDigit (ni : Nat) (t : Int) : Int := t % Config.base * ni % Config.base

theorem redcDigit_natCast (ni t : Nat) : redcDigit ni t = (t % Config.base * ni % Config.base : Nat) := by
  unfold redcDigit
  norm_cast

section Rounds
variable {n ni : Nat} (hinv : n % Config.base * ni % Config.base = 1)
include hinv

theorem redcDigit_mul_modEq (t : Int) : redcDigit ni t * n ≡ t [ZMOD Config.base] := by
  have hone : (ni * n : Int) ≡ 1 [ZMOD Config.base] := by
    rw [Nat.mod_mul_mod, mul_comm] at hinv
    have hmod : ni * n ≡ 1 [MOD Config.base] := hinv
    exact_mod_cast hmod
  calc redcDigit ni t * n
      ≡ t * ni * n [ZMOD Config.base] := ((Int.mod_modEq _ _).trans ((Int.mod_modEq _ _).mul_right _)).mul_right _
    _ = t * (ni * n) := mul_assoc ..
    _ ≡ t * 1 [ZMOD Config.base] := hone.mul_left t
    _ = t := mul_one t

/-- The division of a round is exact. -/
theorem base_mul_redcRound (t : Int) : Config.base * redcRound n ni t = t - redcDigit ni t * n :=
  Int.mul_ediv_cancel' (redcDigit_mul_modEq hinv t).dvd

theorem base_mul_redcRound_modEq (t : Int) : Config.base * redcRound n ni t ≡ t [ZMOD n] := by
  rw [base_mul_redcRound hinv]
  exact Int.modEq_iff_dvd.mpr ⟨redcDigit ni t, by ring⟩

theorem redcRound_bounds {t u : Int} (hlo : -(n : Int) < t) (hhi : t < Config.base * u) :
    -(n : Int) < redcRound n ni t ∧ redcRound n ni t < u := by
  have hexact := base_mul_redcRound hinv t
  have hdigit : 0 ≤ redcDigit ni t ∧ redcDigit ni t ≤ Config.base - 1 :=
    ⟨Int.emod_nonneg _ (by decide), Int.le_sub_one_of_lt (Int.emod_lt_of_pos _ (by decide))⟩
  have hsub : 0 ≤ redcDigit ni t * n ∧ redcDigit ni t * n ≤ (Config.base - 1) * n :=
    ⟨mul_nonneg hdigit.1 n.cast_nonneg, mul_le_mul_of_nonneg_right hdigit.2 n.cast_nonneg⟩
  rw [base_eq] at hexact hsub hhi
  constructor <;> omega

/-- The one-word datapath subtracts quotients where a round divides a difference. -/
theorem mulredc1_eq_redcRound (a b : Nat) : mulredc1 a b n ni = addIfNeg n (redcRound n ni (a * b : Nat)) := by
  have hexact := base_mul_redcRound hinv (a * b : Nat)
  rw [redcDigit_natCast, ← Nat.cast_mul] at hexact
  simp only [mulredc1, addIfNeg]
  generalize redcRound n ni (a * b : Nat) = q at hexact ⊢
  generalize a * b = t, a * b % Config.base * ni % Config.base * n = u at hexact ⊢
  rw [base_eq] at hexact ⊢
  split_ifs <;> omega

end Rounds

theorem natCast_addIfNeg {n : Nat} {t : Int} (hlo : -(n : Int) < t) :
    (addIfNeg n t : Int) = if t < 0 then t + n else t := by
  unfold addIfNeg
  split_ifs <;> omega

/-- The conditional addition brings a signed residue from `(-n, n)` into `[0, n)`. -/
theorem addIfNeg_spec {n r c : Nat} {t : Int} (hlo : -(n : Int) < t) (hhi : t < n) (ht : r * t ≡ c [ZMOD n]) :
    addIfNeg n t < n ∧ addIfNeg n t * r % n = c % n := by
  have hcast := natCast_addIfNeg hlo
  have hres : (addIfNeg n t : Int) ≡ t [ZMOD n] := by
    rw [hcast]
    split_ifs
    · exact Int.add_modEq_right
    · rfl
  have hmod : addIfNeg n t * r ≡ c [MOD n] := by
    rw [← Int.natCast_modEq_iff, Nat.cast_mul, mul_comm]
    exact (hres.mul_left _).trans ht
  exact ⟨by omega, hmod⟩

theorem mulredc1_spec {a b n ni : Nat} (hn : n < Config.base) (ha : a < n) (hb : b < n)
    (hinv : n % Config.base * ni % Config.base = 1) :
    mulredc1 a b n ni < n ∧ mulredc1 a b n ni * Config.base % n = a * b % n := by
  have hprod : ((a * b : Nat) : Int) < Config.base * n :=
    mod_cast (Nat.mul_lt_mul'' ha hb).trans_le (Nat.mul_le_mul_right n hn.le)
  obtain ⟨hlo, hhi⟩ := redcRound_bounds hinv (by omega) hprod
  rw [mulredc1_eq_redcRound hinv]
  exact addIfNeg_spec hlo hhi (base_mul_redcRound_modEq hinv _)

theorem mulredc2_spec {a b n ni : Nat} (hn : n < Config.base * Config.base) (ha : a < n) (hb : b < n)
    (hinv : n % Config.base * ni % Config.base = 1) :
    mulredc2 a b n ni < n ∧ mulredc2 a b n ni * (Config.base * Config.base) % n = a * b % n := by
  have hprod : ((a * b : Nat) : Int) < Config.base * (Config.base * n) := by
    rw [← mul_assoc]
    exact_mod_cast (Nat.mul_lt_mul'' ha hb).trans_le (Nat.mul_le_mul_right n hn.le)
  obtain ⟨hlo₁, hhi₁⟩ := redcRound_bounds hinv (by omega) hprod
  obtain ⟨hlo, hhi⟩ := redcRound_bounds hinv hlo₁ hhi₁
  rw [mulredc2_eq_redcRounds]
  refine addIfNeg_spec hlo hhi ?_
  rw [Nat.cast_mul, mul_assoc]
  exact ((base_mul_redcRound_modEq hinv _).mul_left _).trans (base_mul_redcRound_modEq hinv _)

/-- What a Montgomery product of either width returns: the residue of `a * b / R` modulo `n`. -/
theorem mulredc_spec (w : Width) {a b n ni : Nat} (hn : n < w.radix) (ha : a < n) (hb : b < n)
    (hinv : n % Config.base * ni % Config.base = 1) :
    mulredc w a b n ni < n ∧ mulredc w a b n ni * w.radix % n = a * b % n := by
  cases w with
  | one => exact mulredc1_spec hn ha hb hinv
  | two => exact mulredc2_spec hn ha hb hinv

end Sys2Proof.Machine
end

section
/-!
PROOFS. The statements of spec/41_modular.md on MINV, TOMONT1, TOMONT2, MULREDC1 and MULREDC2.
-/
open Sys2Proof Sys2Proof.Machine

/-- Settles O24. The Newton inverse of the word is the witness, and an inverse modulo `2^64` is unique. -/
theorem minvResult : Obligations.MinvResult := by
  intro rd ra s
  refine ⟨encodedAs_of_encodeWord rfl rfl, ?_⟩
  simp only [exec, execMinv, wordOperand_eq_lowWord, guarded_even, guarded_nil]
  split_ifs with heven
  · rfl
  · have hinv := mul_inverseOf (Nat.mod_two_ne_zero.mp heven)
    refine ⟨inverseOf (lowWord ra s), fun u => ⟨?unique, ?inverse⟩, finish_writeWord (inverseOf_lt _) rd s⟩
    case unique =>
      rintro ⟨hu, hnu⟩
      exact eq_of_mul_mod_eq_one hu (inverseOf_lt _) hnu hinv
    case inverse =>
      rintro rfl
      exact ⟨inverseOf_lt _, hinv⟩

/-- Settles O25: 64 doublings modulo `n` multiply by `2^64`. -/
theorem tomont1Result : Obligations.Tomont1Result := by
  intro rd ra rn s
  refine ⟨encodedAs_of_encodeWord rfl rfl, ?_⟩
  simp only [exec, execTomont1, wordOperand_eq_lowWord, guarded_even, guarded_range, guarded_nil]
  split_ifs with heven hrange
  · rfl
  · rfl
  · have hx : lowWord ra s < lowWord rn s := not_le.mp hrange
    rw [tomont_eq .one hx]
    exact finish_writeWord ((Nat.mod_lt _ (Nat.zero_lt_of_lt hx)).trans (lowWord_lt rn s)) rd s

/-- Settles O26: 128 doublings modulo `n` multiply by `2^128`. -/
theorem tomont2Result : Obligations.Tomont2Result := by
  intro rd ra rn s
  refine ⟨encodedAs_of_encodeWord rfl rfl, ?_⟩
  simp only [exec, execTomont2, dwordOperand_eq_fullValue, guarded_even, guarded_topBit, guarded_range, guarded_nil]
  split_ifs with heven htop hrange
  · rfl
  · rfl
  · rfl
  · rw [tomont_eq .two (not_le.mp hrange)]
    rfl

/-- Settles O27: the Montgomery product of one word is one round of REDC. -/
theorem mulredc1Result : Obligations.Mulredc1Result := by
  intro rd ra rb rn ri s
  refine ⟨encodedAs_of_encodeWord rfl rfl, ?_⟩
  simp only [exec, execMulredc1, wordOperand_eq_lowWord, guarded_even, guarded_range_pair, guarded_inv, guarded_nil]
  split_ifs with heven hrange hinv
  · rfl
  · rfl
  · rfl
  · obtain ⟨ha, hb⟩ := not_or.mp hrange
    rw [not_not, ← Nat.mod_mul_mod] at hinv
    obtain ⟨hlt, hres⟩ := mulredc_spec .one (lowWord_lt rn s) (not_le.mp ha) (not_le.mp hb) hinv
    exact ⟨_, hlt, hres, finish_writeWord (hlt.trans (lowWord_lt rn s)) rd s⟩

/-- Settles O28: the Montgomery product of two words is two rounds of REDC; `TOPBIT` keeps `n` below the radix. -/
theorem mulredc2Result : Obligations.Mulredc2Result := by
  intro rd ra rb rn ri s
  refine ⟨encodedAs_of_encodeWord rfl rfl, ?_⟩
  simp only [exec, execMulredc2, wordOperand_eq_lowWord, dwordOperand_eq_fullValue,
    ← lowWord_eq_fullValue_mod, guarded_even, guarded_topBit, guarded_range_pair, guarded_inv, guarded_nil]
  split_ifs with heven htop hrange hinv
  · rfl
  · rfl
  · rfl
  · rfl
  · obtain ⟨ha, hb⟩ := not_or.mp hrange
    have hn : fullValue rn s < Width.two.radix := (not_le.mp htop).trans (by decide)
    obtain ⟨hlt, hres⟩ := mulredc_spec .two hn (not_le.mp ha) (not_le.mp hb) (not_not.mp hinv)
    exact ⟨_, hlt, hres, finish_writeDword rd _ s⟩

end

section
/-!
PROOFS. The statement of spec/44_rho_factor.md on GCD1 and GCD2 (R161, R162).
-/
namespace Sys2Proof.Machine

/-- An odd second operand is not zero, so the gcd is at most it and still fits in a word. -/
theorem gcd_lowWord_lt {rb : Reg} {s : State} (hodd : ¬lowWord rb s % 2 = 0) (a : Nat) :
    Nat.gcd a (lowWord rb s) < Config.base :=
  have hpos : 0 < lowWord rb s := by omega
  (Nat.gcd_le_right a hpos).trans_lt (lowWord_lt rb s)

theorem exec_gcd1 (rd ra rb : Reg) (s : State) :
    exec (.gcd1 rd ra rb) s = .next (if lowWord rb s % 2 = 0 then raiseFault .even s
      else resultState rd (Nat.gcd (lowWord ra s) (lowWord rb s)) s) := by
  simp only [exec, execGcd1, wordOperand_eq_lowWord, guarded_even, guarded_nil]
  split_ifs with heven
  · rfl
  · exact finish_writeWord (gcd_lowWord_lt heven _) rd s

theorem exec_gcd2 (rd ra rb : Reg) (s : State) :
    exec (.gcd2 rd ra rb) s = .next (if fullValue rb s % 2 = 0 then raiseFault .even s
      else resultState rd (Nat.gcd (fullValue ra s) (fullValue rb s)) s) := by
  simp only [exec, execGcd2, dwordOperand_eq_fullValue, guarded_even, guarded_nil]
  split_ifs with heven
  · rfl
  · exact finish_writeDword rd _ s

end Sys2Proof.Machine

open Sys2Proof Sys2Proof.Machine

/-- Settles O42: the gcd with an odd word fits in a word, and one of two words needs no bound. -/
theorem gcdResult : Obligations.GcdResult := fun rd ra rb s =>
  ⟨encodedAs_of_encodeWord rfl rfl, exec_gcd1 rd ra rb s, encodedAs_of_encodeWord rfl rfl, exec_gcd2 rd ra rb s⟩

end

section
/-!
SUPPORT. What the table of the accumulator records for each value (spec/10_state.md R30, R31), and what an insert adds
to it (spec/45_accumulator.md R181, R182).
-/
namespace Sys2Proof.Machine

/-! ### Multiplicities -/

/-- A value with an entry has a positive multiplicity (R31 b), and a value without one reads 0. -/
theorem any_eq_true_iff_multOf_ne_zero {f : Facc} (hf : f.Wf) (p : Word) :
    f.pairs.any (fun en => en.p == p) = true ↔ f.multOf p ≠ 0 := by
  constructor
  · intro hany
    obtain ⟨en, hen, hp⟩ := List.any_eq_true.mp hany
    rw [← beq_iff_eq.mp hp, multOf_eq_of_mem hf.ascending hen]
    exact fun hzero => hf.positive en hen (BitVec.eq_of_toNat_eq hzero)
  · contrapose!
    intro hany
    have hnone : f.pairs.find? (fun en => en.p == p) = none := List.find?_eq_none.mpr (by simpa using hany)
    simp [Facc.multOf, hnone]

/-- Where `p` is recorded and the sum fits in the field, the entry of `p` holds `m` more. -/
theorem multOf_map_bumpEntry {p : Word} {m : Nat} {f : Facc} (hp : f.multOf p ≠ 0)
    (hm : f.multOf p + m ≤ Config.multMax) (q : Word) :
    Facc.multOf q { f with pairs := f.pairs.map (bumpEntry p m) } = f.multOf q + if q = p then m else 0 := by
  have hkey : ((fun en => en.p == q) ∘ bumpEntry p m) = fun en : Entry => en.p == q := by
    funext en
    simp
  simp only [Facc.multOf, Config.multMax] at hp hm
  simp only [Facc.multOf, List.find?_map, hkey]
  cases hfind : f.pairs.find? (fun en => en.p == q) with
  | none =>
    have hqp : q ≠ p := by
      rintro rfl
      simp [hfind] at hp
    simp [hqp]
  | some en =>
    have henq : en.p = q := by simpa using List.find?_some hfind
    by_cases hqp : q = p
    · subst hqp
      simp only [hfind, Option.map_some, Option.getD_some] at hm
      simp only [Option.map_some, Option.getD_some, bumpEntry, henq, if_true, BitVec.toNat_ofNat]
      omega
    · simp [bumpEntry, henq, hqp]

/-- A new entry for a value with none records its multiplicity, wherever it is put. -/
theorem multOf_insert_entry {l₁ l₂ : List Entry} {en : Entry} (hnew : ∀ a ∈ l₁ ++ l₂, a.p ≠ en.p) (v : Dword)
    (q : Word) :
    Facc.multOf q { pairs := l₁ ++ en :: l₂, plarge := v } =
      Facc.multOf q { pairs := l₁ ++ l₂, plarge := v } + if q = en.p then en.e.toNat else 0 := by
  simp only [Facc.multOf, List.find?_append, List.find?_cons]
  by_cases hq : q = en.p
  · subst hq
    have hnone : ∀ l ⊆ l₁ ++ l₂, l.find? (fun a => a.p == en.p) = none := fun l hl =>
      List.find?_eq_none.mpr fun a ha => by simpa using hnew a (hl ha)
    simp [hnone l₁ (List.subset_append_left ..), hnone l₂ (List.subset_append_right ..)]
  · have hen : (en.p == q) = false := beq_false_of_ne (Ne.symm hq)
    simp [hen, hq]

/-! ### Inserts, by the multiplicities -/

section Insert
variable {p : Word} {m : Nat} {f : Facc}

theorem insertPrime_accMult (hf : f.Wf) (hp : f.multOf p ≠ 0) (hm : Config.multMax < f.multOf p + m) :
    insertPrime p m f = .error .accMult := by
  rw [insertPrime, if_pos ((any_eq_true_iff_multOf_ne_zero hf p).mpr hp), if_neg (not_le.mpr hm)]

theorem insertPrime_accFull (hf : f.Wf) (hp : f.multOf p = 0) (hn : f.nf = Config.nfactMax) :
    insertPrime p m f = .error .accFull := by
  have hany := (any_eq_true_iff_multOf_ne_zero hf p).not.mpr (not_not.mpr hp)
  rw [insertPrime, if_neg hany, if_neg hn.not_lt]

/-- What a completed insert records. -/
theorem multOf_insertPrime {f' : Facc} (hf : f.Wf) (hm : m ≤ 255) (h : insertPrime p m f = .ok f') (q : Word) :
    f'.multOf q = f.multOf q + if q = p then m else 0 := by
  rcases insertPrime_cases p m f with ⟨hany, hsum, hok⟩ | ⟨hany, _, hok⟩ | ⟨code, herr⟩
  · obtain rfl := Except.ok.inj (hok.symm.trans h)
    exact multOf_map_bumpEntry ((any_eq_true_iff_multOf_ne_zero hf p).mp hany) hsum q
  · obtain rfl := Except.ok.inj (hok.symm.trans h)
    rw [multOf_insert_entry, List.take_append_drop, BitVec.toNat_ofNat, Nat.mod_eq_of_lt (by omega)]
    rw [List.take_append_drop]
    simpa using hany
  · cases herr.symm.trans h

/-- A completed insert into the table leaves the large slot. -/
theorem plarge_insertPrime {f' : Facc} (h : insertPrime p m f = .ok f') : f'.plarge = f.plarge := by
  rcases insertPrime_cases p m f with ⟨_, _, hok⟩ | ⟨_, _, hok⟩ | ⟨code, herr⟩
  · rw [← Except.ok.inj (hok.symm.trans h)]
  · rw [← Except.ok.inj (hok.symm.trans h)]
  · cases herr.symm.trans h

/-- A multiplicity that fits and a free slot for a new value are all an insert needs. -/
theorem exists_insertPrime (hf : f.Wf) (hmult : ¬(f.multOf p ≠ 0 ∧ Config.multMax < f.multOf p + m))
    (hfull : ¬(f.multOf p = 0 ∧ f.nf = Config.nfactMax)) : ∃ f', insertPrime p m f = .ok f' := by
  by_cases hp : f.multOf p = 0
  · have hany := (any_eq_true_iff_multOf_ne_zero hf p).not.mpr (not_not.mpr hp)
    have hfree : f.nf < Config.nfactMax := lt_of_le_of_ne hf.capacity fun hn => hfull ⟨hp, hn⟩
    exact ⟨_, by rw [insertPrime, if_neg hany, if_pos hfree]⟩
  · have hsum : f.multOf p + m ≤ Config.multMax := not_lt.mp fun hgt => hmult ⟨hp, hgt⟩
    exact ⟨_, by rw [insertPrime, if_pos ((any_eq_true_iff_multOf_ne_zero hf p).mpr hp), if_pos hsum]⟩

end Insert

section LargeInsert
variable {v : Dword} (f : Facc)

theorem hiWord_eq_zero_iff : hiWord v = 0 ↔ v.toNat < 2 ^ 64 := by
  rw [← BitVec.toNat_inj, toNat_hiWord]
  simp [Nat.div_eq_zero_iff]

theorem insertLarge_oneWord (hv : v.toNat < 2 ^ 64) : insertLarge v f = insertPrime (loWord v) 1 f :=
  if_pos (hiWord_eq_zero_iff.mpr hv)

theorem insertLarge_twoWord (hv : 2 ^ 64 ≤ v.toNat) :
    insertLarge v f = if hiWord f.plarge = 0 then .ok { f with plarge := v } else .error .accLarge :=
  if_neg fun hz => hv.not_gt (hiWord_eq_zero_iff.mp hz)

end LargeInsert

/-! ### The commands -/

theorem finishInsert_ok (acc : Facc) (s : State) : finishInsert (.ok acc) s = .next (faccState acc s) := rfl

theorem finishInsert_error (code : FaultCode) (s : State) : finishInsert (.error code) s = .next (raiseFault code s) :=
  rfl

theorem exec_fins (ra : Reg) (m : Nat) (s : State) :
    exec (.fins ra m) s = if lowWord ra s < 2 ∨ m < 1 then .next (raiseFault .range s)
      else finishInsert (insertPrime (loWord s.x[ra.val]) m s.facc) s := by
  have hp : BitVec.ofNat 64 (wordOperand ra s) = loWord s.x[ra.val] :=
    (BitVec.ofNat_toNat ..).trans (BitVec.setWidth_eq _)
  rw [exec, execFins, hp, wordOperand_eq_lowWord]
  exact guarded_cons [] s _ (by omega) .range

theorem exec_finsl (ra : Reg) (s : State) :
    exec (.finsl ra) s = if fullValue ra s < 2 then .next (raiseFault .range s)
      else finishInsert (insertLarge s.x[ra.val] s.facc) s := by
  have hv : BitVec.ofNat 128 (dwordOperand ra s) = s.x[ra.val] := (BitVec.ofNat_toNat ..).trans (BitVec.setWidth_eq _)
  rw [exec, execFinsl, hv, dwordOperand_eq_fullValue]
  exact guarded_cons [] s _ not_lt.symm .range

end Sys2Proof.Machine
end

section
/-!
PROOFS. The statements of spec/45_accumulator.md on FINS, FINSL and FCLR (R180, R183, R184).
-/
open Sys2Proof Sys2Proof.Machine

/-- Settles O52: the outcomes of the insert by the multiplicity of `p`, and what the completed one records. -/
theorem finsInserts : Obligations.FinsInserts := by
  intro ra m s hf hm
  refine ⟨encodedAs_of_encodeWord (decide_eq_true hm) (by simp [encodeWord, packImm]), ?_⟩
  rw [exec_fins]
  split_ifs with hrange hmult hfull
  · rfl
  · rw [insertPrime_accMult hf hmult.1 hmult.2, finishInsert_error]
  · rw [insertPrime_accFull hf hfull.1 hfull.2, finishInsert_error]
  · obtain ⟨acc, hacc⟩ := exists_insertPrime hf hmult hfull
    have hpos : 1 ≤ m := not_lt.mp (not_or.mp hrange).2
    have hle : m ≤ 255 := Nat.le_of_lt_succ hm
    refine ⟨acc, ?_, insertPrime_keeps_wf hf hpos hle hacc, plarge_insertPrime hacc, multOf_insertPrime hf hle hacc⟩
    rw [hacc, finishInsert_ok]

/-- Settles O53. A one-word value is its own low word, so both commands make the same check and the same insert. -/
theorem finslInserts : Obligations.FinslInserts := by
  intro ra s
  refine ⟨encodedAs_of_encodeWord rfl (by simp [encodeWord, packSlots]), ?_⟩
  rw [exec_finsl]
  split_ifs with hrange hone hlarge
  · rfl
  · have hlow : lowWord ra s = fullValue ra s := Nat.mod_eq_of_lt hone
    rw [exec_fins, hlow, if_neg (by omega), insertLarge_oneWord _ hone]
  · rw [insertLarge_twoWord _ (not_lt.mp hone), if_neg hlarge, finishInsert_error]
  · rw [insertLarge_twoWord _ (not_lt.mp hone), if_pos (not_not.mp hlarge), finishInsert_ok, fullValue,
      BitVec.ofNat_toNat, BitVec.setWidth_eq]

/-- Settles O51. -/
theorem fclrEmptiesAccumulator : Obligations.FclrEmptiesAccumulator :=
  ⟨encodedAs_of_encodeWord rfl rfl, fun _ => ⟨Facc.empty, rfl, rfl, rfl, fun _ _ => ⟨rfl, rfl⟩, rfl⟩⟩
end

section
/-!
PROOFS. The acknowledgement of a command fault (spec/60_exceptions.md R207) and the fatal fault, which every host action
of the window but reset keeps (R208).
-/
namespace Sys2Proof.Machine

/-- Time does nothing to an idle engine (spec/70_reset_and_hazards.md R231). -/
theorem elapse_idle {s : State} (h : Idle s) : elapse s = .next s := by
  simp [elapse, h]

theorem step_of_host_cons {s : State} {e : HostEvent} {rest : List HostEvent} (h : s.host = e :: rest) :
    step s = hostStep e { s with host := rest } := by
  simp only [step, h]

theorem not_ready_of_err {s : State} (h : s.status.err = true) : ¬Ready s :=
  fun ⟨_, hnoErr, _⟩ => Bool.noConfusion (h.symm.trans hnoErr)

/-! ### The acknowledgement -/

/-- The `STATUS` write of R207: bit 2 clears `ERR` and `ECAUSE` together, and only while `FATAL = 0`. -/
theorem acknowledge_eq (v : Word) (s : State) : acknowledge v s = { s with
    ecause := if v.getLsbD 2 = true ∧ s.status.fatal = false then 0 else s.ecause
    status := { s.status with
      done := s.status.done && !v.getLsbD 1
      err := if v.getLsbD 2 = true ∧ s.status.fatal = false then false else s.status.err
      lost := s.status.lost && !v.getLsbD 4 } } := by
  unfold acknowledge
  cases v.getLsbD 2 <;> cases s.status.fatal <;> simp

theorem hostWrites_status {s : State} (hb : Idle s) (v : Word) : HostWrites 0x008 v s (acknowledge v s) :=
  hostWrites_slot (slot := .status) rfl rfl (by decide) hb v

/-- An acknowledged fault that is not fatal leaves the engine ready for a command. -/
theorem ready_acknowledge {s : State} (hb : Idle s) (hfatal : s.status.fatal = false) {v : Word}
    (hv : v.getLsbD 2 = true) : Ready (acknowledge v s) :=
  ⟨hb, by simp [hfatal, hv], hfatal⟩

/-- A fatal fault is not acknowledged: `ERR` and `ECAUSE` stay, whatever is written. -/
theorem acknowledge_fatal {s : State} (hfatal : s.status.fatal = true) (v : Word) :
    (acknowledge v s).status.err = s.status.err ∧ (acknowledge v s).ecause = s.ecause := by
  simp [hfatal]

/-! ### What keeps the fatal fault -/

/-- The fatal fault is pending: what `LUCAS_FAIL` leaves (R204, R208). -/
structure FatalPending (s : State) : Prop where
  fatal : s.status.fatal = true
  err : s.status.err = true
  idle : Idle s

/-- From `s` to `t` the fatal fault stays pending with its code, and no command was issued. -/
structure KeepsFatal (s t : State) : Prop extends FatalPending t where
  ecause : t.ecause = s.ecause
  cmd : t.cmd = s.cmd

theorem fatalPending_raiseFault (s : State) : FatalPending (raiseFault .lucasFail s) :=
  ⟨by simp, rfl, rfl⟩

/-- A host write is dropped or takes effect in its slot. -/
theorem hostWrite_cases (off width : Nat) (v : Word) (s : State) :
    hostWrite off width v s = dropWrite s ∨ hostWrite off width v s = writeSlot (slotAt off) v s := by
  unfold hostWrite
  split_ifs
  · exact .inl rfl
  · exact .inl rfl
  · exact .inr rfl

/-- An access that answers a next state, being in the window, answers the state of that access (R51). -/
theorem eq_of_ite_fault_eq_next {c : Prop} [Decidable c] {f : Fault} {s t : State}
    (h : (if c then .next s else .fault f : Result) = .next t) : t = s := by
  split_ifs at h
  cases h
  rfl

section Fatal
variable {s : State} (hs : FatalPending s)
include hs

theorem keepsFatal_refl : KeepsFatal s s := ⟨hs, rfl, rfl⟩

theorem keepsFatal_dropWrite : KeepsFatal s (dropWrite s) := ⟨⟨hs.fatal, hs.err, hs.idle⟩, rfl, rfl⟩

/-- `CMD` drops the write because `ERR` is set, and `STATUS` clears neither `ERR` nor `ECAUSE` because `FATAL` is; no
other slot writes one of them. -/
theorem keepsFatal_writeSlot (slot : Slot) (v : Word) : KeepsFatal s (writeSlot slot v s) := by
  cases slot with
  | cmd =>
    rw [writeSlot_cmd_error (.inl hs.err)]
    exact keepsFatal_dropWrite hs
  | status =>
    obtain ⟨herr, hecause⟩ := acknowledge_fatal hs.fatal v
    exact ⟨⟨hs.fatal, herr.trans hs.err, hs.idle⟩, hecause, rfl⟩
  | _ => exact ⟨⟨hs.fatal, hs.err, hs.idle⟩, rfl, rfl⟩

theorem keepsFatal_hostWrite (off width : Nat) (v : Word) : KeepsFatal s (hostWrite off width v s) := by
  obtain h | h := hostWrite_cases off width v s
  · rw [h]
    exact keepsFatal_dropWrite hs
  · rw [h]
    exact keepsFatal_writeSlot hs (slotAt off) v

theorem keepsFatal_hostRead (off width : Nat) : KeepsFatal s (hostRead off width s) := by
  obtain h | h | h := hostRead_cases off width s <;> rw [h] <;> exact ⟨⟨hs.fatal, hs.err, hs.idle⟩, rfl, rfl⟩

theorem keepsFatal_elapse {t : State} (h : elapse s = .next t) : KeepsFatal s t := by
  rw [elapse_idle hs.idle] at h
  cases h
  exact keepsFatal_refl hs

theorem keepsFatal_hostStep {e : HostEvent} (he : e ≠ .reset) {t : State} (h : hostStep e s = .next t) :
    KeepsFatal s t := by
  cases e with
  | read off width =>
    rw [eq_of_ite_fault_eq_next h]
    exact keepsFatal_hostRead hs off width
  | write off width v =>
    rw [eq_of_ite_fault_eq_next h]
    exact keepsFatal_hostWrite hs off width v
  | reset => exact absurd rfl he
  | elapse => exact keepsFatal_elapse hs h

/-- Every step but a reset keeps the fatal fault. -/
theorem keepsFatal_step {t : State} (hreset : ∀ rest, s.host ≠ .reset :: rest) (h : step s = .next t) :
    KeepsFatal s t := by
  cases hhost : s.host with
  | nil =>
    rw [step_of_host_nil hhost] at h
    exact keepsFatal_elapse hs h
  | cons e rest =>
    rw [step_of_host_cons hhost] at h
    have he : e ≠ .reset := fun heq => hreset rest (heq ▸ hhost)
    obtain ⟨hpending, hecause, hcmd⟩ :=
      keepsFatal_hostStep (s := { s with host := rest }) ⟨hs.fatal, hs.err, hs.idle⟩ he h
    exact ⟨hpending, hecause, hcmd⟩

end Fatal

end Sys2Proof.Machine
end

section
/-!
PROOFS. The statements of spec/60_exceptions.md on the trap entry (R204), its acknowledgement (R207) and the fatal
fault (R208).
-/
open Sys2Proof Sys2Proof.Machine

/-- Settles O8: the acknowledged state is ready, so it issues the value that was dropped before. -/
theorem statusWriteAcknowledges : Obligations.StatusWriteAcknowledges := by
  intro s v hb
  refine ⟨?effect, fun herr c => ?dropped, fun hfatal hv => ?ready⟩
  case effect =>
    rw [← acknowledge_eq]
    exact hostWrites_status hb v
  case dropped => exact hostWrites_cmd_dropped (not_ready_of_err herr) c
  case ready =>
    have hready : Ready (acknowledge v s) := ready_acknowledge hb hfatal hv
    have hecause : (acknowledge v s).ecause = 0 := by simp [hv, hfatal]
    exact ⟨_, hostWrites_status hb v, hready, hecause, rfl, rfl, rfl, rfl,
      elapse_idle (s := { acknowledge v s with host := [] }) hb,
      fun c => ⟨_, hostWrites_cmd_ready hready c, rfl, rfl⟩⟩

/-- Settles O17. -/
theorem fatalLastsUntilReset : Obligations.FatalLastsUntilReset := by
  refine ⟨fun s => ?entry, fun s t hfatal herr hb hstep hreset => ?kept, fun s rest => ?cleared⟩
  case entry =>
    obtain ⟨hfatal, herr, hb⟩ := fatalPending_raiseFault s
    exact ⟨hfatal, herr, hb⟩
  case kept =>
    obtain ⟨⟨hfatal', herr', hb'⟩, hecause, hcmd⟩ := keepsFatal_step ⟨hfatal, herr, hb⟩ hreset hstep
    exact ⟨hfatal', herr', hb', hecause, hcmd⟩
  case cleared => exact ⟨resetEvent { s with host := rest }, rfl, rfl, rfl, rfl, rfl⟩

/-- Settles O18. The fault leaves an idle engine that is not ready; a register write commutes with taking it. -/
theorem raiseFaultRecordsCode : Obligations.RaiseFaultRecordsCode := by
  intro code s
  have hb : Idle (raiseFault code s) := rfl
  obtain ⟨-, -, hctrl, hflags, -, -, hnf, -⟩ := registerMap (raiseFault code s) hb
  refine ⟨rfl, ⟨rfl, rfl, rfl, rfl, rfl, rfl, rfl, rfl, rfl⟩, hostWrites_cmd_dropped (not_ready_of_err rfl),
    fun r => ⟨?regLo, ?regHi, fun v => ⟨hostWrites_regLo hb r v, hostWrites_regHi hb r v⟩⟩, hflags, hctrl, hnf,
    ?plargeHi, ?plargeLo, fun i hi => ⟨hostReads_primeSlot hb hi, ?mult⟩⟩
  case regLo => exact hostReads_slot (slotAt_regLo r) (by omega) (by omega) hb rfl
  case regHi => exact hostReads_slot (slotAt_regHi r) (by omega) (by omega) hb rfl
  case plargeHi => exact hostReads_slot (slot := .plargeHi) rfl rfl (by decide) hb rfl
  case plargeLo => exact hostReads_slot (slot := .plargeLo) rfl rfl (by decide) hb rfl
  case mult => exact hostReads_slot (slotAt_multSlot hi) (by omega) (by omega) hb rfl
end

section
/-!
PROOFS. No command reads `CTRL.PROVE`: run with another value of that bit, a command answers as before but for the bit
(spec/70_reset_and_hazards.md R242). The mode it sees is the sample, `proveSample`.
-/
namespace Sys2Proof.Machine

/-- `s` with `b` in `CTRL.PROVE`. -/
def withProve (b : Bool) (s : State) : State := { s with prove := b }

/-- The answer `r` with `b` in `CTRL.PROVE` of its next state. -/
def answerWithProve (b : Bool) : Result → Result
  | .next t => .next (withProve b t)
  | .fault f => .fault f
  | .refused f => .refused f

/-! The rest of the state is seen as before. -/

@[simp] theorem withProve_facc (b : Bool) (s : State) : (withProve b s).facc = s.facc := rfl
@[simp] theorem withProve_params (b : Bool) (s : State) : (withProve b s).params = s.params := rfl

@[simp] theorem dwordOperand_withProve (b : Bool) (r : Reg) (s : State) :
    dwordOperand r (withProve b s) = dwordOperand r s := rfl

/-- The oracle, rho and factor take their mode from the sample. -/
@[simp] theorem engineRun_withProve (b : Bool) (c : Call) (s : State) :
    engineRun c (withProve b s) = engineRun c s := rfl

/-! The ends of a command carry a changed `CTRL.PROVE` along. -/

section Ends
variable (b : Bool) (s : State)

theorem trap_withProve (code : FaultCode) : trap code (withProve b s) = answerWithProve b (trap code s) := rfl

theorem finish_writeReg_withProve (r : Reg) (v : Dword) :
    finish (writeReg r v (withProve b s)) = answerWithProve b (finish (writeReg r v s)) := rfl

theorem finishInsert_withProve (r : Except FaultCode Facc) :
    finishInsert r (withProve b s) = answerWithProve b (finishInsert r s) := by
  cases r <;> rfl

theorem finishRun_withProve (c : Call) :
    finishRun (engineRun c (withProve b s)) (withProve b s) = answerWithProve b (finishRun (engineRun c s) s) := by
  rw [engineRun_withProve]
  cases engineRun c s <;> rfl

theorem finishVerdict_withProve (rd : Reg) (r : Run Bool) :
    finishVerdict rd r (withProve b s) = answerWithProve b (finishVerdict rd r s) := by
  cases r <;> rfl

/-- PRIME1 and PRIME2 ask the oracle for their verdict. -/
theorem finishVerdict_engineRun_withProve (rd : Reg) (c : Call) :
    finishVerdict rd (engineRun c (withProve b s)) (withProve b s) =
      answerWithProve b (finishVerdict rd (engineRun c s) s) := by
  rw [engineRun_withProve, finishVerdict_withProve]

/-! The same behind a command's checks. -/

theorem guarded_withProve (checks : List (Bool × FaultCode)) {go go' : Unit → Result}
    (h : go' () = answerWithProve b (go ())) :
    guarded checks (withProve b s) go' = answerWithProve b (guarded checks s go) := by
  unfold guarded
  cases firstFailed checks with
  | some code => exact trap_withProve b s code
  | none => exact h

theorem guarded_writeReg_withProve (checks : List (Bool × FaultCode)) (r : Reg) (v : Dword) :
    guarded checks (withProve b s) (fun _ => finish (writeReg r v (withProve b s))) =
      answerWithProve b (guarded checks s fun _ => finish (writeReg r v s)) :=
  guarded_withProve b s checks (finish_writeReg_withProve b s r v)

theorem guarded_finishInsert_withProve (checks : List (Bool × FaultCode)) (r : Except FaultCode Facc) :
    guarded checks (withProve b s) (fun _ => finishInsert r (withProve b s)) =
      answerWithProve b (guarded checks s fun _ => finishInsert r s) :=
  guarded_withProve b s checks (finishInsert_withProve b s r)

theorem guarded_finishRun_withProve (checks : List (Bool × FaultCode)) (c : Call) :
    guarded checks (withProve b s) (fun _ => finishRun (engineRun c (withProve b s)) (withProve b s)) =
      answerWithProve b (guarded checks s fun _ => finishRun (engineRun c s) s) :=
  guarded_withProve b s checks (finishRun_withProve b s c)

/-- TDIV is the one command that writes a register and `FACC`. -/
theorem execTdiv_withProve (rd ra : Reg) : execTdiv rd ra (withProve b s) = answerWithProve b (execTdiv rd ra s) := by
  unfold execTdiv
  apply guarded_withProve
  simp only [dwordOperand_withProve, withProve_params, withProve_facc]
  cases tdiv s.params.tdCount (dwordOperand ra s) s.facc <;> rfl

/-- The verdict of ISPRIME before the oracle depends on the operand and the table only. -/
theorem execIsprime_withProve (rd rn : Reg) :
    execIsprime rd rn (withProve b s) = answerWithProve b (execIsprime rd rn s) := by
  unfold execIsprime
  simp only [dwordOperand_withProve, withProve_params, withProve_facc, engineRun_withProve]
  exact finishVerdict_withProve b s rd _

/-- No command reads or writes `CTRL.PROVE`. -/
theorem exec_withProve (i : Instr) : exec i (withProve b s) = answerWithProve b (exec i s) := by
  cases i with
  | add2 rd ra rb => rfl
  | sub2 rd ra rb => rfl
  | cmp2 ra rb => rfl
  | shl2 rd ra sh => exact finish_writeReg_withProve b s rd _
  | shr2 rd ra sh => exact finish_writeReg_withProve b s rd _
  | minv rd ra => exact guarded_writeReg_withProve b s _ rd _
  | tomont1 rd ra rn => exact guarded_writeReg_withProve b s _ rd _
  | tomont2 rd ra rn => exact guarded_writeReg_withProve b s _ rd _
  | mulredc1 rd ra rb rn ri => exact guarded_writeReg_withProve b s _ rd _
  | mulredc2 rd ra rb rn ri => exact guarded_writeReg_withProve b s _ rd _
  | powredc1 rd ra re rn ri ro => exact guarded_writeReg_withProve b s _ rd _
  | powredc2 rd ra re rn ri ro => exact guarded_writeReg_withProve b s _ rd _
  | tdiv rd ra => exact execTdiv_withProve b s rd ra
  | mr1 rd rn rb => exact guarded_writeReg_withProve b s _ rd _
  | mr2 rd rn rb => exact guarded_writeReg_withProve b s _ rd _
  | prime1 rd rn => exact finishVerdict_engineRun_withProve b s rd (.prime _)
  | prime2 rd rn => exact finishVerdict_engineRun_withProve b s rd (.prime _)
  | isprime rd rn => exact execIsprime_withProve b s rd rn
  | gcd1 rd ra rb => exact guarded_writeReg_withProve b s _ rd _
  | gcd2 rd ra rb => exact guarded_writeReg_withProve b s _ rd _
  | rho1 rn a => exact guarded_finishRun_withProve b s _ (.rho _ a)
  | rho2 rn a => exact guarded_finishRun_withProve b s _ (.rho _ a)
  | factor rn => exact finishRun_withProve b s (.factor _)
  | fclr => rfl
  | fins ra m => exact guarded_finishInsert_withProve b s _ _
  | finsl ra => exact guarded_finishInsert_withProve b s _ _

end Ends

end Sys2Proof.Machine
end

section
/-!
PROOFS. The statement of spec/70_reset_and_hazards.md on the mode of a command (R242).
-/
open Sys2Proof Sys2Proof.Machine

/-- Settles O9: the writes are those of the register map, and no command reads `CTRL.PROVE`. -/
theorem modeIsSampledPerCommand : Obligations.ModeIsSampledPerCommand := by
  refine ⟨fun s v hready => ?issued, fun s v hbusy => ?dropped, fun s v hidle => ?written, fun i s t b h => ?unseen⟩
  case issued => exact ⟨issue v s, hostWrites_cmd_ready hready v, rfl, rfl⟩
  case dropped => exact hostWrites_busy (by decide) (by decide) hbusy v
  case written => exact hostWrites_slot (slot := .ctrl) rfl rfl (by decide) hidle v
  case unseen => exact (exec_withProve b s i).trans (congrArg (answerWithProve b) h)
end

section
/-!
PROOFS. Encode after decode, and the row of the opcode table that an accepted word selects (spec/30_encoding.md R71 to
R76).
-/
namespace Sys2Proof

/-! ### Packing the fields of a word gives the word back -/

section Fields
variable (c : Nat)

@[simp] theorem slot1_val : (slot1 c).val = c / 0x100 % 16 := rfl
@[simp] theorem slot2_val : (slot2 c).val = c / 0x1000 % 16 := rfl
@[simp] theorem slot3_val : (slot3 c).val = c / 0x10000 % 16 := rfl
@[simp] theorem slot4_val : (slot4 c).val = c / 0x100000 % 16 := rfl
@[simp] theorem slot5_val : (slot5 c).val = c / 0x1000000 % 16 := rfl
@[simp] theorem slot6_val : (slot6 c).val = c / 0x10000000 % 16 := rfl

theorem shiftField_lt : shiftField c < 128 := Nat.mod_lt _ (by norm_num)

theorem immField_lt : immField c < 256 := Nat.mod_lt _ (by norm_num)

end Fields

section Repack
variable {c op : Nat} (hop : c % 0x100 = op)
include hop

theorem packSlots_three (h : c / 0x100000 = 0) : packSlots op (slot1 c) (slot2 c) (slot3 c) 0 0 0 = c := by
  simp only [packSlots, slot1_val, slot2_val, slot3_val]; omega

theorem packSlots_two (h : c / 0x10000 = 0) : packSlots op (slot1 c) (slot2 c) 0 0 0 0 = c := by
  simp only [packSlots, slot1_val, slot2_val]; omega

theorem packSlots_five (h : c / 0x10000000 = 0) :
    packSlots op (slot1 c) (slot2 c) (slot3 c) (slot4 c) (slot5 c) 0 = c := by
  simp only [packSlots, slot1_val, slot2_val, slot3_val, slot4_val, slot5_val]; omega

theorem packSlots_six (h : c < 0x100000000) :
    packSlots op (slot1 c) (slot2 c) (slot3 c) (slot4 c) (slot5 c) (slot6 c) = c := by
  simp only [packSlots, slot1_val, slot2_val, slot3_val, slot4_val, slot5_val, slot6_val]; omega

theorem packSlots_compare (h : c / 0x100000 = 0) (h1 : c / 0x100 % 0x10 = 0) :
    packSlots op 0 (slot2 c) (slot3 c) 0 0 0 = c := by
  simp only [packSlots, slot2_val, slot3_val]; omega

theorem packSlots_second (h : c / 0x10000 = 0) (h1 : c / 0x100 % 0x10 = 0) :
    packSlots op 0 (slot2 c) 0 0 0 0 = c := by
  simp only [packSlots, slot2_val]; omega

theorem packSlots_none (h : c / 0x100 = 0) : packSlots op 0 0 0 0 0 0 = c := by
  simp only [packSlots]; omega

theorem packImm_shift (h : c / 0x800000 = 0) : packImm op (slot1 c) (slot2 c) (shiftField c) = c := by
  simp only [packImm, slot1_val, slot2_val, shiftField]; omega

theorem packImm_imm (h : c / 0x1000000 = 0) (h1 : c / 0x100 % 0x10 = 0) :
    packImm op 0 (slot2 c) (immField c) = c := by
  simp only [packImm, slot2_val, immField]; omega

end Repack

/-! ### What an accepted word says of its command -/

/-- `i` is well formed, packs into the word `c`, and `c` selects the row of `i` in the opcode table (R74). -/
structure Spells (c : Nat) (i : Instr) : Prop where
  wellFormed : WellFormed i
  encodes : encodeWord i = c
  row : ∃ row ∈ opcodeTable, row.mnemonic = i.mnemonic ∧ c &&& row.mask = row.matchBits

section Formats
variable {c op : Nat} {i j : Instr} (mn : String) (hc : c < 0x100000000) (hop : c % 0x100 = op) (hlt : op < 0x100)
  (hwf : WellFormed j) (hmn : j.mnemonic = mn)
include hc hop hlt hwf hmn

theorem spells_of_decodeR3 (hrow : ⟨mn, op, 0xFFF000FF⟩ ∈ opcodeTable)
    (henc : encodeWord j = packSlots op (slot1 c) (slot2 c) (slot3 c) 0 0 0) (h : decodeR3 c j = .ok i) :
    Spells c i := by
  obtain ⟨hz, rfl⟩ := decodeR3_eq_ok_iff.mp h
  exact ⟨hwf, henc.trans (packSlots_three hop hz), _, hrow, hmn.symm, (and_maskR3_iff hc hlt).mpr ⟨hop, hz⟩⟩

theorem spells_of_decodeR2 (hrow : ⟨mn, op, 0xFFFF00FF⟩ ∈ opcodeTable)
    (henc : encodeWord j = packSlots op (slot1 c) (slot2 c) 0 0 0 0) (h : decodeR2 c j = .ok i) : Spells c i := by
  obtain ⟨hz, rfl⟩ := decodeR2_eq_ok_iff.mp h
  exact ⟨hwf, henc.trans (packSlots_two hop hz), _, hrow, hmn.symm, (and_maskR2_iff hc hlt).mpr ⟨hop, hz⟩⟩

theorem spells_of_decodeR5 (hrow : ⟨mn, op, 0xF00000FF⟩ ∈ opcodeTable)
    (henc : encodeWord j = packSlots op (slot1 c) (slot2 c) (slot3 c) (slot4 c) (slot5 c) 0)
    (h : decodeR5 c j = .ok i) : Spells c i := by
  obtain ⟨hz, rfl⟩ := decodeR5_eq_ok_iff.mp h
  exact ⟨hwf, henc.trans (packSlots_five hop hz), _, hrow, hmn.symm, (and_maskR5_iff hc hlt).mpr ⟨hop, hz⟩⟩

theorem spells_of_decodeS (hrow : ⟨mn, op, 0xFF8000FF⟩ ∈ opcodeTable)
    (henc : encodeWord j = packImm op (slot1 c) (slot2 c) (shiftField c)) (h : decodeS c j = .ok i) :
    Spells c i := by
  obtain ⟨hz, rfl⟩ := decodeS_eq_ok_iff.mp h
  exact ⟨hwf, henc.trans (packImm_shift hop hz), _, hrow, hmn.symm, (and_maskS_iff hc hlt).mpr ⟨hop, hz⟩⟩

theorem spells_of_decodeRS2 (hrow : ⟨mn, op, 0xFFFF0FFF⟩ ∈ opcodeTable)
    (henc : encodeWord j = packSlots op 0 (slot2 c) 0 0 0 0) (h : decodeRS2 c j = .ok i) : Spells c i := by
  obtain ⟨⟨hz, h1⟩, rfl⟩ := decodeRS2_eq_ok_iff.mp h
  exact ⟨hwf, henc.trans (packSlots_second hop hz h1), _, hrow, hmn.symm,
    (and_maskRS2_iff hc hlt).mpr ⟨hop, hz, h1⟩⟩

theorem spells_of_decodeI (hrow : ⟨mn, op, 0xFF000FFF⟩ ∈ opcodeTable)
    (henc : encodeWord j = packImm op 0 (slot2 c) (immField c)) (h : decodeI c j = .ok i) : Spells c i := by
  obtain ⟨⟨hz, h1⟩, rfl⟩ := decodeI_eq_ok_iff.mp h
  exact ⟨hwf, henc.trans (packImm_imm hop hz h1), _, hrow, hmn.symm, (and_maskI_iff hc hlt).mpr ⟨hop, hz, h1⟩⟩

theorem spells_of_decodeAll (hrow : ⟨mn, op, 0x000000FF⟩ ∈ opcodeTable)
    (henc : encodeWord j = packSlots op (slot1 c) (slot2 c) (slot3 c) (slot4 c) (slot5 c) (slot6 c))
    (h : Except.ok j = (.ok i : Except Illegal Instr)) : Spells c i := by
  cases h
  exact ⟨hwf, henc.trans (packSlots_six hop hc), _, hrow, hmn.symm, (and_maskOpcode_iff hc hlt).mpr hop⟩

end Formats

/-- CMP2 has a format of its own: three slots with the first reserved. -/
theorem spells_of_compare {c : Nat} (hc : c < 0x100000000) (hop : c % 0x100 = 0x03) {op : Nat} {i : Instr}
    (h : accept (c / 0x100000 == 0 && c / 0x100 % 0x10 == 0) op (.cmp2 (slot2 c) (slot3 c)) = .ok i) :
    Spells c i := by
  simp only [accept_eq_ok_iff, Bool.and_eq_true, beq_iff_eq] at h
  obtain ⟨⟨hz, h1⟩, rfl⟩ := h
  exact ⟨rfl, packSlots_compare hop hz h1, ⟨"CMP2", 0x03, 0xFFF00FFF⟩, by decide, rfl,
    (and_maskCmp_iff hc (by decide)).mpr ⟨hop, hz, h1⟩⟩

/-- FCLR uses no slot. -/
theorem spells_of_clear {c : Nat} (hc : c < 0x100000000) (hop : c % 0x100 = 0x50) {op : Nat} {i : Instr}
    (h : accept (c / 0x100 == 0) op .fclr = .ok i) : Spells c i := by
  rw [accept_eq_ok_iff, beq_iff_eq] at h
  obtain ⟨hz, rfl⟩ := h
  exact ⟨rfl, packSlots_none hop hz, ⟨"FCLR", 0x50, 0xFFFFFFFF⟩, by decide, rfl,
    (and_maskAll_iff hc (by decide)).mpr ⟨hop, hz⟩⟩

/-- The decoder reads only words spelled by their command: one case an opcode byte, in the order of the table. -/
theorem spells_of_decodeWord {c : Nat} (hc : c < 0x100000000) {i : Instr} (h : decodeWord c = .ok i) : Spells c i := by
  unfold decodeWord at h
  split at h
  case h_1 hop => exact spells_of_decodeR3 "ADD2" hc hop (by decide) rfl rfl (by decide) rfl h
  case h_2 hop => exact spells_of_decodeR3 "SUB2" hc hop (by decide) rfl rfl (by decide) rfl h
  case h_3 hop => exact spells_of_compare hc hop h
  case h_4 hop => exact spells_of_decodeS "SHL2" hc hop (by decide) (by exact decide_eq_true (shiftField_lt c)) rfl (by decide) rfl h
  case h_5 hop => exact spells_of_decodeS "SHR2" hc hop (by decide) (by exact decide_eq_true (shiftField_lt c)) rfl (by decide) rfl h
  case h_6 hop => exact spells_of_decodeR2 "MINV" hc hop (by decide) rfl rfl (by decide) rfl h
  case h_7 hop => exact spells_of_decodeR3 "TOMONT1" hc hop (by decide) rfl rfl (by decide) rfl h
  case h_8 hop => exact spells_of_decodeR3 "TOMONT2" hc hop (by decide) rfl rfl (by decide) rfl h
  case h_9 hop => exact spells_of_decodeR5 "MULREDC1" hc hop (by decide) rfl rfl (by decide) rfl h
  case h_10 hop => exact spells_of_decodeR5 "MULREDC2" hc hop (by decide) rfl rfl (by decide) rfl h
  case h_11 hop => exact spells_of_decodeAll "POWREDC1" hc hop (by decide) rfl rfl (by decide) rfl h
  case h_12 hop => exact spells_of_decodeAll "POWREDC2" hc hop (by decide) rfl rfl (by decide) rfl h
  case h_13 hop => exact spells_of_decodeR2 "TDIV" hc hop (by decide) rfl rfl (by decide) rfl h
  case h_14 hop => exact spells_of_decodeR3 "MR1" hc hop (by decide) rfl rfl (by decide) rfl h
  case h_15 hop => exact spells_of_decodeR3 "MR2" hc hop (by decide) rfl rfl (by decide) rfl h
  case h_16 hop => exact spells_of_decodeR2 "PRIME1" hc hop (by decide) rfl rfl (by decide) rfl h
  case h_17 hop => exact spells_of_decodeR2 "PRIME2" hc hop (by decide) rfl rfl (by decide) rfl h
  case h_18 hop => exact spells_of_decodeR2 "ISPRIME" hc hop (by decide) rfl rfl (by decide) rfl h
  case h_19 hop => exact spells_of_decodeR3 "GCD1" hc hop (by decide) rfl rfl (by decide) rfl h
  case h_20 hop => exact spells_of_decodeR3 "GCD2" hc hop (by decide) rfl rfl (by decide) rfl h
  case h_21 hop => exact spells_of_decodeI "RHO1" hc hop (by decide) (by exact decide_eq_true (immField_lt c)) rfl (by decide) rfl h
  case h_22 hop => exact spells_of_decodeI "RHO2" hc hop (by decide) (by exact decide_eq_true (immField_lt c)) rfl (by decide) rfl h
  case h_23 hop => exact spells_of_decodeRS2 "FACTOR" hc hop (by decide) rfl rfl (by decide) rfl h
  case h_24 hop => exact spells_of_clear hc hop h
  case h_25 hop => exact spells_of_decodeI "FINS" hc hop (by decide) (by exact decide_eq_true (immField_lt c)) rfl (by decide) rfl h
  case h_26 hop => exact spells_of_decodeRS2 "FINSL" hc hop (by decide) rfl rfl (by decide) rfl h
  case h_27 => cases h

/-! ### The rows of the table -/

/-- No two rows share a mnemonic, and every row's match has its own opcode byte, which its mask covers. -/
theorem opcodeTable_rows : (opcodeTable.map OpRow.mnemonic).Nodup ∧
    (opcodeTable.map fun row => row.matchBits % 0x100).Nodup ∧ ∀ row ∈ opcodeTable, row.mask % 0x100 = 0xFF := by
  decide

theorem opRow_eq_of_mnemonic {r r' : OpRow} (hr : r ∈ opcodeTable) (hr' : r' ∈ opcodeTable)
    (h : r.mnemonic = r'.mnemonic) : r = r' :=
  List.inj_on_of_nodup_map opcodeTable_rows.1 hr hr' h

/-- A word selects at most one row: the opcode byte decides. -/
theorem opRow_eq_of_matches {c : Nat} {r r' : OpRow} (hr : r ∈ opcodeTable) (hr' : r' ∈ opcodeTable)
    (h : c &&& r.mask = r.matchBits) (h' : c &&& r'.mask = r'.matchBits) : r = r' := by
  obtain ⟨-, hbytes, hmask⟩ := opcodeTable_rows
  have hbyte : ∀ r ∈ opcodeTable, c &&& r.mask = r.matchBits → r.matchBits % 0x100 = c % 0x100 := by
    intro r hr h
    rw [← h, show (0x100 : Nat) = 2 ^ 8 from rfl, Nat.and_mod_two_pow, show r.mask % 2 ^ 8 = 2 ^ 8 - 1 from hmask r hr,
      Nat.and_two_pow_sub_one_eq_mod, Nat.mod_mod]
  exact List.inj_on_of_nodup_map hbytes hr hr' ((hbyte r hr h).trans (hbyte r' hr' h').symm)

end Sys2Proof
end

section
/-!
PROOFS. The statements of spec/30_encoding.md on decoding and encoding (R70 to R76).
-/
open Sys2Proof Sys2Proof.Machine

/-- Settles O1: each field of the packed word reads what was packed, in the lemmas of `decodeWord_encodeWord`. -/
theorem decodeInvertsEncode : Obligations.DecodeInvertsEncode := fun _ => decode_encode

/-- Settles O2: packing the fields that the decoder read gives the word back, because the reserved bits are zero. -/
theorem encodeInvertsDecode : Obligations.EncodeInvertsDecode := by
  intro v i h
  have hlt : v.toNat < 0x100000000 := ((exists_decode_iff v).mp ⟨i, h⟩).1
  rw [decode, if_pos (Nat.div_eq_of_lt hlt)] at h
  obtain ⟨hwf, henc, -⟩ := spells_of_decodeWord hlt h
  exact ⟨hwf, by rw [encode, henc, BitVec.ofNat_toNat, BitVec.setWidth_eq]⟩

/-- Settles O3: an accepted word selects the row of its command, and a word selects one row only. -/
theorem decoderFollowsOpcodeTable : Obligations.DecoderFollowsOpcodeTable := by
  refine ⟨rfl, fun c hc row hrow => ⟨fun hmatch => ?decodes, ?selects⟩⟩
  case decodes =>
    obtain ⟨i, hi⟩ := (exists_decodeWord_iff hc).mpr ⟨row, hrow, hmatch⟩
    obtain ⟨-, -, row', hrow', hname, hmatch'⟩ := spells_of_decodeWord hc hi
    exact ⟨i, hi, by rw [← hname, opRow_eq_of_matches hrow hrow' hmatch hmatch']⟩
  case selects =>
    rintro ⟨i, hi, hname⟩
    obtain ⟨-, -, row', hrow', hname', hmatch'⟩ := spells_of_decodeWord hc hi
    rwa [opRow_eq_of_mnemonic hrow hrow' (hname.symm.trans hname'.symm)]

/-- Settles O4. -/
theorem sampleWordsDecode : Obligations.SampleWordsDecode := by
  refine ⟨?_, ?_, ?_, ?_, ?_, ?_, ?_, ?_, ?_⟩ <;> exact encodedAs_of_encodeWord rfl rfl
end

section
/-!
PROOFS. Host accesses that are refused (spec/20_memory.md R54), reads of a running block (R57), and what a step keeps of
the model's own fields (spec/10_state.md section 9; spec/70_reset_and_hazards.md R230).
-/
namespace Sys2Proof.Machine

/-! ### Refused accesses -/

theorem refusedAccess_eq_true {off width : Nat} (h : width ≠ 8 ∨ off % 8 ≠ 0) : refusedAccess off width = true := by
  simpa [refusedAccess] using h

theorem hostRead_refused {off width : Nat} (h : width ≠ 8 ∨ off % 8 ≠ 0) (s : State) :
    hostRead off width s = { lostState s with rdata := 0 } := by
  rw [hostRead, if_pos (refusedAccess_eq_true h)]
  rfl

theorem hostWrite_refused {off width : Nat} (h : width ≠ 8 ∨ off % 8 ≠ 0) (v : Word) (s : State) :
    hostWrite off width v s = lostState s := by
  rw [hostWrite, if_pos (refusedAccess_eq_true h)]
  rfl

/-! ### What reads return -/

/-- A read has one value only. -/
theorem hostReads_unique {off : Nat} {s : State} {v w : Word} (hv : HostReads off s v) (hw : HostReads off s w) :
    v = w := by
  have h := (hv []).symm.trans (hw [])
  simp only [Host.Outcome.next.injEq, State.mk.injEq] at h
  tauto

/-- Byte `k` of the slot at an aligned offset lies `k` above it (R54). -/
theorem windowByte_add {off k : Nat} (h8 : off % 8 = 0) (hk : k < 8) (s : State) :
    windowByte (off + k) s = BitVec.ofNat 8 ((slotValue (slotAt off) s).toNat / 2 ^ (8 * k)) := by
  have hmod : (off + k) % 8 = k := by omega
  rw [windowByte, hmod, Nat.add_sub_cancel]

/-- An aligned read reaches the host's value and the count of unspecified reads only. -/
theorem exists_hostRead_eq {off : Nat} (h8 : off % 8 = 0) (s : State) :
    ∃ (v : Word) (k : Nat), (k = s.freeIdx ∨ k = s.freeIdx + 1) ∧
      hostRead off 8 s = { s with rdata := v, freeIdx := k } := by
  rw [hostRead, refusedAccess_aligned h8]
  cases s.status.busy && (slotAt off).hiddenWhileBusy
  · exact ⟨slotValue (slotAt off) s, s.freeIdx, .inl rfl, rfl⟩
  · exact ⟨Config.busyRead s.freeIdx, s.freeIdx + 1, .inr rfl, rfl⟩

/-- A slot that is not hidden reads what it holds, whether the engine runs or not (R57). -/
theorem hostReads_visible {off : Nat} {slot : Slot} (hslot : slotAt off = slot) (hvis : slot.hiddenWhileBusy = false)
    (h8 : off % 8 = 0) (hlt : off < 0x800) {s : State} {v : Word} (hv : slotValue slot s = v) : HostReads off s v := by
  intro rest
  rw [step_read hlt, hostRead, refusedAccess_aligned h8, hslot, hvis, Bool.and_false, slotValue_withHost, hv]
  rfl

/-! ### What a step keeps -/

theorem CommandEnd.sameEnvironment {s t : State} (h : CommandEnd s t) : SameEnvironment s t := by
  cases h with
  | completes h => exact ⟨h.params, h.host, h.rdata, h.freeIdx⟩
  | faults code acc => exact ⟨rfl, rfl, rfl, rfl⟩
  | never => exact ⟨rfl, rfl, rfl, rfl⟩

theorem elapse_endsFrom (s : State) : EndsFrom s (elapse s) := by
  unfold elapse
  split_ifs
  · exact runCommand_endsFrom s
  · exact ⟨s, rfl, .never⟩

theorem params_writeSlot (slot : Slot) (v : Word) (s : State) : (writeSlot slot v s).params = s.params := by
  cases slot with
  | cmd =>
    unfold writeSlot
    split_ifs <;> rfl
  | _ => rfl

theorem params_hostWrite (off width : Nat) (v : Word) (s : State) : (hostWrite off width v s).params = s.params := by
  obtain h | h := hostWrite_cases off width v s
  · rw [h]
    rfl
  · rw [h, params_writeSlot]

theorem params_hostRead (off width : Nat) (s : State) : (hostRead off width s).params = s.params := by
  obtain h | h | h := hostRead_cases off width s <;> simp [h]

theorem params_hostStep {e : HostEvent} {s t : State} (h : hostStep e s = .next t) : t.params = s.params := by
  cases e with
  | read off width => rw [eq_of_ite_fault_eq_next h, params_hostRead]
  | write off width v => rw [eq_of_ite_fault_eq_next h, params_hostWrite]
  | reset =>
    cases h
    rfl
  | elapse => exact ((elapse_endsFrom s).commandEnd h).sameEnvironment.params

theorem params_step {s t : State} (h : step s = .next t) : t.params = s.params := by
  cases hhost : s.host with
  | nil =>
    rw [step_of_host_nil hhost] at h
    exact ((elapse_endsFrom s).commandEnd h).sameEnvironment.params
  | cons e rest =>
    rw [step_of_host_cons hhost] at h
    exact params_hostStep (s := { s with host := rest }) h

/-! ### When a step stops -/

theorem inWindow_eq_false_iff {off : Nat} : inWindow off = false ↔ 0x800 ≤ off := by
  simp [inWindow]

/-- The host's next action is an access outside the window (R51). -/
def StopsAt (e : HostEvent) : Prop :=
  ∃ off width, 0x800 ≤ off ∧ (e = .read off width ∨ ∃ v, e = .write off width v)

@[simp] theorem stopsAt_read {off width : Nat} : StopsAt (.read off width) ↔ 0x800 ≤ off := by
  simp [StopsAt]

@[simp] theorem stopsAt_write {off width : Nat} {v : Word} : StopsAt (.write off width v) ↔ 0x800 ≤ off := by
  simp [StopsAt]

@[simp] theorem not_stopsAt_reset : ¬StopsAt .reset := by
  simp [StopsAt]

@[simp] theorem not_stopsAt_elapse : ¬StopsAt .elapse := by
  simp [StopsAt]

/-- An access in the window answers the state of that access, any other stops the machine. -/
theorem window_answers (off : Nat) (t : State) :
    (¬0x800 ≤ off ∧ ∃ u, (if inWindow off then .next t else .fault .outsideWindow : Result) = .next u) ∨
      (0x800 ≤ off ∧ (if inWindow off then .next t else .fault .outsideWindow : Result) = .fault .outsideWindow) := by
  cases hw : inWindow off with
  | true => exact .inl ⟨fun h => Bool.noConfusion (hw.symm.trans (inWindow_eq_false_iff.mpr h)), t, rfl⟩
  | false => exact .inr ⟨inWindow_eq_false_iff.mp hw, rfl⟩

/-- A host action answers a next state, or it is an access outside the window and the step faults. -/
theorem hostStep_answers (e : HostEvent) (s : State) :
    (¬StopsAt e ∧ ∃ t, hostStep e s = .next t) ∨ (StopsAt e ∧ hostStep e s = .fault .outsideWindow) := by
  cases e with
  | read off width =>
    rw [stopsAt_read]
    exact window_answers off _
  | write off width v =>
    rw [stopsAt_write]
    exact window_answers off _
  | reset => exact .inl ⟨not_stopsAt_reset, _, rfl⟩
  | elapse =>
    obtain ⟨t, ht, -⟩ := elapse_endsFrom s
    exact .inl ⟨not_stopsAt_elapse, t, ht⟩

/-- The same of a step: it stops only on the host's next action. -/
theorem step_answers (s : State) :
    ((∀ e rest, s.host = e :: rest → ¬StopsAt e) ∧ ∃ t, step s = .next t) ∨
      ((∃ e rest, s.host = e :: rest ∧ StopsAt e) ∧ step s = .fault .outsideWindow) := by
  cases hhost : s.host with
  | nil =>
    obtain ⟨t, ht, -⟩ := elapse_endsFrom s
    exact .inl ⟨by simp, t, (step_of_host_nil hhost).trans ht⟩
  | cons e rest =>
    rw [step_of_host_cons hhost]
    obtain ⟨hno, hnext⟩ | ⟨hstop, hfault⟩ := hostStep_answers e { s with host := rest }
    · exact .inl ⟨by simpa using hno, hnext⟩
    · exact .inr ⟨⟨e, rest, rfl, hstop⟩, hfault⟩

end Sys2Proof.Machine
end

section
/-!
PROOFS. The statements on single steps: the engine's own (spec/30_encoding.md R75), refused accesses and reads
(spec/20_memory.md R54, R57), the reset input (spec/70_reset_and_hazards.md R230) and the implementation's parameter
(spec/10_state.md section 9).
-/
open Sys2Proof Sys2Proof.Machine

/-- Settles O6. -/
theorem stepRunsDecodedCommand : Obligations.StepRunsDecodedCommand := by
  refine ⟨fun s i hb hi => ⟨fun hhost => ?_, fun rest hhost => ?_⟩,
    fun s hb => ⟨fun hhost => ?_, fun rest hhost => ?_⟩⟩
  · rw [step_of_host_nil hhost, elapse_busy hb, runCommand_of_decode hi]
  · rw [step_of_host_elapse hhost, elapse_busy (s := { s with host := rest }) hb,
      runCommand_of_decode (s := { s with host := rest }) hi]
  · rw [step_of_host_nil hhost, elapse_idle hb]
  · rw [step_of_host_elapse hhost, elapse_idle (s := { s with host := rest }) hb]

/-- Settles O13: a byte of the window is a byte of the one value that the aligned read returns. -/
theorem refusedAccessesSetLost : Obligations.RefusedAccessesSetLost := by
  refine ⟨fun s off width rest hlt href => ⟨?_, fun v => ?_⟩, fun s off v k hb h8 hlt hk hread => ?_,
    fun s i hb => ⟨?_, ?_⟩⟩
  · rw [step_read hlt, hostRead_refused href]
    rfl
  · rw [step_write hlt, hostWrite_refused href]
    rfl
  · rw [windowByte_add h8 hk, hostReads_unique hread (hostReads_idle h8 hlt hb)]
  · exact hostReads_slot (slotAt_regLo i) (by omega) (by omega) hb rfl
  · rw [show 0x100 + 16 * i.val + 8 = 0x108 + 16 * i.val by omega]
    exact hostReads_slot (slotAt_regHi i) (by omega) (by omega) hb rfl

/-- Settles O14: `CMD`, `STATUS` and `CTRL` are the slots that a running command does not hide. -/
theorem busyReadsChangeNothing : Obligations.BusyReadsChangeNothing := by
  refine ⟨fun s off rest h8 hlt => ?_, fun s hb => ⟨hostReads_cmd s, ?_, ?_⟩⟩
  · obtain ⟨v, k, hk, hread⟩ := exists_hostRead_eq h8 { s with host := rest }
    exact ⟨v, k, hk, by rw [step_read hlt, hread]⟩
  · refine hostReads_visible (slot := .status) rfl rfl rfl (by decide) ?_
    simp only [slotValue, statusWord_eq_ofNat, hb, Bool.toNat_true]
  · exact hostReads_visible (slot := .ctrl) rfl rfl rfl (by decide) ((bitAt_eq_ofNat s.prove 0).trans (by simp))

/-- Settles O16. -/
theorem resetEventRestoresResetState : Obligations.ResetEventRestoresResetState := fun _ _ => rfl

/-- Settles O59: every step answers a next state, but on an access outside the window. -/
theorem stepsKeepTheParameter : Obligations.StepsKeepTheParameter := by
  refine ⟨fun s t => params_step, fun s why h => ?noRefusal, fun s => ⟨fun h => ?stops, ?outside⟩⟩
  case noRefusal =>
    obtain ⟨-, t, ht⟩ | ⟨-, ht⟩ := step_answers s
    · cases ht.symm.trans h
    · cases ht.symm.trans h
  case stops =>
    obtain ⟨-, t, ht⟩ | ⟨⟨e, rest, hhost, off, width, hoff, he⟩, -⟩ := step_answers s
    · cases ht.symm.trans h
    · refine ⟨off, width, rest, hoff, he.imp ?_ ?_⟩
      · rintro rfl
        exact hhost
      · rintro ⟨v, rfl⟩
        exact ⟨v, hhost⟩
  case outside =>
    rintro ⟨off, width, rest, hoff, hhost⟩
    obtain ⟨hno, -⟩ | ⟨-, ht⟩ := step_answers s
    · obtain hhost | ⟨v, hhost⟩ := hhost
      · exact absurd ⟨off, width, hoff, .inl rfl⟩ (hno _ _ hhost)
      · exact absurd ⟨off, width, hoff, .inr ⟨v, rfl⟩⟩ (hno _ _ hhost)
    · exact ht
end

section
/-!
PROOFS. Montgomery powers (spec/41_modular.md R118) and Montgomery forms: the radix is a unit modulo an odd number, so a
form determines its value (R112, R113, R123).
-/
namespace Sys2Proof.Machine

theorem two_mul_half_add (e : Nat) : 2 * (e / 2) + e % 2 = e := by omega

/-! ### The loop of R118

The loop multiplies `y` by `b^(2 * (e / 2))`, the bits of the exponent above the lowest, each product with one division
by the radix. -/

section Power
variable (w : Width) {n ni : Nat} (hn : n < w.radix) (hinv : n % Config.base * ni % Config.base = 1)
include hn hinv

theorem mulredc_lt {a b : Nat} (ha : a < n) (hb : b < n) : mulredc w a b n ni < n :=
  (mulredc_spec w hn ha hb hinv).1

theorem mulredc_modEq {a b : Nat} (ha : a < n) (hb : b < n) : mulredc w a b n ni * w.radix ≡ a * b [MOD n] :=
  (mulredc_spec w hn ha hb hinv).2

/-- The product after one bit of the exponent: `y` or `y * b / R`. -/
theorem powLoop_step {b y e : Nat} (hb : b < n) (hy : y < n) :
    (if e % 2 = 1 then mulredc w y b n ni else y) < n ∧
      (if e % 2 = 1 then mulredc w y b n ni else y) * w.radix ^ (e % 2) ≡ y * b ^ (e % 2) [MOD n] := by
  obtain he | he := Nat.mod_two_eq_zero_or_one e
  · simp only [he, Nat.zero_ne_one, if_false, pow_zero, mul_one]
    exact ⟨hy, rfl⟩
  · simp only [he, if_true, pow_one]
    exact ⟨mulredc_lt w hn hinv hy hb, mulredc_modEq w hn hinv hy hb⟩

theorem powLoop_spec (f : Nat) {b e y : Nat} (he : e < 2 ^ f) (hb : b < n) (hy : y < n) :
    powLoop w n ni f b e y < n ∧
      powLoop w n ni f b e y * w.radix ^ (2 * (e / 2)) ≡ y * b ^ (2 * (e / 2)) [MOD n] := by
  induction f generalizing b e y with
  | zero =>
    obtain rfl : e = 0 := by omega
    exact ⟨hy, rfl⟩
  | succ f ih =>
    by_cases hzero : e = 0
    · subst hzero
      simp only [powLoop, if_true, Nat.zero_div, mul_zero, pow_zero, mul_one]
      exact ⟨hy, rfl⟩
    · simp only [powLoop, hzero, if_false]
      have hb' := mulredc_lt w hn hinv hb hb
      have hsq := mulredc_modEq w hn hinv hb hb
      obtain ⟨hy', hbit⟩ := powLoop_step w hn hinv (e := e / 2) hb' hy
      obtain ⟨hlt, hrest⟩ := ih (e := e / 2) (by omega) hb' hy'
      refine ⟨hlt, ?_⟩
      generalize (if e / 2 % 2 = 1 then mulredc w y (mulredc w b b n ni) n ni else y) = y' at *
      generalize mulredc w b b n ni = b' at *
      generalize powLoop w n ni f b' (e / 2) y' = r at *
      have hdown : r * w.radix ^ (e / 2) ≡ y * b' ^ (e / 2) [MOD n] :=
        calc r * w.radix ^ (e / 2)
            = r * w.radix ^ (2 * (e / 2 / 2)) * w.radix ^ (e / 2 % 2) := by
              rw [mul_assoc, ← pow_add, two_mul_half_add]
          _ ≡ y' * b' ^ (2 * (e / 2 / 2)) * w.radix ^ (e / 2 % 2) [MOD n] := hrest.mul_right _
          _ = y' * w.radix ^ (e / 2 % 2) * b' ^ (2 * (e / 2 / 2)) := mul_right_comm ..
          _ ≡ y * b' ^ (e / 2 % 2) * b' ^ (2 * (e / 2 / 2)) [MOD n] := hbit.mul_right _
          _ = y * b' ^ (e / 2) := by rw [mul_assoc, ← pow_add, add_comm (e / 2 % 2), two_mul_half_add]
      calc r * w.radix ^ (2 * (e / 2))
          = r * w.radix ^ (e / 2) * w.radix ^ (e / 2) := by rw [two_mul, pow_add, mul_assoc]
        _ ≡ y * b' ^ (e / 2) * w.radix ^ (e / 2) [MOD n] := hdown.mul_right _
        _ = y * (b' * w.radix) ^ (e / 2) := by rw [mul_pow, mul_assoc]
        _ ≡ y * (b * b) ^ (e / 2) [MOD n] := (hsq.pow _).mul_left _
        _ = y * b ^ (2 * (e / 2)) := by rw [← sq, ← pow_mul]

/-- What POWREDC returns (R119, R120): the loop starts from `b` for an odd exponent and from `one` for an even one. -/
theorem powredc_spec {b one : Nat} (e : Nat) (hb : b < n) (hone : one < n) :
    powredc w b e n ni one < n ∧
      (e % 2 = 1 → powredc w b e n ni one * w.radix ^ (e - 1) % n = b ^ e % n) ∧
      (e % 2 = 0 → powredc w b e n ni one * w.radix ^ e % n = one * b ^ e % n) := by
  have hstart : (if e % 2 = 1 then b else one) < n := by split_ifs <;> assumption
  obtain ⟨hlt, hloop⟩ := powLoop_spec w hn hinv (e.log2 + 1) Nat.lt_log2_self hb hstart
  refine ⟨hlt, fun hodd => ?_, fun heven => ?_⟩
  · have hsub : 2 * (e / 2) = e - 1 := by omega
    have hpow : b * b ^ (e - 1) = b ^ e := by rw [← pow_succ', Nat.sub_add_cancel (by omega)]
    rw [if_pos hodd, hsub, hpow] at hloop
    rw [powredc, if_pos hodd]
    exact hloop
  · have hodd : ¬e % 2 = 1 := by omega
    have hsub : 2 * (e / 2) = e := by omega
    rw [if_neg hodd, hsub] at hloop
    rw [powredc, if_neg hodd]
    exact hloop

end Power

/-! ### Montgomery forms -/

/-- The Montgomery form of `v` modulo `n` (R112, R113). -/
def mont (w : Width) (n v : Nat) : Nat := v * w.radix % n

theorem tomont_eq_mont (w : Width) {v n : Nat} (hv : v < n) : tomont w v n = mont w n v := tomont_eq w hv

theorem mont_modEq (w : Width) (n v : Nat) : mont w n v ≡ v * w.radix [MOD n] := Nat.mod_modEq _ _

theorem mont_lt (w : Width) {n : Nat} (hn : 0 < n) (v : Nat) : mont w n v < n := Nat.mod_lt _ hn

section Odd
variable (w : Width) {n : Nat} (hodd : n % 2 = 1)
include hodd

/-- Both radices are powers of 2. -/
theorem coprime_radix : n.Coprime w.radix := by
  have h2 : n.Coprime 2 := (Nat.coprime_two_right.mpr (Nat.odd_iff.mpr hodd))
  cases w with
  | one => exact h2.pow_right 64
  | two => exact h2.pow_right 128

theorem modEq_of_mul_radix_pow {a b : Nat} (k : Nat) (h : a * w.radix ^ k ≡ b * w.radix ^ k [MOD n]) :
    a ≡ b [MOD n] :=
  Nat.ModEq.cancel_right_of_coprime ((coprime_radix w hodd).pow_right k) h

theorem modEq_of_mul_radix {a b : Nat} (h : a * w.radix ≡ b * w.radix [MOD n]) : a ≡ b [MOD n] :=
  Nat.ModEq.cancel_right_of_coprime (coprime_radix w hodd) h

theorem mont_eq_mont_iff {a b : Nat} : mont w n a = mont w n b ↔ a ≡ b [MOD n] :=
  ⟨fun h => modEq_of_mul_radix w hodd h, fun h => h.mul_right _⟩

omit w in
theorem inverseOf_inverts : n % Config.base * inverseOf n % Config.base = 1 := by
  rw [Nat.mod_mul_mod]
  exact mul_inverseOf hodd

variable (hn : n < w.radix)
include hn

/-- The Montgomery product of two forms is the form of the product. -/
theorem mulredc_mont {ni : Nat} (hinv : n % Config.base * ni % Config.base = 1) (a b : Nat) :
    mulredc w (mont w n a) (mont w n b) n ni = mont w n (a * b) := by
  have hpos : 0 < n := by omega
  have ha := mont_lt w hpos a
  have hb := mont_lt w hpos b
  refine Nat.ModEq.eq_of_lt_of_lt (modEq_of_mul_radix w hodd ?_) (mulredc_lt w hn hinv ha hb) (mont_lt w hpos _)
  calc mulredc w (mont w n a) (mont w n b) n ni * w.radix
      ≡ mont w n a * mont w n b [MOD n] := mulredc_modEq w hn hinv ha hb
    _ ≡ a * w.radix * (b * w.radix) [MOD n] := (mont_modEq w n a).mul (mont_modEq w n b)
    _ = a * b * w.radix * w.radix := by ring
    _ ≡ mont w n (a * b) * w.radix [MOD n] := ((mont_modEq w n _).mul_right _).symm

/-- The Montgomery power of a form is the form of the power. -/
theorem powredc_mont {ni : Nat} (hinv : n % Config.base * ni % Config.base = 1) (b e : Nat) :
    powredc w (mont w n b) e n ni (mont w n 1) = mont w n (b ^ e) := by
  have hpos : 0 < n := by omega
  obtain ⟨hlt, hoddExp, hevenExp⟩ := powredc_spec w hn hinv e (mont_lt w hpos b) (mont_lt w hpos 1)
  have hform : mont w n b ^ e ≡ b ^ e * w.radix ^ e [MOD n] := by
    rw [← mul_pow]
    exact (mont_modEq w n b).pow e
  refine Nat.ModEq.eq_of_lt_of_lt ?_ hlt (mont_lt w hpos _)
  obtain he | he := Nat.mod_two_eq_zero_or_one e
  · refine modEq_of_mul_radix_pow w hodd e ((show _ ≡ _ [MOD n] from hevenExp he).trans ?_)
    calc mont w n 1 * mont w n b ^ e
        ≡ 1 * w.radix * (b ^ e * w.radix ^ e) [MOD n] := (mont_modEq w n 1).mul hform
      _ = b ^ e * w.radix * w.radix ^ e := by ring
      _ ≡ mont w n (b ^ e) * w.radix ^ e [MOD n] := ((mont_modEq w n _).mul_right _).symm
  · refine modEq_of_mul_radix_pow w hodd (e - 1) ((show _ ≡ _ [MOD n] from hoddExp he).trans ?_)
    calc mont w n b ^ e
        ≡ b ^ e * w.radix ^ e [MOD n] := hform
      _ = b ^ e * w.radix * w.radix ^ (e - 1) := by rw [mul_assoc, ← pow_succ', Nat.sub_add_cancel (by omega)]
      _ ≡ mont w n (b ^ e) * w.radix ^ (e - 1) [MOD n] := ((mont_modEq w n _).mul_right _).symm

end Odd

/-- The residue of `a * 1 / R` is the value of which `a` is the form (R123). -/
theorem eq_of_fromMont (w : Width) {n A r : Nat} (hodd : n % 2 = 1) (hA : A < n) (hr : r < n)
    (h : r * w.radix % n = A * w.radix % n * 1 % n) : r = A := by
  rw [mul_one, Nat.mod_mod] at h
  exact Nat.ModEq.eq_of_lt_of_lt (modEq_of_mul_radix w hodd h) hr hA

end Sys2Proof.Machine
end

section
/-!
PROOFS. The statements of spec/41_modular.md on POWREDC1 and POWREDC2 (R118 to R120) and on FROMMONT1 and FROMMONT2
(R123).
-/
open Sys2Proof Sys2Proof.Machine

/-- Settles O29. -/
theorem powredcResult : Obligations.PowredcResult := by
  intro rd ra re rn ri ro s
  refine ⟨encodedAs_of_encodeWord rfl rfl, ?oneWord, encodedAs_of_encodeWord rfl rfl, ?twoWords⟩
  case oneWord =>
    simp only [exec, execPowredc1, wordOperand_eq_lowWord, guarded_even, guarded_range_pair, guarded_inv, guarded_nil]
    split_ifs with heven hrange hinv
    · rfl
    · rfl
    · rfl
    · obtain ⟨hb, hone⟩ := not_or.mp hrange
      rw [not_not, ← Nat.mod_mul_mod] at hinv
      obtain ⟨hlt, hodd, heven⟩ :=
        powredc_spec .one (lowWord_lt rn s) hinv (lowWord re s) (not_le.mp hb) (not_le.mp hone)
      exact ⟨_, hlt, hodd, heven, finish_writeWord (hlt.trans (lowWord_lt rn s)) rd s⟩
  case twoWords =>
    simp only [exec, execPowredc2, wordOperand_eq_lowWord, dwordOperand_eq_fullValue,
      ← lowWord_eq_fullValue_mod, guarded_even, guarded_topBit, guarded_range_pair, guarded_inv, guarded_nil]
    split_ifs with heven htop hrange hinv
    · rfl
    · rfl
    · rfl
    · rfl
    · obtain ⟨hb, hone⟩ := not_or.mp hrange
      have hn : fullValue rn s < Width.two.radix := (not_le.mp htop).trans (by decide)
      obtain ⟨hlt, hodd, heven⟩ :=
        powredc_spec .two hn (not_not.mp hinv) (fullValue re s) (not_le.mp hb) (not_le.mp hone)
      exact ⟨_, hlt, hodd, heven, finish_writeDword rd _ s⟩

/-- Settles O30: MULREDC with the plain 1 passes every check, and its result is pinned by the residue. -/
theorem fromMontgomeryRecoversValue : Obligations.FromMontgomeryRecoversValue := by
  refine fun xd xa xn xi xu s A => ⟨fun hodd h1 hA ha hu hinv => ?oneWord, fun hodd h1 htop hA ha hu hinv => ?twoWords⟩
  case oneWord =>
    have hlt : A * 2 ^ 64 % lowWord xn s < lowWord xn s := Nat.mod_lt _ (by omega)
    obtain ⟨-, hexec⟩ := mulredc1Result xd xa xu xn xi s
    rw [if_neg (by omega), if_neg (by omega), if_neg (not_not.mpr hinv), ha, hu] at hexec
    obtain ⟨r, hr, hres, hexec⟩ := hexec
    rwa [eq_of_fromMont .one hodd hA hr hres] at hexec
  case twoWords =>
    have hlt : A * 2 ^ 128 % fullValue xn s < fullValue xn s := Nat.mod_lt _ (by omega)
    obtain ⟨-, hexec⟩ := mulredc2Result xd xa xu xn xi s
    rw [if_neg (by omega), if_neg (by omega), if_neg (by omega), if_neg (not_not.mpr hinv), ha, hu] at hexec
    obtain ⟨r, hr, hres, hexec⟩ := hexec
    rwa [eq_of_fromMont .two hodd hA hr hres] at hexec
end

section
/-!
PROOFS. The Miller-Rabin test (spec/43_primality.md R140, R141) decides the strong probable-prime condition.
-/
namespace Sys2Proof.Machine

/-! ### The split of `n - 1` (R140) -/

theorem trailingZeros_eq (f : Nat) {v : Nat} (hv : v ≠ 0) (hlt : v < 2 ^ (f + 1)) :
    trailingZeros f v = padicValNat 2 v := by
  induction f generalizing v with
  | zero =>
    obtain rfl : v = 1 := by omega
    simp [trailingZeros]
  | succ f ih =>
    rw [trailingZeros]
    split_ifs with hodd
    · exact (padicValNat.eq_zero_of_not_dvd (by omega)).symm
    · have hdvd : 2 ∣ v := by omega
      have hpos := one_le_padicValNat_of_dvd hv hdvd
      rw [ih (by omega) (by omega), padicValNat.div hdvd]
      omega

/-- `ctz` counts the factors 2 (R11 of spec/00_scope.md). -/
theorem ctz_eq {v : Nat} (hv : v ≠ 0) : ctz v = padicValNat 2 v := trailingZeros_eq _ hv Nat.lt_log2_self

/-- The exponent of 2 in a product with an odd factor. -/
theorem padicValNat_odd_mul_two_pow {q : Nat} (hq : q % 2 = 1) (k : Nat) : padicValNat 2 (q * 2 ^ k) = k := by
  rw [padicValNat.mul (by omega) (by positivity), padicValNat.eq_zero_of_not_dvd (by omega), zero_add,
    padicValNat.prime_pow]

section Split
variable {n : Nat} (hn : 2 ≤ n)
include hn

theorem mrOdd_mul_two_pow : n - 1 = mrOdd n * 2 ^ mrTwos n := by
  rw [mrOdd, mrTwos, ctz_eq (by omega)]
  exact (Nat.div_mul_cancel pow_padicValNat_dvd).symm

theorem mrOdd_odd : mrOdd n % 2 = 1 := by
  by_contra heven
  have hdvd : 2 ∣ mrOdd n := by omega
  refine pow_succ_padicValNat_not_dvd (p := 2) (by omega : n - 1 ≠ 0) ?_
  rw [← ctz_eq (by omega : n - 1 ≠ 0), show ctz (n - 1) = mrTwos n from rfl, pow_succ',
    congrArg (2 * 2 ^ mrTwos n ∣ ·) (mrOdd_mul_two_pow hn)]
  exact Nat.mul_dvd_mul_right hdvd _

/-- The split is the only one with an odd factor. -/
theorem eq_mrOdd_mrTwos {q k : Nat} (hq : q % 2 = 1) (h : n - 1 = q * 2 ^ k) : q = mrOdd n ∧ k = mrTwos n := by
  have hk : k = mrTwos n := by rw [mrTwos, ctz_eq (by omega), h, padicValNat_odd_mul_two_pow hq]
  refine ⟨Nat.eq_of_mul_eq_mul_right (by positivity : 0 < 2 ^ k) ?_, hk⟩
  rw [← h, hk, ← mrOdd_mul_two_pow hn]

theorem strongProbablePrime_iff (b : Nat) : StrongProbablePrime n b ↔
    b ^ mrOdd n % n = 1 ∨ ∃ i < mrTwos n, b ^ (mrOdd n * 2 ^ i) % n = n - 1 := by
  constructor
  · rintro ⟨q, k, hsplit, hq, h⟩
    obtain ⟨rfl, rfl⟩ := eq_mrOdd_mrTwos hn hq hsplit
    exact h
  · exact fun h => ⟨mrOdd n, mrTwos n, mrOdd_mul_two_pow hn, mrOdd_odd hn, h⟩

theorem mrTwos_pos (hodd : n % 2 = 1) : 0 < mrTwos n := by
  rw [mrTwos, ctz_eq (by omega)]
  exact one_le_padicValNat_of_dvd (by omega) (by omega)

end Split

/-! ### The test on Montgomery forms -/

section Test
variable (w : Width) {n : Nat} (hodd : n % 2 = 1) (h3 : 3 ≤ n)
include hodd h3

theorem mont_eq_mont_one_iff {c : Nat} : mont w n c = mont w n 1 ↔ c % n = 1 := by
  rw [mont_eq_mont_iff w hodd, Nat.ModEq, Nat.mod_eq_of_lt (by omega : 1 < n)]

theorem mont_one_pos : 0 < mont w n 1 := by
  by_contra hzero
  have h : mont w n 1 = mont w n 0 := (Nat.eq_zero_of_not_pos hzero).trans (by simp [mont])
  rw [mont_eq_mont_iff w hodd, Nat.ModEq, Nat.mod_eq_of_lt (by omega : 1 < n)] at h
  simp at h

/-- The negative of the form of 1 is the form of `n - 1`. -/
theorem sub_mont_one : n - mont w n 1 = mont w n (n - 1) := by
  have hpos := mont_one_pos w hodd h3
  have hlt := mont_lt w (by omega : 0 < n) 1
  refine Nat.ModEq.eq_of_lt_of_lt (Nat.ModEq.add_right_cancel' (mont w n 1) ?_) (by omega) (mont_lt w (by omega) _)
  calc n - mont w n 1 + mont w n 1
      = n := Nat.sub_add_cancel hlt.le
    _ ≡ n * w.radix [MOD n] := by rw [Nat.ModEq, Nat.mod_self, Nat.mul_mod_right]
    _ = (n - 1) * w.radix + 1 * w.radix := by rw [← add_mul, Nat.sub_add_cancel (by omega)]
    _ ≡ mont w n (n - 1) + mont w n 1 [MOD n] := ((mont_modEq w n _).add (mont_modEq w n _)).symm

theorem mont_eq_sub_mont_one_iff {c : Nat} : mont w n c = n - mont w n 1 ↔ c % n = n - 1 := by
  rw [sub_mont_one w hodd h3, mont_eq_mont_iff w hodd, Nat.ModEq, Nat.mod_eq_of_lt (by omega : n - 1 < n)]

omit hodd in
/-- A power that is 1 stays 1 under squaring, so it never becomes -1. -/
theorem pow_two_pow_ne_of_mod_one {c : Nat} (hc : c % n = 1) (j : Nat) : c ^ 2 ^ j % n ≠ n - 1 := by
  rw [Nat.pow_mod, hc, one_pow, Nat.mod_eq_of_lt (by omega)]
  omega

variable (hn : n < w.radix)
include hn

/-- The squarings find a -1 among the next `i` squares; a 1 on the way rules it out (R141). -/
theorem mrSquarings_iff (i c : Nat) : mrSquarings w n (inverseOf n) (mont w n 1) i (mont w n c) = true ↔
    ∃ j < i, c ^ 2 ^ (j + 1) % n = n - 1 := by
  induction i generalizing c with
  | zero => simp [mrSquarings]
  | succ i ih =>
    have hsq : ∀ j, c ^ 2 ^ (j + 1) = (c * c) ^ 2 ^ j := fun j => by rw [pow_succ', pow_mul, sq]
    rw [mrSquarings, mulredc_mont w hodd hn (inverseOf_inverts hodd)]
    simp only [mont_eq_sub_mont_one_iff w hodd h3, mont_eq_mont_one_iff w hodd h3, hsq]
    split_ifs with hneg hone
    · exact iff_of_true rfl ⟨0, by omega, by simpa using hneg⟩
    · refine iff_of_false (by simp) ?_
      rintro ⟨j, -, hj⟩
      exact pow_two_pow_ne_of_mod_one h3 hone j hj
    · rw [ih]
      constructor
      · rintro ⟨j, hj, h⟩
        exact ⟨j + 1, by omega, h⟩
      · rintro ⟨_ | j, hj, h⟩
        · exact absurd (by simpa using h) hneg
        · exact ⟨j, by omega, h⟩

/-- The test on the Montgomery form of a base of any size. -/
theorem millerRabin_iff (b : Nat) :
    millerRabin w n (inverseOf n) (mont w n 1) (mont w n b) (mrOdd n) (mrTwos n) = true ↔
      StrongProbablePrime n b := by
  have hk := mrTwos_pos (by omega : 2 ≤ n) hodd
  rw [strongProbablePrime_iff (by omega), millerRabin, powredc_mont w hodd hn (inverseOf_inverts hodd)]
  simp only [mont_eq_mont_one_iff w hodd h3, mont_eq_sub_mont_one_iff w hodd h3]
  split_ifs with hfirst
  · refine iff_of_true rfl (hfirst.imp_right fun h => ⟨0, hk, ?_⟩)
    rwa [pow_zero, mul_one]
  · obtain ⟨hone, hneg⟩ := not_or.mp hfirst
    rw [mrSquarings_iff w hodd h3 hn, or_iff_right hone]
    simp only [← pow_mul]
    constructor
    · rintro ⟨j, hj, h⟩
      exact ⟨j + 1, by omega, h⟩
    · rintro ⟨_ | j, hj, h⟩
      · exact absurd (by simpa using h) hneg
      · exact ⟨j, by omega, h⟩

theorem mrTest_iff {b : Nat} (hb : b < n) : mrTest w n b = true ↔ StrongProbablePrime n b := by
  rw [mrTest, tomont_eq_mont w (by omega : 1 < n), tomont_eq_mont w hb, millerRabin_iff w hodd h3 hn]

end Test

/-! ### Verdicts -/

theorem finish_writeVerdict (rd : Reg) (b : Bool) (s : State) :
    finish (writeVerdict rd b s) = .next (resultState rd b.toNat s) := by
  cases b <;> rfl

/-- A command that ends with the verdict `b`, true exactly if `P` holds. -/
theorem verdictIs_of_finish {i : Instr} {rd : Reg} {s : State} {b : Bool} {P : Prop}
    (h : exec i s = finish (writeVerdict rd b s)) (hb : b = true ↔ P) : VerdictIs i rd s P := by
  rw [finish_writeVerdict] at h
  refine ⟨fun hP => ?_, fun hP => ?_⟩
  · rwa [hb.mpr hP] at h
  · rwa [Bool.eq_false_of_not_eq_true (mt hb.mp hP)] at h

theorem guarded_range_three (rest : List (Bool × FaultCode)) (s : State) (go : Unit → Result) (n b : Nat) :
    guarded ((decide (3 ≤ n ∧ b < n), .range) :: rest) s go =
      if n < 3 ∨ n ≤ b then .next (raiseFault .range s) else guarded rest s go :=
  guarded_cons rest s go (by rw [not_or, not_lt, not_le]) .range

theorem exec_mr1 (rd rn rb : Reg) (s : State) : exec (.mr1 rd rn rb) s =
    if lowWord rn s % 2 = 0 then .next (raiseFault .even s)
    else if lowWord rn s < 3 ∨ lowWord rn s ≤ lowWord rb s then .next (raiseFault .range s)
    else finish (writeVerdict rd (mrTest .one (lowWord rn s) (lowWord rb s)) s) := by
  simp only [exec, execMr1, wordOperand_eq_lowWord, guarded_even, guarded_range_three, guarded_nil]

theorem exec_mr2 (rd rn rb : Reg) (s : State) : exec (.mr2 rd rn rb) s =
    if fullValue rn s % 2 = 0 then .next (raiseFault .even s)
    else if 2 ^ 127 ≤ fullValue rn s then .next (raiseFault .topBit s)
    else if fullValue rn s < 3 ∨ fullValue rn s ≤ fullValue rb s then .next (raiseFault .range s)
    else finish (writeVerdict rd (mrTest .two (fullValue rn s) (fullValue rb s)) s) := by
  simp only [exec, execMr2, dwordOperand_eq_fullValue, guarded_even, guarded_topBit, guarded_range_three, guarded_nil]

end Sys2Proof.Machine
end

section
/-!
PROOFS. The statement of spec/43_primality.md on MR1 and MR2 (R142, R143).
-/
open Sys2Proof Sys2Proof.Machine

/-- Settles O36. -/
theorem millerRabinVerdict : Obligations.MillerRabinVerdict := by
  intro rd rn rb s
  refine ⟨encodedAs_of_encodeWord rfl rfl, encodedAs_of_encodeWord rfl rfl, ?oneWord, ?twoWords⟩
  case oneWord =>
    have hexec := exec_mr1 rd rn rb s
    split_ifs at hexec ⊢ with heven hrange
    · exact hexec
    · exact hexec
    · obtain ⟨h3, hb⟩ := not_or.mp hrange
      exact verdictIs_of_finish hexec
        (mrTest_iff .one (by omega) (not_lt.mp h3) (lowWord_lt rn s) (not_le.mp hb))
  case twoWords =>
    have hexec := exec_mr2 rd rn rb s
    split_ifs at hexec ⊢ with heven htop hrange
    · exact hexec
    · exact hexec
    · exact hexec
    · obtain ⟨h3, hb⟩ := not_or.mp hrange
      have hn : fullValue rn s < Width.two.radix := (not_le.mp htop).trans (by decide)
      exact verdictIs_of_finish hexec (mrTest_iff .two (by omega) (not_lt.mp h3) hn (not_le.mp hb))
end

section
/-!
PROOFS. The prime table (spec/10_state.md R33): its entries are the odd primes in order, whatever its size, and what each
entry's constants are.
-/
namespace Sys2Proof.Machine

/-! ### The search for the next prime -/

/-- The search divides by `d, d + 2, ...` as far as their squares reach; its bound is never what ends it. -/
theorem noOddDivisor_iff {f d m : Nat} (hf : m < (d + 2 * f) * (d + 2 * f)) :
    noOddDivisor f d m = true ↔ ∀ j, (d + 2 * j) * (d + 2 * j) ≤ m → ¬d + 2 * j ∣ m := by
  induction f generalizing d with
  | zero =>
    refine iff_of_true rfl fun j hj => absurd (Nat.mul_self_le_mul_self (Nat.le_add_right d (2 * j))) ?_
    simp only [mul_zero, add_zero] at hf
    omega
  | succ f ih =>
    rw [noOddDivisor]
    split_ifs with hlt hdvd
    · refine iff_of_true rfl fun j hj => absurd (Nat.mul_self_le_mul_self (Nat.le_add_right d (2 * j))) (by omega)
    · refine iff_of_false (by simp) fun h => h 0 (by simpa using hlt) (Nat.dvd_of_mod_eq_zero (by simpa using hdvd))
    · rw [ih (by rwa [show d + 2 + 2 * f = d + 2 * (f + 1) by ring])]
      constructor
      · rintro h (_ | j)
        · exact fun _ h0 => hdvd (Nat.mod_eq_zero_of_dvd (by simpa using h0))
        · rw [show d + 2 * (j + 1) = d + 2 + 2 * j by ring]
          exact h j
      · intro h j
        rw [show d + 2 + 2 * j = d + 2 * (j + 1) by ring]
        exact h (j + 1)

theorem noOddDivisor_iff_prime {c : Nat} (hodd : c % 2 = 1) (h3 : 3 ≤ c) : noOddDivisor c 3 c = true ↔ c.Prime := by
  rw [noOddDivisor_iff (by nlinarith)]
  constructor
  · intro h
    by_contra hc
    have hdvd := c.minFac_dvd
    have hp : c.minFac.Prime := Nat.minFac_prime (by omega)
    have hodd' : c.minFac % 2 = 1 := by
      by_contra heven
      have : 2 ∣ c := Dvd.dvd.trans (by omega) hdvd
      omega
    have heq : 3 + 2 * ((c.minFac - 3) / 2) = c.minFac := by
      have := hp.two_le
      omega
    refine h ((c.minFac - 3) / 2) ?_ (by rwa [heq])
    rw [heq, ← sq]
    exact Nat.minFac_sq_le_self (by omega) hc
  · intro hc j hj hdvd
    obtain h | h := (Nat.dvd_prime hc).mp hdvd
    · omega
    · rw [h] at hj
      nlinarith

/-- The search from `c` ends at the first prime, if there is one within its bound. -/
theorem nextOddPrime_spec {f c : Nat} (hodd : c % 2 = 1) (h3 : 3 ≤ c)
    (hex : ∃ q, q.Prime ∧ c ≤ q ∧ q < c + 2 * f) :
    (nextOddPrime f c).Prime ∧ c ≤ nextOddPrime f c ∧ ∀ q, q.Prime → c ≤ q → nextOddPrime f c ≤ q := by
  induction f generalizing c with
  | zero =>
    obtain ⟨q, -, hle, hlt⟩ := hex
    omega
  | succ f ih =>
    rw [nextOddPrime]
    split_ifs with hp
    · exact ⟨(noOddDivisor_iff_prime hodd h3).mp hp, le_rfl, fun q _ hle => hle⟩
    · have hskip : ∀ q, q.Prime → c ≤ q → c + 2 ≤ q := by
        intro q hq hle
        have hne : q ≠ c := fun h => hp ((noOddDivisor_iff_prime hodd h3).mpr (h ▸ hq))
        have hodd' := hq.eq_two_or_odd
        omega
      obtain ⟨q, hq, hle, hlt⟩ := hex
      have hle' := hskip q hq hle
      obtain ⟨hprime, hge, hleast⟩ := ih (c := c + 2) (by omega) (by omega) ⟨q, hq, hle', by omega⟩
      exact ⟨hprime, by omega, fun q hq hle => hleast q hq (hskip q hq hle)⟩

/-- By Bertrand's postulate the bound `c` of the search from `c` suffices. -/
theorem nextOddPrime_eq_nth {c : Nat} (hodd : c % 2 = 1) (h3 : 3 ≤ c) :
    nextOddPrime c c = Nat.nth Nat.Prime (Nat.count Nat.Prime c) := by
  obtain ⟨q, hq, hlt, hle⟩ := Nat.exists_prime_lt_and_le_two_mul c (by omega)
  obtain ⟨hprime, hge, hleast⟩ := nextOddPrime_spec (f := c) hodd h3 ⟨q, hq, hlt.le, by omega⟩
  apply le_antisymm
  · exact hleast _ (Nat.prime_nth_prime _) (Nat.le_nth_count Nat.infinite_setOfPred_prime c)
  · calc Nat.nth Nat.Prime (Nat.count Nat.Prime c)
        ≤ Nat.nth Nat.Prime (Nat.count Nat.Prime (nextOddPrime c c)) :=
          Nat.nth_monotone Nat.infinite_setOfPred_prime (Nat.count_monotone _ hge)
      _ = nextOddPrime c c := Nat.nth_count hprime

/-- The list from `c` holds the primes from `c` on, in order. -/
theorem oddPrimesFrom_eq (k : Nat) {c : Nat} (hodd : c % 2 = 1) (h3 : 3 ≤ c) :
    oddPrimesFrom k c = (List.range k).map fun i => Nat.nth Nat.Prime (Nat.count Nat.Prime c + i) := by
  induction k generalizing c with
  | zero => rfl
  | succ k ih =>
    have hp := nextOddPrime_eq_nth hodd h3
    have hprime : (nextOddPrime c c).Prime := hp ▸ Nat.prime_nth_prime _
    have hge : c ≤ nextOddPrime c c := hp ▸ Nat.le_nth_count Nat.infinite_setOfPred_prime c
    have hodd' : nextOddPrime c c % 2 = 1 := hprime.eq_two_or_odd.resolve_left (by omega)
    have hcount : Nat.count Nat.Prime (nextOddPrime c c + 2) = Nat.count Nat.Prime c + 1 := by
      have hnot : ¬(nextOddPrime c c + 1).Prime := fun h => by
        have := h.eq_two_or_odd
        omega
      rw [Nat.count_succ, if_neg hnot, Nat.count_succ, if_pos hprime, hp,
        Nat.count_nth_of_infinite Nat.infinite_setOfPred_prime]
    rw [oddPrimesFrom, List.range_succ_eq_map, List.map_cons, List.map_map]
    refine congrArg₂ _ hp ((ih (by omega) (by omega)).trans (List.map_congr_left fun i _ => ?_))
    rw [hcount, Function.comp_apply, Nat.succ_eq_add_one, add_assoc, add_comm 1 i]

/-! ### The table and the first omitted prime -/

theorem tablePrimes_eq (td : Nat) : tablePrimes td = (List.range td).map fun i => Nat.nth Nat.Prime (i + 1) := by
  have hcount : Nat.count Nat.Prime 3 = 1 := by decide
  rw [tablePrimes, oddPrimesFrom_eq td rfl le_rfl, hcount]
  exact List.map_congr_left fun i _ => by rw [add_comm]

theorem firstOmitted_eq (td : Nat) : firstOmitted td = Nat.nth Nat.Prime (td + 1) := by
  rw [firstOmitted, ← tablePrimes, tablePrimes_eq, List.range_succ, List.map_append, List.map_singleton,
    List.getLastD_concat]

theorem length_tablePrimes (td : Nat) : (tablePrimes td).length = td := by
  rw [tablePrimes_eq, List.length_map, List.length_range]

theorem firstOmitted_prime (td : Nat) : (firstOmitted td).Prime := firstOmitted_eq td ▸ Nat.prime_nth_prime _

theorem tablePrimes_getElem? {td i : Nat} (hi : i < td) : (tablePrimes td)[i]? = some (Nat.nth Nat.Prime (i + 1)) := by
  rw [tablePrimes_eq, List.getElem?_map, List.getElem?_range hi, Option.map_some]

/-- The first `e` table primes are the odd primes below the next one. -/
theorem mem_take_tablePrimes_iff {td e p : Nat} (he : e ≤ td) :
    p ∈ (tablePrimes td).take e ↔ p.Prime ∧ p ≠ 2 ∧ p < Nat.nth Nat.Prime (e + 1) := by
  have hmono := Nat.nth_strictMono Nat.infinite_setOfPred_prime
  rw [tablePrimes_eq, ← List.map_take, List.take_range, min_eq_left he]
  simp only [List.mem_map, List.mem_range]
  constructor
  · rintro ⟨i, hi, rfl⟩
    refine ⟨Nat.prime_nth_prime _, ?_, hmono (by omega)⟩
    rw [← Nat.nth_prime_zero_eq_two]
    exact (hmono (Nat.succ_pos i)).ne'
  · rintro ⟨hp, h2, hlt⟩
    have hcount := Nat.nth_count hp
    rw [← hcount] at hlt
    have hle := hmono.lt_iff_lt.mp hlt
    have hpos : Nat.count Nat.Prime p ≠ 0 := fun h0 => h2 (by rw [← hcount, h0, Nat.nth_prime_zero_eq_two])
    exact ⟨Nat.count Nat.Prime p - 1, by omega, by rw [Nat.sub_add_cancel (by omega), hcount]⟩

theorem mem_tablePrimes_iff {td p : Nat} : p ∈ tablePrimes td ↔ p.Prime ∧ p ≠ 2 ∧ p < firstOmitted td := by
  rw [firstOmitted_eq, ← mem_take_tablePrimes_iff le_rfl, List.take_of_length_le (length_tablePrimes td).le]

theorem take_tablePrimes {td k : Nat} (h : k ≤ td) : (tablePrimes td).take k = tablePrimes k := by
  rw [tablePrimes_eq, tablePrimes_eq, ← List.map_take, List.take_range, min_eq_left h]

theorem odd_of_mem_tablePrimes {td p : Nat} (h : p ∈ tablePrimes td) : p % 2 = 1 := by
  obtain ⟨hp, h2, -⟩ := mem_tablePrimes_iff.mp h
  exact hp.eq_two_or_odd.resolve_left h2

/-! ### Entries -/

/-- What an entry of the table holds: an odd number, its inverse modulo the word base, and the largest quotient. -/
structure TableEntry.Sound (en : TableEntry) : Prop where
  odd : en.p % 2 = 1
  three_le : 3 ≤ en.p
  pinv_lt : en.pinv < Config.base
  inverse : en.p * en.pinv % Config.base = 1
  lim : en.lim = (Config.base - 1) / en.p

theorem entriesFrom_getElem? (prev : Nat) (ps : List Nat) (i : Nat) : (entriesFrom prev ps)[i]? =
    ps[i]?.map fun p => { p := p, diff := p - (prev :: ps).getD i 0, pinv := inverseOf p
                          lim := (Config.base - 1) / p } := by
  induction ps generalizing prev i with
  | nil => rfl
  | cons p ps ih =>
    cases i with
    | zero => rfl
    | succ i => simp only [entriesFrom, List.getElem?_cons_succ, ih, List.getD_cons_succ]

theorem map_p_entriesFrom (prev : Nat) (ps : List Nat) : (entriesFrom prev ps).map TableEntry.p = ps := by
  induction ps generalizing prev with
  | nil => rfl
  | cons p ps ih => rw [entriesFrom, List.map_cons, ih]

theorem map_p_primeTable (td : Nat) : (primeTable td).map TableEntry.p = tablePrimes td := map_p_entriesFrom _ _

theorem length_primeTable (td : Nat) : (primeTable td).length = td := by
  rw [← List.length_map (f := TableEntry.p), map_p_primeTable, length_tablePrimes]

theorem primeTable_getElem? {td i : Nat} {en : TableEntry} (h : (primeTable td)[i]? = some en) :
    i < td ∧ en = { p := Nat.nth Nat.Prime (i + 1), diff := Nat.nth Nat.Prime (i + 1) - Nat.nth Nat.Prime i
                    pinv := inverseOf (Nat.nth Nat.Prime (i + 1))
                    lim := (Config.base - 1) / Nat.nth Nat.Prime (i + 1) } := by
  have hi : i < td := by
    rw [← length_primeTable td]
    exact (List.getElem?_eq_some_iff.mp h).1
  have hprev : (2 :: tablePrimes td).getD i 0 = Nat.nth Nat.Prime i := by
    cases i with
    | zero => rw [List.getD_cons_zero, Nat.nth_prime_zero_eq_two]
    | succ i => rw [List.getD_cons_succ, List.getD_eq_getElem?_getD, tablePrimes_getElem? (by omega), Option.getD_some]
  rw [primeTable, entriesFrom_getElem?, tablePrimes_getElem? hi, Option.map_some, hprev] at h
  exact ⟨hi, (Option.some.inj h).symm⟩

theorem sound_of_mem_primeTable {td : Nat} {en : TableEntry} (h : en ∈ primeTable td) : en.Sound := by
  have hp : en.p ∈ tablePrimes td := map_p_primeTable td ▸ List.mem_map_of_mem h
  have hodd := odd_of_mem_tablePrimes hp
  obtain ⟨hprime, h2, -⟩ := mem_tablePrimes_iff.mp hp
  have htwo := hprime.two_le
  obtain ⟨i, hi⟩ := List.mem_iff_getElem?.mp h
  obtain ⟨-, rfl⟩ := primeTable_getElem? hi
  exact ⟨hodd, by omega, inverseOf_lt _, mul_inverseOf hodd, rfl⟩

/-! ### The constraints on the table size (spec/00_scope.md R8) -/

theorem legal_bounds {ps : Params} (h : ps.legal = true) : 24 ≤ ps.tdCount ∧ firstOmitted ps.tdCount < 2 ^ 32 := by
  simp only [Params.legal, Bool.and_eq_true, decide_eq_true_eq] at h
  exact ⟨h.1.1, h.1.2⟩

theorem firstOmitted_mono {k td : Nat} (h : k ≤ td) : firstOmitted k ≤ firstOmitted td := by
  rw [firstOmitted_eq, firstOmitted_eq]
  exact Nat.nth_monotone Nat.infinite_setOfPred_prime (by omega)

/-- The smallest legal table ends at 97. -/
theorem le_firstOmitted {td : Nat} (h : 24 ≤ td) : 101 ≤ firstOmitted td :=
  (by decide +kernel : 101 ≤ firstOmitted 24).trans (firstOmitted_mono h)

theorem smallestTable : 2 :: tablePrimes 24 =
    [2, 3, 5, 7, 11, 13, 17, 19, 23, 29, 31, 37, 41, 43, 47, 53, 59, 61, 67, 71, 73, 79, 83, 89, 97] := by
  decide +kernel

/-! ### Divisibility by multiplication (spec/42_trial_division.md R130, R132) -/

section Divisibility
variable {en : TableEntry} (hen : en.Sound)
include hen

/-- The low word of a multiple gives back its factor. -/
theorem mul_pinv_mod (k : Nat) : en.p * k % Config.base * en.pinv % Config.base = k % Config.base := by
  rw [Nat.mod_mul_mod, mul_right_comm, ← Nat.mod_mul_mod, hen.inverse, one_mul]

/-- The product with the inverse is a quotient of the low word. -/
theorem mul_pinv_mul (t : Nat) : en.p * (t * en.pinv % Config.base) % Config.base = t % Config.base := by
  rw [Nat.mul_mod_mod, mul_left_comm, ← Nat.mul_mod_mod, hen.inverse, mul_one]

/-- A word is divisible exactly when its product with the inverse is at most the largest quotient (R130). -/
theorem dvd_iff_mul_pinv_le {t : Nat} (ht : t < Config.base) :
    (en.p ∣ t ↔ t * en.pinv % Config.base ≤ en.lim) ∧ (en.p ∣ t → t * en.pinv % Config.base = t / en.p) := by
  have hpos : 0 < en.p := by have := hen.three_le; omega
  have hquot : en.p ∣ t → t * en.pinv % Config.base = t / en.p := by
    rintro ⟨k, rfl⟩
    have hk : k < Config.base := (Nat.le_mul_of_pos_left k hpos).trans_lt ht
    rw [← Nat.mod_eq_of_lt ht, mul_pinv_mod hen, Nat.mod_eq_of_lt ht, Nat.mod_eq_of_lt hk, Nat.mul_div_cancel_left _ hpos]
  refine ⟨⟨fun h => ?_, fun h => ?_⟩, hquot⟩
  · rw [hquot h, hen.lim]
    exact Nat.div_le_div_right (by omega)
  · rw [hen.lim, Nat.le_div_iff_mul_le hpos, mul_comm] at h
    refine ⟨t * en.pinv % Config.base, ?_⟩
    have hmul := mul_pinv_mul hen t
    have hbase : 0 < Config.base := by decide
    rw [Nat.mod_eq_of_lt ht, Nat.mod_eq_of_lt (by omega)] at hmul
    exact hmul.symm

theorem quotient1_eq {t : Nat} (ht : t < Config.base) :
    quotient1 en t = if en.p ∣ t then some (t / en.p) else none := by
  obtain ⟨hiff, hquot⟩ := dvd_iff_mul_pinv_le hen ht
  rw [quotient1]
  split_ifs with hle hdvd hdvd
  · rw [hquot hdvd]
  · exact absurd (hiff.mpr hle) hdvd
  · exact absurd (hiff.mp hdvd) hle
  · rfl

/-- The low quotient word `q0` takes `h` from the high word; what is left there must be divisible (R132). -/
theorem quotient2_eq {t : Nat} (ht : t < Config.base * Config.base) :
    quotient2 en t = if en.p ∣ t then some (t / en.p) else none := by
  have hbase : 0 < Config.base := by decide
  have hpos : 0 < en.p := by have := hen.three_le; omega
  have hlow := mul_pinv_mul hen (t % Config.base)
  have hq0 : t % Config.base * en.pinv % Config.base < Config.base := Nat.mod_lt _ hbase
  have htop : t / Config.base < Config.base := Nat.div_lt_of_lt_mul ht
  simp only [quotient2]
  generalize t % Config.base * en.pinv % Config.base = q0 at *
  rw [Nat.mod_mod, mul_comm] at hlow
  have hprod := Nat.div_add_mod (q0 * en.p) Config.base
  have hsplit := Nat.div_add_mod t Config.base
  rw [hlow] at hprod
  generalize q0 * en.p / Config.base = h at *
  by_cases hlt : t / Config.base < h
  · have hnot : ¬en.p ∣ t := by
      rintro ⟨k, hk⟩
      have hk0 : q0 = k % Config.base := by
        have hmul : en.p * q0 ≡ en.p * k [MOD Config.base] := by
          rw [Nat.ModEq, mul_comm, hlow, hk]
        have hcop : Config.base.Coprime en.p := by
          rw [base_eq]
          exact (Nat.coprime_two_left.mpr (Nat.odd_iff.mpr hen.odd)).pow_left 64
        rw [← Nat.mod_eq_of_lt hq0]
        exact Nat.ModEq.cancel_left_of_coprime hcop hmul
      have hle : q0 * en.p ≤ t := by
        rw [hk, mul_comm, hk0]
        exact Nat.mul_le_mul_left _ (Nat.mod_le _ _)
      have := Nat.mul_le_mul_left Config.base (Nat.succ_le_of_lt hlt)
      rw [Nat.mul_succ] at this
      have := Nat.mod_lt t hbase
      omega
    rw [if_pos hlt, if_neg hnot]
  · rw [if_neg hlt]
    have hsub : t = Config.base * (t / Config.base - h) + q0 * en.p := by
      have := Nat.mul_le_mul_left Config.base (not_lt.mp hlt)
      rw [Nat.mul_sub]
      omega
    have hdvd : en.p ∣ t ↔ en.p ∣ t / Config.base - h := by
      have hcop : en.p.Coprime Config.base := by
        rw [base_eq]
        exact (Nat.coprime_two_right.mpr (Nat.odd_iff.mpr hen.odd)).pow_right 64
      conv_lhs => rw [hsub]
      rw [Nat.dvd_add_left (Nat.dvd_mul_left ..), hcop.dvd_mul_left]
    obtain ⟨hiff, hquot⟩ := dvd_iff_mul_pinv_le hen (t := t / Config.base - h) (by omega)
    split_ifs with hle hd hd
    · have hd' := hdvd.mp hd
      rw [hquot hd']
      obtain ⟨k, hk⟩ := hd'
      rw [hk] at hsub ⊢
      rw [Nat.mul_div_cancel_left _ hpos]
      congr 1
      refine (Nat.div_eq_of_eq_mul_right hpos ?_).symm
      rw [hsub]
      ring
    · exact absurd (hdvd.mpr (hiff.mpr hle)) hd
    · exact absurd (hiff.mp (hdvd.mp hd)) hle
    · rfl

end Divisibility

end Sys2Proof.Machine
end

section
/-!
PROOFS. The statements on the constant tables (spec/10_state.md R32, R33; spec/43_primality.md R146), on the
divisibility tests (spec/42_trial_division.md R130, R132) and on the reset state (spec/00_scope.md R8).
-/
open Sys2Proof Sys2Proof.Machine

/-- Settles O31. -/
theorem constantTables : Obligations.ConstantTables := by
  refine ⟨⟨rfl, by decide⟩, fun td => ⟨length_primeTable td, firstOmitted_eq td, (map_p_primeTable td).symm, rfl, rfl,
    fun htd => ?bases, fun i en hen => ?entry⟩⟩
  case bases =>
    rw [show laterBases td false = (tablePrimes td).take 24 from rfl, take_tablePrimes htd, smallestTable]
  case entry =>
    have hsound := sound_of_mem_primeTable (List.mem_of_getElem? hen)
    obtain ⟨-, heq⟩ := primeTable_getElem? hen
    exact ⟨by rw [heq], by rw [heq], hsound.pinv_lt, hsound.inverse, hsound.lim⟩

/-- Settles O32. -/
theorem divisibilityTests : Obligations.DivisibilityTests := by
  intro ps en t _ hen
  have hsound := sound_of_mem_primeTable hen
  refine ⟨fun ht => ?_, fun ht => quotient2_eq hsound (ht.trans_eq (by norm_num [Config.base]))⟩
  obtain ⟨hiff, hquot⟩ := dvd_iff_mul_pinv_le hsound ht
  exact ⟨hiff, hquot, quotient1_eq hsound ht⟩

/-- Settles O33: the default table is computed and checked. -/
theorem resetIsLegal : Obligations.ResetIsLegal := ⟨⟨Facc.empty_wf, by constructor <;> decide⟩, by decide +kernel⟩
end

section
/-!
PROOFS. Compound commands as scripts (spec/60_exceptions.md R206): the inserts a part of a command makes in order, and how
it ends if none of them fails. Neither depends on the accumulator.
-/
namespace Sys2Proof.Machine

/-! ### Scripts -/

/-- How a part of a compound command ends when none of its inserts fails. -/
inductive Ending (α : Type) where
  | returns (v : α)
  | faults (code : FaultCode)
  | never
deriving DecidableEq

/-- The end of a part that left `acc` in use. -/
def Ending.run {α : Type} : Ending α → Facc → Run α
  | .returns v, acc => .done v acc
  | .faults code, acc => .fault code acc
  | .never, _ => .hang

/-- Make the inserts in order and end so; the first insert that fails is the end (R206). -/
def play {α : Type} (ins : List (Nat × Nat)) (e : Ending α) (f : Facc) : Run α :=
  match recordAll ins f with
  | (acc, some code) => .fault code acc
  | (acc, none) => e.run acc

/-- From every accumulator, `r` makes the inserts `ins` and ends as `e` says. -/
def Plays {α : Type} (r : Facc → Run α) (ins : List (Nat × Nat)) (e : Ending α) : Prop := ∀ f, r f = play ins e f

section Scripts
variable {α β : Type} {ins ins' : List (Nat × Nat)}

@[simp] theorem play_nil (e : Ending α) (f : Facc) : play [] e f = e.run f := rfl

theorem play_of_recordAll_none {f acc : Facc} (h : recordAll ins f = (acc, none)) (e : Ending α) :
    play ins e f = e.run acc := by
  rw [play, h]

theorem play_of_recordAll_some {f acc : Facc} {code : FaultCode} (h : recordAll ins f = (acc, some code))
    (e : Ending α) : play ins e f = .fault code acc := by
  rw [play, h]

theorem andThen_assoc {γ : Type} (r : Run α) (k : α → Facc → Run β) (k' : β → Facc → Run γ) :
    (r.andThen k).andThen k' = r.andThen fun v acc => (k v acc).andThen k' := by
  cases r <;> rfl

/-- What a part returns is handed on as it is. -/
theorem play_returns_andThen (v : α) (f : Facc) (k : α → Facc → Run β) :
    (play ins (.returns v) f).andThen k = match recordAll ins f with
      | (acc, some code) => .fault code acc
      | (acc, none) => k v acc := by
  unfold play
  split <;> rfl

/-- Scripts follow one another: the second runs where the first completed. -/
theorem play_andThen {v : α} {e : Ending β} {k : α → Facc → Run β} (hk : Plays (k v) ins' e) (f : Facc) :
    (play ins (.returns v) f).andThen k = play (ins ++ ins') e f := by
  rw [play_returns_andThen, play, recordAll_append]
  cases recordAll ins f with
  | mk acc failed =>
    cases failed with
    | none => exact hk acc
    | some code => rfl

theorem Plays.andThen {r : Facc → Run α} {v : α} {e : Ending β} {k : α → Facc → Run β}
    (hr : Plays r ins (.returns v)) (hk : Plays (k v) ins' e) : Plays (fun f => (r f).andThen k) (ins ++ ins') e :=
  fun f => (congrArg (Run.andThen · k) (hr f)).trans (play_andThen hk f)

theorem Plays.andThen_faults {r : Facc → Run α} {code : FaultCode} (hr : Plays r ins (.faults code))
    (k : α → Facc → Run β) : Plays (fun f => (r f).andThen k) ins (.faults code) := by
  intro f
  show (r f).andThen k = _
  rw [hr f, play, play]
  split <;> rfl

theorem Plays.andThen_never {r : Facc → Run α} (hr : Plays r ins .never) (k : α → Facc → Run β) :
    Plays (fun f => (r f).andThen k) ins .never := by
  intro f
  show (r f).andThen k = _
  rw [hr f, play, play]
  split <;> rfl

end Scripts

/-! ### One insert -/

/-- One insert of a script: a one-word value goes to the table, a two-word value to the large slot (R181, R182). -/
def insertValue (v m : Nat) (f : Facc) : Except FaultCode Facc :=
  if v < 2 ^ 64 then insertPrime (BitVec.ofNat 64 v) m f else insertLarge (BitVec.ofNat 128 v) f

theorem recordAll_cons_ok {v m : Nat} {f f' : Facc} (h : insertValue v m f = .ok f') (ins : List (Nat × Nat)) :
    recordAll ((v, m) :: ins) f = recordAll ins f' := by
  unfold insertValue at h
  rw [recordAll, h]

theorem recordAll_cons_error {v m : Nat} {f : Facc} {code : FaultCode} (h : insertValue v m f = .error code)
    (ins : List (Nat × Nat)) : recordAll ((v, m) :: ins) f = (f, some code) := by
  unfold insertValue at h
  rw [recordAll, h]

theorem recorded_insertValue (v m : Nat) (f : Facc) :
    recorded (insertValue v m f) f = play [(v, m)] (.returns ()) f := by
  cases h : insertValue v m f with
  | ok f' => rw [play_of_recordAll_none (recordAll_cons_ok h [])]; rfl
  | error code => rw [play_of_recordAll_some (recordAll_cons_error h [])]; rfl

/-- The table takes the low word of a value. -/
theorem insertRun_plays (p m : Nat) : Plays (insertRun p m) [(p % 2 ^ 64, m)] (.returns ()) := by
  intro f
  have hword : insertPrime (BitVec.ofNat 64 p) m f = insertValue (p % 2 ^ 64) m f := by
    rw [insertValue, if_pos (Nat.mod_lt _ (by positivity))]
    congr 1
    exact BitVec.eq_of_toNat_eq (by simp)
  rw [insertRun, hword, recorded_insertValue]

theorem insertLargeRun_plays {v : Nat} (hv : v < 2 ^ 128) : Plays (insertLargeRun v) [(v, 1)] (.returns ()) := by
  intro f
  have hnat : (BitVec.ofNat 128 v).toNat = v := by rw [BitVec.toNat_ofNat, Nat.mod_eq_of_lt hv]
  have hsplit : insertLarge (BitVec.ofNat 128 v) f = insertValue v 1 f := by
    rw [insertValue]
    split_ifs with hone
    · rw [insertLarge_oneWord f (hnat.symm ▸ hone), loWord, hnat]
    · rfl
  rw [insertLargeRun, hsplit, recorded_insertValue]

/-! ### Where a script stops -/

/-- An insert that fails changes nothing and leaves the ones before it completed. -/
theorem exists_completed_of_recordAll_some {ins : List (Nat × Nat)} {f acc : Facc} {code : FaultCode}
    (h : recordAll ins f = (acc, some code)) :
    ∃ ins' v m, recordAll ins' f = (acc, none) ∧ recordAll [(v, m)] acc = (acc, some code) := by
  induction ins generalizing f with
  | nil => cases h
  | cons vm ins ih =>
    obtain ⟨v, m⟩ := vm
    cases hv : insertValue v m f with
    | ok f' =>
      rw [recordAll_cons_ok hv] at h
      obtain ⟨ins', w, k, hdone, hfail⟩ := ih h
      exact ⟨(v, m) :: ins', w, k, (recordAll_cons_ok hv ins').trans hdone, hfail⟩
    | error code' =>
      rw [recordAll_cons_error hv] at h
      cases h
      exact ⟨[], v, m, rfl, recordAll_cons_error hv []⟩

/-- The codes of a failing insert (R181, R182). -/
theorem insertPrime_error {p : Word} {m : Nat} {f : Facc} {code : FaultCode} (h : insertPrime p m f = .error code) :
    code = .accFull ∨ code = .accMult := by
  unfold insertPrime at h
  split_ifs at h <;> cases h
  · exact .inr rfl
  · exact .inl rfl

theorem insertValue_error {v m : Nat} {f : Facc} {code : FaultCode} (h : insertValue v m f = .error code) :
    code = .accFull ∨ code = .accMult ∨ (code = .accLarge ∧ 2 ^ 64 ≤ v) := by
  unfold insertValue insertLarge at h
  split_ifs at h with hone hword
  · exact (insertPrime_error h).imp_right .inl
  · exact (insertPrime_error h).imp_right .inl
  · cases h
    exact .inr (.inr ⟨rfl, not_lt.mp hone⟩)

theorem recordAll_error {ins : List (Nat × Nat)} {f acc : Facc} {code : FaultCode}
    (h : recordAll ins f = (acc, some code)) :
    code = .accFull ∨ code = .accMult ∨ (code = .accLarge ∧ ∃ vm ∈ ins, 2 ^ 64 ≤ vm.1) := by
  induction ins generalizing f with
  | nil => cases h
  | cons vm ins ih =>
    obtain ⟨v, m⟩ := vm
    cases hv : insertValue v m f with
    | ok f' =>
      rw [recordAll_cons_ok hv] at h
      refine (ih h).imp_right (.imp_right ?_)
      rintro ⟨hcode, vm, hmem, hlarge⟩
      exact ⟨hcode, vm, .tail _ hmem, hlarge⟩
    | error code' =>
      rw [recordAll_cons_error hv] at h
      cases h
      refine (insertValue_error hv).imp_right (.imp_right ?_)
      exact fun ⟨hcode, hlarge⟩ => ⟨hcode, _, .head _, hlarge⟩

/-! ### What completed inserts record -/

/-- `v` is recorded, in the table or in the large slot. -/
def Facc.Holds (f : Facc) (v : Nat) : Prop :=
  (∃ en ∈ f.pairs, en.p.toNat = v) ∨ (hiWord f.plarge ≠ 0 ∧ f.plarge.toNat = v)

/-- An insert in the domain of the commands: a multiplicity that fits, and a two-word value once. -/
structure Insertable (vm : Nat × Nat) : Prop where
  lt : vm.1 < 2 ^ 128
  pos : 1 ≤ vm.2
  le : vm.2 ≤ 255
  large : 2 ^ 64 ≤ vm.1 → vm.2 = 1

theorem insertable_one {v : Nat} (hv : v < 2 ^ 128) : Insertable (v, 1) := ⟨hv, le_rfl, by norm_num, fun _ => rfl⟩

/-- What an insert of `v` with multiplicity `m` makes of a legal `f`. -/
structure Adds (v m : Nat) (f f' : Facc) : Prop where
  wf : f'.Wf
  value : f'.value = f.value * v ^ m
  holds : ∀ x, f'.Holds x ↔ f.Holds x ∨ x = v
  multOf : ∀ q : Word, f'.multOf q = f.multOf q + if q.toNat = v then m else 0
  plarge : v < 2 ^ 64 → f'.plarge = f.plarge

section OneWord
variable {p : Word} {m : Nat}

theorem map_bumpEntry_of_forall_ne {l : List Entry} (h : ∀ en ∈ l, en.p ≠ p) : l.map (bumpEntry p m) = l :=
  (List.map_congr_left fun en hen => if_neg (h en hen)).trans (List.map_id l)

/-- The one entry of `p` takes the factor `p^m`. -/
theorem prod_map_bumpEntry {l : List Entry} (hasc : l.Pairwise fun a b => a.p.toNat < b.p.toNat)
    (hany : ∃ en ∈ l, en.p = p) (hfit : ∀ en ∈ l, en.p = p → en.e.toNat + m ≤ 255) :
    ((l.map (bumpEntry p m)).map entryValue).prod = (l.map entryValue).prod * p.toNat ^ m := by
  induction l with
  | nil =>
    obtain ⟨en, hen, -⟩ := hany
    cases hen
  | cons a l ih =>
    obtain ⟨hlt, hasc'⟩ := List.pairwise_cons.mp hasc
    by_cases ha : a.p = p
    · have hrest : l.map (bumpEntry p m) = l := map_bumpEntry_of_forall_ne fun en hen heq => by
        have := hlt en hen
        rw [ha, heq] at this
        exact lt_irrefl _ this
      have hsum : (BitVec.ofNat 8 (a.e.toNat + m)).toNat = a.e.toNat + m := by
        have := hfit a List.mem_cons_self ha
        rw [BitVec.toNat_ofNat, Nat.mod_eq_of_lt (by omega)]
      rw [List.map_cons, hrest, List.map_cons, List.map_cons, List.prod_cons, List.prod_cons]
      simp only [bumpEntry, ha, if_true, entryValue, hsum, pow_add]
      ring
    · have hany' : ∃ en ∈ l, en.p = p := by
        obtain ⟨en, hen, heq⟩ := hany
        refine ⟨en, (List.mem_cons.mp hen).resolve_left ?_, heq⟩
        rintro rfl
        exact ha heq
      rw [List.map_cons, List.map_cons, List.map_cons, List.prod_cons, List.prod_cons,
        ih hasc' hany' fun en hen => hfit en (.tail _ hen), bumpEntry, if_neg ha]
      ring

theorem value_insertPrime {f f' : Facc} (hf : f.Wf) (hm : m ≤ 255) (h : insertPrime p m f = .ok f') :
    f'.value = f.value * p.toNat ^ m := by
  rcases insertPrime_cases p m f with ⟨hany, hsum, hok⟩ | ⟨_, _, hok⟩ | ⟨code, herr⟩
  · obtain rfl := Except.ok.inj (hok.symm.trans h)
    have hany' : ∃ en ∈ f.pairs, en.p = p := by simpa using hany
    have hfit : ∀ en ∈ f.pairs, en.p = p → en.e.toNat + m ≤ 255 := by
      rintro en hen rfl
      rwa [multOf_eq_of_mem hf.ascending hen] at hsum
    rw [Facc.value, prod_map_bumpEntry hf.ascending hany' hfit, Facc.value]
    ring
  · obtain rfl := Except.ok.inj (hok.symm.trans h)
    have hmult : (BitVec.ofNat 8 m).toNat = m := by rw [BitVec.toNat_ofNat, Nat.mod_eq_of_lt (by omega)]
    rw [Facc.value, List.map_append, List.prod_append, List.map_cons, List.prod_cons, Facc.value]
    conv_rhs => rw [← List.take_append_drop (f.pairs.countP fun en => decide (en.p.toNat < p.toNat)) f.pairs,
      List.map_append, List.prod_append]
    rw [show entryValue { p := p, e := BitVec.ofNat 8 m } = p.toNat ^ m by rw [entryValue, hmult]]
    ring
  · cases herr.symm.trans h

theorem holds_insertPrime {f f' : Facc} (h : insertPrime p m f = .ok f') (x : Nat) :
    f'.Holds x ↔ f.Holds x ∨ x = p.toNat := by
  have hpairs : (∃ en ∈ f'.pairs, en.p.toNat = x) ↔ (∃ en ∈ f.pairs, en.p.toNat = x) ∨ x = p.toNat := by
    rcases insertPrime_cases p m f with ⟨hany, _, hok⟩ | ⟨_, _, hok⟩ | ⟨code, herr⟩
    · obtain rfl := Except.ok.inj (hok.symm.trans h)
      obtain ⟨en, hen, rfl⟩ : ∃ en ∈ f.pairs, en.p = p := by simpa using hany
      simp only [List.mem_map, exists_exists_and_eq_and, bumpEntry_p]
      exact (or_iff_left_of_imp fun hx => ⟨en, hen, hx.symm⟩).symm
    · obtain rfl := Except.ok.inj (hok.symm.trans h)
      conv_rhs => rw [← List.take_append_drop (f.pairs.countP fun en => decide (en.p.toNat < p.toNat)) f.pairs]
      simp only [List.mem_append, List.mem_cons, or_and_right, exists_or, exists_eq_left, eq_comm (a := x)]
      rw [or_assoc, or_comm (b := p.toNat = x)]
    · cases herr.symm.trans h
  rw [Facc.Holds, Facc.Holds, plarge_insertPrime h, hpairs, or_right_comm]

end OneWord

theorem adds_insertValue {v m : Nat} {f f' : Facc} (hf : f.Wf) (hvm : Insertable (v, m))
    (h : insertValue v m f = .ok f') : Adds v m f f' := by
  obtain ⟨hlt, hpos, hle, hlarge⟩ := hvm
  simp only at hlt hpos hle hlarge
  unfold insertValue at h
  split_ifs at h with hone
  · have hv : (BitVec.ofNat 64 v).toNat = v := by rw [BitVec.toNat_ofNat, Nat.mod_eq_of_lt hone]
    refine ⟨insertPrime_keeps_wf hf hpos hle h, ?_, fun x => ?_, fun q => ?_, fun _ => plarge_insertPrime h⟩
    · rw [value_insertPrime hf hle h, hv]
    · rw [holds_insertPrime h, hv]
    · have hiff : q = BitVec.ofNat 64 v ↔ q.toNat = v := by rw [← BitVec.toNat_inj, hv]
      rw [multOf_insertPrime hf hle h]
      simp only [hiff]
  · have hv : (BitVec.ofNat 128 v).toNat = v := by rw [BitVec.toNat_ofNat, Nat.mod_eq_of_lt hlt]
    have hwf := insertLarge_keeps_wf hf h
    rw [insertLarge_twoWord f (hv.symm ▸ not_lt.mp hone)] at h
    split_ifs at h with hfree
    cases h
    have hnew : hiWord (BitVec.ofNat 128 v) ≠ 0 := by rwa [Ne, hiWord_eq_zero_iff, hv]
    refine ⟨hwf, ?_, fun x => ?_, fun q => ?_, fun hone' => absurd hone' hone⟩
    · rw [hlarge (not_lt.mp hone), pow_one]
      simp only [Facc.value, hfree, hnew, if_true, if_false, mul_one, hv]
    · simp only [Facc.Holds, hfree, hnew, ne_eq, not_true_eq_false, not_false_eq_true, false_and, true_and, or_false,
        hv, eq_comm (a := x)]
    · have := q.isLt
      rw [if_neg (by omega), add_zero]
      rfl

/-- The product that a list of inserts stands for. -/
def insertsProd (ins : List (Nat × Nat)) : Nat := (ins.map fun vm => vm.1 ^ vm.2).prod

@[simp] theorem insertsProd_nil : insertsProd [] = 1 := rfl

@[simp] theorem insertsProd_cons (vm : Nat × Nat) (ins : List (Nat × Nat)) :
    insertsProd (vm :: ins) = vm.1 ^ vm.2 * insertsProd ins := by
  simp [insertsProd]

@[simp] theorem insertsProd_append (ins ins' : List (Nat × Nat)) :
    insertsProd (ins ++ ins') = insertsProd ins * insertsProd ins' := by
  simp [insertsProd]

/-- Values recorded once each. -/
@[simp] theorem insertsProd_map_one (vs : List Nat) : insertsProd (vs.map fun v => (v, 1)) = vs.prod := by
  induction vs with
  | nil => rfl
  | cons v vs ih => simp [ih]

/-- The multiplicity that a list of inserts records for `x`. -/
def insertsMult (ins : List (Nat × Nat)) (x : Nat) : Nat := (ins.map fun vm => if x = vm.1 then vm.2 else 0).sum

@[simp] theorem insertsMult_nil (x : Nat) : insertsMult [] x = 0 := rfl

@[simp] theorem insertsMult_cons (vm : Nat × Nat) (ins : List (Nat × Nat)) (x : Nat) :
    insertsMult (vm :: ins) x = (if x = vm.1 then vm.2 else 0) + insertsMult ins x := by
  simp [insertsMult]

@[simp] theorem insertsMult_append (ins ins' : List (Nat × Nat)) (x : Nat) :
    insertsMult (ins ++ ins') x = insertsMult ins x + insertsMult ins' x := by
  simp [insertsMult]

/-- What a script that completes its inserts makes of a legal `f`. -/
structure AddsAll (ins : List (Nat × Nat)) (f f' : Facc) : Prop where
  value : f'.value = f.value * insertsProd ins
  holds : ∀ x, f'.Holds x ↔ f.Holds x ∨ ∃ m, (x, m) ∈ ins
  multOf : ∀ q : Word, f'.multOf q = f.multOf q + insertsMult ins q.toNat
  plarge : (∀ vm ∈ ins, vm.1 < 2 ^ 64) → f'.plarge = f.plarge

/-- The legal form is kept whether the inserts complete or one fails; completed ones add up. -/
theorem addsAll_recordAll {ins : List (Nat × Nat)} (hins : ∀ vm ∈ ins, Insertable vm) {f acc : Facc}
    {failed : Option FaultCode} (hf : f.Wf) (h : recordAll ins f = (acc, failed)) :
    acc.Wf ∧ (failed = none → AddsAll ins f acc) := by
  induction ins generalizing f with
  | nil =>
    cases h
    exact ⟨hf, fun _ => ⟨by simp, by simp, by simp, fun _ => rfl⟩⟩
  | cons vm ins ih =>
    obtain ⟨v, m⟩ := vm
    cases hv : insertValue v m f with
    | ok f' =>
      rw [recordAll_cons_ok hv] at h
      have hadd := adds_insertValue hf (hins _ List.mem_cons_self) hv
      obtain ⟨hwf, hall⟩ := ih (fun vm hvm => hins vm (.tail _ hvm)) hadd.wf h
      refine ⟨hwf, fun hnone => ?_⟩
      obtain ⟨hvalue, hholds, hmult, hlarge⟩ := hall hnone
      refine ⟨?_, fun x => ?_, fun q => ?_, fun hone => ?_⟩
      · rw [hvalue, hadd.value, insertsProd_cons, mul_assoc]
      · rw [hholds, hadd.holds, or_assoc]
        simp only [List.mem_cons, Prod.mk.injEq, exists_or, exists_and_left, exists_eq, and_true]
      · rw [hmult, hadd.multOf, insertsMult_cons, add_assoc]
      · rw [hlarge fun vm hvm => hone vm (.tail _ hvm), hadd.plarge (hone _ List.mem_cons_self)]
    | error code =>
      rw [recordAll_cons_error hv] at h
      cases h
      exact ⟨hf, fun hnone => by cases hnone⟩

/-- The same from the empty accumulator. -/
@[simp] theorem value_empty : Facc.empty.value = 1 := by decide

@[simp] theorem multOf_empty (q : Word) : Facc.empty.multOf q = 0 := rfl

@[simp] theorem not_holds_empty (x : Nat) : ¬Facc.empty.Holds x := by
  rintro (⟨en, hen, -⟩ | ⟨hhi, -⟩)
  · cases hen
  · exact hhi (by decide)

/-! ### When no insert fails

Three conditions on the list keep every insert from the empty accumulator from failing: multiplicities that sum to at most
255, at most one two-word value, and at most 26 different values (R181, R182). -/

/-- The number of two-word values of a list of inserts. -/
def largeCount (ins : List (Nat × Nat)) : Nat := ins.countP fun vm => decide (2 ^ 64 ≤ vm.1)

structure Fits (ins : List (Nat × Nat)) : Prop where
  insertable : ∀ vm ∈ ins, Insertable vm
  mult : (ins.map Prod.snd).sum ≤ 255
  large : largeCount ins ≤ 1
  keys : (ins.map Prod.fst).toFinset.card ≤ 26

theorem Fits.of_append {ins ins' : List (Nat × Nat)} (h : Fits (ins ++ ins')) : Fits ins := by
  obtain ⟨hins, hmult, hlarge, hkeys⟩ := h
  rw [List.map_append, List.sum_append] at hmult
  rw [largeCount, List.countP_append] at hlarge
  refine ⟨fun vm hvm => hins vm (List.mem_append_left _ hvm), by omega, by rw [largeCount]; omega,
    (Finset.card_le_card ?_).trans hkeys⟩
  rw [List.map_append, List.toFinset_append]
  exact Finset.subset_union_left

theorem insertsMult_le_sum (ins : List (Nat × Nat)) (x : Nat) : insertsMult ins x ≤ (ins.map Prod.snd).sum := by
  induction ins with
  | nil => rfl
  | cons vm ins ih =>
    rw [insertsMult_cons, List.map_cons, List.sum_cons]
    split_ifs <;> omega

/-- The values of the table of a legal accumulator, as a set. -/
theorem card_pairs {f : Facc} (hf : f.Wf) : (f.pairs.map fun en => en.p.toNat).toFinset.card = f.nf := by
  rw [List.toFinset_card_of_nodup, List.length_map]
  · rfl
  · rw [List.Nodup, List.pairwise_map]
    exact hf.ascending.imp fun h => h.ne

/-- The last insert of a list that fits does not fail where the ones before it completed. -/
theorem exists_insertValue_of_fits {ins : List (Nat × Nat)} {v m : Nat} (hfit : Fits (ins ++ [(v, m)])) {f : Facc}
    (hf : f.Wf) (hall : AddsAll ins Facc.empty f) : ∃ f', insertValue v m f = .ok f' := by
  obtain ⟨hins, hsum, hcount, hkeys⟩ := hfit
  rw [insertValue]
  split_ifs with hone
  · have hv : (BitVec.ofNat 64 v).toNat = v := by rw [BitVec.toNat_ofNat, Nat.mod_eq_of_lt hone]
    refine exists_insertPrime hf (fun ⟨_, hover⟩ => ?_) (fun ⟨hnew, hfull⟩ => ?_)
    · have hle := insertsMult_le_sum ins (BitVec.ofNat 64 v).toNat
      rw [hall.multOf, multOf_empty] at hover
      simp only [Config.multMax, List.map_append, List.sum_append, List.map_cons, List.map_nil, List.sum_singleton]
        at hover hsum
      omega
    · have hnotin : v ∉ (f.pairs.map fun en => en.p.toNat).toFinset := by
        rw [List.mem_toFinset, List.mem_map]
        rintro ⟨en, hen, heq⟩
        refine (any_eq_true_iff_multOf_ne_zero hf (BitVec.ofNat 64 v)).mp ?_ hnew
        exact List.any_eq_true.mpr ⟨en, hen, beq_iff_eq.mpr (BitVec.eq_of_toNat_eq (heq.trans hv.symm))⟩
      have hsub : insert v (f.pairs.map fun en => en.p.toNat).toFinset ⊆
          ((ins ++ [(v, m)]).map Prod.fst).toFinset := by
        intro x hx
        simp only [Finset.mem_insert, List.mem_toFinset, List.mem_map] at hx
        simp only [List.mem_toFinset, List.mem_map, List.mem_append, List.mem_singleton]
        obtain rfl | ⟨en, hen, heq⟩ := hx
        · exact ⟨_, .inr rfl, rfl⟩
        · obtain h | ⟨k, hk⟩ := (hall.holds x).mp (.inl ⟨en, hen, heq⟩)
          · exact absurd h (not_holds_empty x)
          · exact ⟨_, .inl hk, rfl⟩
      have hcard := Finset.card_le_card hsub
      rw [Finset.card_insert_of_notMem hnotin, card_pairs hf, hfull] at hcard
      simp only [Config.nfactMax] at hcard
      omega
  · have hlt := (hins (v, m) (by simp)).lt
    have hv : (BitVec.ofNat 128 v).toNat = v := by rw [BitVec.toNat_ofNat, Nat.mod_eq_of_lt hlt]
    have hnone : ∀ vm ∈ ins, vm.1 < 2 ^ 64 := by
      simp only [largeCount, List.countP_append, List.countP_singleton, decide_eq_true_eq, not_lt.mp hone, if_true]
        at hcount
      have hzero : ins.countP (fun vm => decide (2 ^ 64 ≤ vm.1)) = 0 := by omega
      intro vm hvm
      simpa using List.countP_eq_zero.mp hzero vm hvm
    have hfree : hiWord f.plarge = 0 := by
      rw [hall.plarge hnone]
      decide
    exact ⟨_, by rw [insertLarge_twoWord f (hv.symm ▸ not_lt.mp hone), if_pos hfree]⟩

theorem recordAll_of_fits {ins : List (Nat × Nat)} (hfit : Fits ins) :
    ∃ f, recordAll ins Facc.empty = (f, none) ∧ f.Wf ∧ AddsAll ins Facc.empty f := by
  induction ins using List.reverseRecOn with
  | nil =>
    obtain ⟨hwf, hall⟩ := addsAll_recordAll hfit.insertable Facc.empty_wf (recordAll_nil _)
    exact ⟨Facc.empty, rfl, hwf, hall rfl⟩
  | append_singleton ins vm ih =>
    obtain ⟨v, m⟩ := vm
    obtain ⟨f, hrec, hwf, hall⟩ := ih hfit.of_append
    obtain ⟨f', hf'⟩ := exists_insertValue_of_fits hfit hwf hall
    have hrec' : recordAll (ins ++ [(v, m)]) Facc.empty = (f', none) := by
      rw [recordAll_append, hrec]
      exact recordAll_cons_ok hf' []
    obtain ⟨hwf', hall'⟩ := addsAll_recordAll hfit.insertable Facc.empty_wf hrec'
    exact ⟨f', hrec', hwf', hall' rfl⟩

end Sys2Proof.Machine
end

section
/-!
PROOFS. Trial division (spec/42_trial_division.md R131): the inserts it makes, the residue it leaves and where it stops,
on every accumulator and with a table of any size.
-/
namespace Sys2Proof.Machine

/-! ### Dividing a prime out -/

section DivideOut
variable {p r : Nat} (hp : p.Prime) (hr : r ≠ 0)
include hp hr

omit hp hr in
theorem div_pow_mul_pow : r / p ^ padicValNat p r * p ^ padicValNat p r = r := Nat.div_mul_cancel pow_padicValNat_dvd

theorem not_dvd_div_pow : ¬p ∣ r / p ^ padicValNat p r := by
  have : Fact p.Prime := ⟨hp⟩
  intro hdvd
  refine pow_succ_padicValNat_not_dvd (p := p) hr ?_
  rw [pow_succ']
  conv_rhs => rw [← div_pow_mul_pow (p := p) (r := r)]
  exact Nat.mul_dvd_mul_right hdvd _

theorem padicValNat_div_pow {q : Nat} (hq : q.Prime) (hne : q ≠ p) :
    padicValNat q (r / p ^ padicValNat p r) = padicValNat q r := by
  have : Fact p.Prime := ⟨hp⟩
  have : Fact q.Prime := ⟨hq⟩
  have hpos : r / p ^ padicValNat p r ≠ 0 := fun h0 => hr (by rw [← div_pow_mul_pow (p := p) (r := r), h0, zero_mul])
  conv_rhs => rw [← div_pow_mul_pow (p := p) (r := r)]
  rw [padicValNat.mul hpos (pow_ne_zero _ hp.ne_zero), padicValNat.pow, padicValNat_primes hne, mul_zero,
    add_zero]

/-- A number of `k` bits holds a prime fewer than `k` times. -/
theorem padicValNat_lt_of_lt {k : Nat} (hlt : r < 2 ^ k) : padicValNat p r < k := by
  have hle : p ^ padicValNat p r ≤ r := Nat.le_of_dvd (Nat.pos_of_ne_zero hr) pow_padicValNat_dvd
  have hpow : 2 ^ padicValNat p r ≤ p ^ padicValNat p r := Nat.pow_le_pow_left hp.two_le _
  exact (Nat.pow_lt_pow_iff_right (by norm_num)).mp (hpow.trans_lt (hle.trans_lt hlt))

end DivideOut

/-! ### The inserts and the residue -/

theorem trialInserts_zero (td t : Nat) :
    trialInserts td 0 t = if t % 2 = 0 then [(2, padicValNat 2 t)] else [] := by
  simp [trialInserts]

theorem insertsProd_replicate (n p : Nat) : insertsProd (List.replicate n (p, 1)) = p ^ n := by
  simp [insertsProd]

/-- The next prime after the first `e` table primes is the `(e + 1)`-th odd prime. -/
theorem nextPrime_eq {td e : Nat} (he : e ≤ td) : nextPrime td e = Nat.nth Nat.Prime (e + 1) := by
  rw [nextPrime, List.getD_eq_getElem?_getD]
  obtain he | rfl := Nat.lt_or_eq_of_le he
  · rw [tablePrimes_getElem? he, Option.getD_some]
  · rw [List.getElem?_eq_none (length_tablePrimes e).le, Option.getD_none, firstOmitted_eq]

theorem nextPrime_prime {td e : Nat} (he : e ≤ td) : (nextPrime td e).Prime := nextPrime_eq he ▸ Nat.prime_nth_prime _

theorem take_tablePrimes_succ {td e : Nat} (he : e < td) :
    (tablePrimes td).take (e + 1) = (tablePrimes td).take e ++ [nextPrime td e] := by
  rw [List.take_add_one, tablePrimes_getElem? he, nextPrime_eq he.le]
  rfl

theorem trialInserts_succ {td e : Nat} (he : e < td) (t : Nat) : trialInserts td (e + 1) t =
    trialInserts td e t ++ List.replicate (padicValNat (nextPrime td e) t) (nextPrime td e, 1) := by
  rw [trialInserts, take_tablePrimes_succ he, List.flatMap_append, trialInserts, List.append_assoc]
  simp

theorem trialResidue_eq (td e t : Nat) : trialResidue td e t = t / insertsProd (trialInserts td e t) := rfl

theorem insertsProd_trialInserts_zero (td t : Nat) : insertsProd (trialInserts td 0 t) = 2 ^ padicValNat 2 t := by
  rw [trialInserts_zero]
  split_ifs with heven
  · simp
  · rw [padicValNat.eq_zero_of_not_dvd (by omega)]
    rfl

theorem trialResidue_zero (td t : Nat) : trialResidue td 0 t = t / 2 ^ padicValNat 2 t := by
  rw [trialResidue_eq, insertsProd_trialInserts_zero]

/-- What trial division by 2 and the first `e` table primes leaves of `t`. -/
structure Stripped (td t e : Nat) : Prop where
  eq : trialResidue td e t * insertsProd (trialInserts td e t) = t
  odd : trialResidue td e t % 2 = 1
  not_dvd : ∀ p ∈ (tablePrimes td).take e, ¬p ∣ trialResidue td e t
  val : ∀ q, q.Prime → q ≠ 2 → q ∉ (tablePrimes td).take e → padicValNat q (trialResidue td e t) = padicValNat q t

section Residue
variable {td t : Nat} (ht : t ≠ 0)
include ht

theorem stripped_zero : Stripped td t 0 := by
  have hnot := not_dvd_div_pow Nat.prime_two ht
  rw [← trialResidue_zero td] at hnot
  refine ⟨?_, by omega, by simp, fun q hq h2 _ => ?_⟩
  · rw [trialResidue_zero, insertsProd_trialInserts_zero, div_pow_mul_pow]
  · rw [trialResidue_zero, padicValNat_div_pow Nat.prime_two ht hq h2]

theorem Stripped.ne_zero {e : Nat} (h : Stripped td t e) : trialResidue td e t ≠ 0 := fun h0 => ht (by
  rw [← h.eq, h0, zero_mul])

omit ht in
/-- A table prime that was not tried yet divides the residue as often as it divides `t`. -/
theorem Stripped.val_tablePrime {e : Nat} (h : Stripped td t e) (he : e < td) :
    padicValNat (nextPrime td e) (trialResidue td e t) = padicValNat (nextPrime td e) t := by
  have hmem : nextPrime td e ∈ tablePrimes td := List.mem_of_getElem? (nextPrime_eq he.le ▸ tablePrimes_getElem? he)
  refine h.val _ (nextPrime_prime he.le) (mem_tablePrimes_iff.mp hmem).2.1 fun hin => ?_
  exact absurd ((mem_take_tablePrimes_iff he.le).mp hin).2.2 (nextPrime_eq he.le).not_lt

omit ht in
theorem trialResidue_succ {e : Nat} (h : Stripped td t e) (he : e < td) : trialResidue td (e + 1) t =
    trialResidue td e t / nextPrime td e ^ padicValNat (nextPrime td e) (trialResidue td e t) := by
  rw [h.val_tablePrime he, trialResidue_eq, trialInserts_succ he, insertsProd_append, insertsProd_replicate,
    ← Nat.div_div_eq_div_mul, ← trialResidue_eq]

theorem Stripped.succ {e : Nat} (h : Stripped td t e) (he : e < td) : Stripped td t (e + 1) := by
  have hp := nextPrime_prime he.le
  have hr := h.ne_zero ht
  have heq := div_pow_mul_pow (p := nextPrime td e) (r := trialResidue td e t)
  have hnew : trialResidue td (e + 1) t ∣ trialResidue td e t := by
    rw [trialResidue_succ h he]
    exact Dvd.intro _ heq
  refine ⟨?_, ?_, fun p hmem hdvd => ?_, fun q hq h2 hnot => ?_⟩
  · rw [trialResidue_succ h he, trialInserts_succ he, insertsProd_append, insertsProd_replicate,
      ← h.val_tablePrime he, mul_comm (insertsProd _), ← mul_assoc, heq, h.eq]
  · by_contra heven
    have h2 : 2 ∣ trialResidue td e t := Dvd.dvd.trans (by omega) hnew
    have := h.odd
    omega
  · rw [take_tablePrimes_succ he, List.mem_append, List.mem_singleton] at hmem
    obtain hmem | rfl := hmem
    · exact h.not_dvd p hmem (hdvd.trans hnew)
    · rw [trialResidue_succ h he] at hdvd
      exact not_dvd_div_pow hp hr hdvd
  · rw [take_tablePrimes_succ he, List.mem_append, List.mem_singleton, not_or] at hnot
    rw [trialResidue_succ h he, padicValNat_div_pow hp hr hq hnot.2, h.val q hq h2 hnot.1]

theorem stripped {e : Nat} (he : e ≤ td) : Stripped td t e := by
  induction e with
  | zero => exact stripped_zero ht
  | succ e ih => exact (ih (by omega)).succ ht (by omega)

theorem trialResidue_anti {e e' : Nat} (hle : e ≤ e') (he' : e' ≤ td) : trialResidue td e' t ∣ trialResidue td e t := by
  induction e', hle using Nat.le_induction with
  | base => exact dvd_rfl
  | succ e' hle ih =>
    refine Dvd.dvd.trans ?_ (ih (by omega))
    rw [trialResidue_succ (stripped ht (by omega)) (by omega)]
    exact Dvd.intro _ div_pow_mul_pow

theorem trialResidue_le {e : Nat} (he : e ≤ td) : trialResidue td e t ≤ t :=
  Nat.le_of_dvd (Nat.pos_of_ne_zero ht) (Dvd.intro _ (stripped ht he).eq)

/-- The entries of the inserts: 2 and tried table primes, each at least once. -/
theorem mem_trialInserts {e : Nat} (he : e ≤ td) {vm : Nat × Nat} (h : vm ∈ trialInserts td e t) :
    1 ≤ vm.2 ∧ vm.1.Prime ∧ (vm.1 = 2 ∨ vm.1 ∈ (tablePrimes td).take e) ∧ (vm.1 = 2 ∨ vm.2 = 1) := by
  rw [trialInserts, List.mem_append] at h
  obtain h | h := h
  · split_ifs at h with heven
    · obtain rfl := List.mem_singleton.mp h
      exact ⟨one_le_padicValNat_of_dvd ht (Nat.dvd_of_mod_eq_zero heven), Nat.prime_two, .inl rfl, .inl rfl⟩
    · cases h
  · obtain ⟨p, hp, hmem⟩ := List.mem_flatMap.mp h
    obtain rfl := List.eq_of_mem_replicate hmem
    exact ⟨le_rfl, ((mem_take_tablePrimes_iff he).mp hp).1, .inr hp, .inr rfl⟩

/-- A value that is inserted does not divide the residue. -/
theorem not_dvd_of_mem_trialInserts {e : Nat} (he : e ≤ td) {vm : Nat × Nat} (h : vm ∈ trialInserts td e t) :
    ¬vm.1 ∣ trialResidue td e t := by
  have hstrip := stripped ht he
  obtain h2 | hmem := (mem_trialInserts ht he h).2.2.1
  · rw [h2]
    have := hstrip.odd
    omega
  · exact hstrip.not_dvd _ hmem

end Residue

/-! ### The loops -/

/-- The table takes the low word of a prime; a legal table has no larger one. -/
def wordKey (vm : Nat × Nat) : Nat × Nat := (vm.1 % 2 ^ 64, vm.2)

/-- Both loops of R131 over one prime: divide as long as the test answers a quotient. -/
def divideOutBy (quotient : Nat → Option Nat) (p : Nat) : Nat → Nat → Facc → Run Nat
  | 0, t, acc => .done t acc
  | f + 1, t, acc =>
    match quotient t with
    | some q => (insertRun p 1 acc).andThen fun _ acc' => divideOutBy quotient p f q acc'
    | none => .done t acc

theorem divideOut1_eq (en : TableEntry) (f t : Nat) (acc : Facc) :
    divideOut1 en f t acc = divideOutBy (quotient1 en) en.p f t acc := by
  induction f generalizing t acc with
  | zero => rfl
  | succ f ih =>
    rw [divideOut1, divideOutBy]
    cases quotient1 en t with
    | none => rfl
    | some q => exact congrArg (Run.andThen (insertRun en.p 1 acc)) (funext fun _ => funext fun acc' => ih q acc')

theorem divideOut2_eq (en : TableEntry) (f t : Nat) (acc : Facc) :
    divideOut2 en f t acc = divideOutBy (quotient2 en) en.p f t acc := by
  induction f generalizing t acc with
  | zero => rfl
  | succ f ih =>
    rw [divideOut2, divideOutBy]
    cases quotient2 en t with
    | none => rfl
    | some q => exact congrArg (Run.andThen (insertRun en.p 1 acc)) (funext fun _ => funext fun acc' => ih q acc')

/-- The loop inserts the prime once for every time it divides. -/
theorem divideOutBy_plays {quotient : Nat → Option Nat} {p bound : Nat} (hp : p.Prime)
    (hq : ∀ t < bound, quotient t = if p ∣ t then some (t / p) else none) (f : Nat) {t : Nat} (ht : t ≠ 0)
    (hlt : t < bound) (hf : padicValNat p t ≤ f) :
    Plays (divideOutBy quotient p f t) ((List.replicate (padicValNat p t) (p, 1)).map wordKey)
      (.returns (t / p ^ padicValNat p t)) := by
  have : Fact p.Prime := ⟨hp⟩
  induction f generalizing t with
  | zero =>
    obtain h0 : padicValNat p t = 0 := by omega
    rw [h0, pow_zero, Nat.div_one]
    exact fun _ => rfl
  | succ f ih =>
    by_cases hdvd : p ∣ t
    · have hval := padicValNat.div hdvd
      have hpos := one_le_padicValNat_of_dvd ht hdvd
      obtain ⟨k, hk⟩ : ∃ k, padicValNat p t = k + 1 := ⟨_, (Nat.sub_add_cancel hpos).symm⟩
      rw [hk, Nat.add_sub_cancel] at hval
      have hdiv : t / p ≠ 0 := Nat.div_ne_zero_iff.mpr ⟨hp.ne_zero, Nat.le_of_dvd (Nat.pos_of_ne_zero ht) hdvd⟩
      have hrest := ih hdiv ((Nat.div_le_self t p).trans_lt hlt) (by omega)
      rw [hval, Nat.div_div_eq_div_mul, ← pow_succ'] at hrest
      have hfirst := (insertRun_plays p 1).andThen (k := fun _ acc => divideOutBy quotient p f (t / p) acc) hrest
      intro acc
      rw [divideOutBy, hq t hlt, if_pos hdvd, hk]
      exact hfirst acc
    · intro acc
      rw [divideOutBy, hq t hlt, if_neg hdvd, padicValNat.eq_zero_of_not_dvd hdvd, pow_zero, Nat.div_one]
      rfl

/-- The script of trial division up to the first `e` table primes. -/
def trialScript (td t e : Nat) : List (Nat × Nat) := (trialInserts td e t).map wordKey

section Loops
variable {td t : Nat} (ht : t ≠ 0)
include ht

/-- One more prime, by either loop. -/
theorem play_trialScript_andThen {e : Nat} (he : e < td) {divideOut : Nat → Facc → Run Nat}
    (h : Plays (divideOut (trialResidue td e t))
      ((List.replicate (padicValNat (nextPrime td e) (trialResidue td e t)) (nextPrime td e, 1)).map wordKey)
      (.returns (trialResidue td e t / nextPrime td e ^ padicValNat (nextPrime td e) (trialResidue td e t)))) (f : Facc) :
    (play (trialScript td t e) (.returns (trialResidue td e t)) f).andThen divideOut =
      play (trialScript td t (e + 1)) (.returns (trialResidue td (e + 1) t)) f := by
  have hstrip := stripped ht he.le
  rw [← trialResidue_succ hstrip he, hstrip.val_tablePrime he] at h
  rw [play_andThen h, trialScript, trialScript, trialInserts_succ he, List.map_append]

omit ht in
theorem exists_entry {e : Nat} (he : e < td) : ∃ en : TableEntry, en.Sound ∧ en.p = nextPrime td e ∧
    (primeTable td).drop e = en :: (primeTable td).drop (e + 1) := by
  have hlen : e < (primeTable td).length := by rwa [length_primeTable]
  refine ⟨(primeTable td)[e], sound_of_mem_primeTable (List.getElem_mem hlen), ?_, List.drop_eq_getElem_cons hlen⟩
  rw [(primeTable_getElem? (List.getElem?_eq_getElem hlen)).2, nextPrime_eq he.le]

/-- The two-word phase goes on to the first index with a one-word residue, or through the whole table. -/
theorem twoWordPhase_plays (hlt : t < 2 ^ 128) {e : Nat} (he : e ≤ td) : ∃ i, e ≤ i ∧ i ≤ td ∧
    (∀ j, e ≤ j → j < i → 2 ^ 64 ≤ trialResidue td j t) ∧ (i < td → trialResidue td i t < 2 ^ 64) ∧
    ∀ f, (play (trialScript td t e) (.returns (trialResidue td e t)) f).andThen
      (twoWordPhase ((primeTable td).drop e)) =
        play (trialScript td t i) (.returns (trialResidue td i t, (primeTable td).drop i)) f := by
  induction h : td - e generalizing e with
  | zero =>
    obtain rfl : e = td := by omega
    refine ⟨e, le_rfl, le_rfl, by omega, by omega, fun f => ?_⟩
    rw [List.drop_of_length_le (length_primeTable e).le, play_returns_andThen]
    rfl
  | succ k ih =>
    have hlt' : e < td := by omega
    obtain ⟨en, hen, hp, hdrop⟩ := exists_entry hlt'
    by_cases hone : trialResidue td e t < 2 ^ 64
    · refine ⟨e, le_rfl, he, by omega, fun _ => hone, fun f => ?_⟩
      rw [← base_eq] at hone
      rw [hdrop, play_returns_andThen, play]
      simp only [twoWordPhase, hone, if_true]
      rfl
    · obtain ⟨i, hle, hi, htwo, hend, hplay⟩ := ih (e := e + 1) (by omega) (by omega)
      refine ⟨i, by omega, hi, fun j hj hji => ?_, hend, fun f => ?_⟩
      · obtain rfl | hj := Nat.eq_or_lt_of_le hj
        · omega
        · exact htwo j hj hji
      · have hres : trialResidue td e t < Config.base * Config.base :=
          ((trialResidue_le ht he).trans_lt hlt).trans_eq (by norm_num [Config.base])
        have hne := (stripped ht he).ne_zero ht
        have hdiv := divideOutBy_plays (quotient := quotient2 en) (nextPrime_prime he)
          (fun t ht => hp ▸ quotient2_eq hen ht) 128 hne hres
          (padicValNat_lt_of_lt (nextPrime_prime he) hne ((trialResidue_le ht he).trans_lt hlt)).le
        rw [← hplay, ← play_trialScript_andThen ht hlt' (divideOut := divideOut2 en 128)
          (fun acc => by rw [divideOut2_eq, hp]; exact hdiv acc), andThen_assoc, play_returns_andThen,
          play_returns_andThen, hdrop]
        rw [← base_eq] at hone
        simp only [twoWordPhase, hone, if_false]

/-- The end of the one-word phase from index `g + j`, where a group began at `g`: it stops after one of the groups of 8
from there on, as `TrialTries` says. -/
def StopsAfterGroups (td t g e : Nat) : Prop := ∃ k, 1 ≤ k ∧ e = min (g + 8 * k) td ∧
  (td ≤ g + 8 * k ∨ trialResidue td e t < nextPrime td e ^ 2) ∧
  ∀ j, 1 ≤ j → j < k → g + 8 * j < td ∧ nextPrime td (g + 8 * j) ^ 2 ≤ trialResidue td (g + 8 * j) t

omit ht in
/-- The table ends in the group. -/
theorem stopsAfterGroups_of_le {g : Nat} (hg : g ≤ td) (h : td ≤ g + 8) : StopsAfterGroups td t g td :=
  ⟨1, le_rfl, by omega, .inl (by omega), by omega⟩

omit ht in
/-- The residue is below the square of the next prime after the group. -/
theorem stopsAfterGroups_of_lt {g : Nat} (hg : g + 8 ≤ td) (h : trialResidue td (g + 8) t < nextPrime td (g + 8) ^ 2) :
    StopsAfterGroups td t g (g + 8) :=
  ⟨1, le_rfl, by omega, .inr h, by omega⟩

omit ht in
/-- Neither: the next group follows. -/
theorem StopsAfterGroups.next {g e : Nat} (hg : g + 8 < td)
    (hle : nextPrime td (g + 8) ^ 2 ≤ trialResidue td (g + 8) t) (h : StopsAfterGroups td t (g + 8) e) :
    StopsAfterGroups td t g e := by
  obtain ⟨k, hk, he, hstop, hgo⟩ := h
  refine ⟨k + 1, by omega, by omega, hstop.imp_left (by omega), fun j hj hjk => ?_⟩
  obtain rfl | hj := Nat.eq_or_lt_of_le hj
  · exact ⟨hg, hle⟩
  · have := hgo (j - 1) (by omega) (by omega)
    rwa [show g + 8 + 8 * (j - 1) = g + 8 * j by omega] at this

omit ht in
/-- The next untried prime is the head of what is left of the table, or `FOP` past it. -/
theorem head_drop_primeTable (td e : Nat) :
    (((primeTable td).drop e).head?.map TableEntry.p).getD (firstOmitted td) = nextPrime td e := by
  rw [List.head?_drop, ← List.getElem?_map, map_p_primeTable, nextPrime, List.getD_eq_getElem?_getD]

theorem oneWordPhase_plays {g j : Nat} (hj : j ≤ 7) (he : g + j ≤ td)
    (hone : trialResidue td (g + j) t < 2 ^ 64) : ∃ e, StopsAfterGroups td t g e ∧
      ∀ f, (play (trialScript td t (g + j)) (.returns (trialResidue td (g + j) t)) f).andThen
        (oneWordPhase (firstOmitted td) ((primeTable td).drop (g + j)) j) =
          play (trialScript td t e) (.returns (trialResidue td e t)) f := by
  induction h : td - (g + j) generalizing g j with
  | zero =>
    obtain rfl : td = g + j := by omega
    refine ⟨g + j, stopsAfterGroups_of_le (by omega) (by omega), fun f => ?_⟩
    rw [List.drop_of_length_le (length_primeTable _).le, play_returns_andThen]
    rfl
  | succ k ih =>
    have hlt' : g + j < td := by omega
    obtain ⟨en, hen, hp, hdrop⟩ := exists_entry hlt'
    have hne := (stripped ht he).ne_zero ht
    have hdiv := divideOutBy_plays (quotient := quotient1 en) (nextPrime_prime he)
      (fun t ht => hp ▸ quotient1_eq hen ht) 64 hne (hone.trans_eq base_eq.symm)
      (padicValNat_lt_of_lt (nextPrime_prime he) hne hone).le
    have hstep := play_trialScript_andThen ht hlt' (divideOut := divideOut1 en 64)
      (fun acc => by rw [divideOut1_eq, hp]; exact hdiv acc)
    have hone' : trialResidue td (g + j + 1) t < 2 ^ 64 :=
      (Nat.le_of_dvd (Nat.pos_of_ne_zero hne) (trialResidue_anti ht (by omega) (by omega))).trans_lt hone
    -- one more prime, and then what the phase does with its residue
    have hunfold : ∀ f, (play (trialScript td t (g + j)) (.returns (trialResidue td (g + j) t)) f).andThen
        (oneWordPhase (firstOmitted td) ((primeTable td).drop (g + j)) j) =
        (play (trialScript td t (g + j + 1)) (.returns (trialResidue td (g + j + 1) t)) f).andThen fun t' acc' =>
          if j < 7 then oneWordPhase (firstOmitted td) ((primeTable td).drop (g + j + 1)) (j + 1) t' acc'
          else if t' < nextPrime td (g + j + 1) * nextPrime td (g + j + 1) then .done t' acc'
          else oneWordPhase (firstOmitted td) ((primeTable td).drop (g + j + 1)) 0 t' acc' := by
      intro f
      rw [← hstep, andThen_assoc, play_returns_andThen, play_returns_andThen, hdrop]
      simp only [oneWordPhase, head_drop_primeTable]
    by_cases hj7 : j < 7
    · obtain ⟨e, hstop, hplay⟩ := ih (g := g) (j := j + 1) (by omega) (by omega) hone' (by omega)
      refine ⟨e, hstop, fun f => ?_⟩
      rw [hunfold, ← hplay]
      simp only [hj7, if_true, add_assoc]
    · obtain rfl : j = 7 := by omega
      by_cases hexit : trialResidue td (g + 8) t < nextPrime td (g + 8) ^ 2
      · refine ⟨g + 8, stopsAfterGroups_of_lt (by omega) hexit, fun f => ?_⟩
        rw [sq] at hexit
        rw [hunfold, play_returns_andThen, play]
        simp only [hj7, if_false, hexit, if_true]
        rfl
      · have hexit' := hexit
        rw [sq] at hexit'
        by_cases hend : g + 8 = td
        · subst hend
          refine ⟨g + 8, stopsAfterGroups_of_le (by omega) le_rfl, fun f => ?_⟩
          rw [hunfold, List.drop_of_length_le (length_primeTable _).le, play_returns_andThen, play]
          simp only [hj7, if_false, hexit']
          rfl
        · obtain ⟨e, hstop, hplay⟩ := ih (g := g + 8) (j := 0) (by omega) (by omega) hone' (by omega)
          refine ⟨e, hstop.next (by omega) (not_lt.mp hexit), fun f => ?_⟩
          rw [hunfold, ← hplay, play_returns_andThen, play_returns_andThen]
          simp only [hj7, if_false, hexit', add_zero, add_assoc, Nat.reduceAdd]

/-- The factor 2 is inserted at once with its multiplicity. -/
theorem play_trialScript_zero (f : Facc) :
    (if 0 < ctz t then insertRun 2 (ctz t) f else .done () f) = play (trialScript td t 0) (.returns ()) f := by
  rw [ctz_eq ht, trialScript, trialInserts_zero]
  by_cases heven : t % 2 = 0
  · have hpos : 0 < padicValNat 2 t := one_le_padicValNat_of_dvd ht (Nat.dvd_of_mod_eq_zero heven)
    rw [if_pos heven, if_pos hpos]
    exact insertRun_plays 2 _ f
  · rw [if_neg heven, padicValNat.eq_zero_of_not_dvd (by omega), if_neg (lt_irrefl 0)]
    rfl

end Loops

/-- Trial division of R131 on every accumulator: its inserts in order, and its residue (spec/42_trial_division.md
section 2). -/
theorem tdiv_plays (td : Nat) {t : Nat} (ht : t ≠ 0) (hlt : t < 2 ^ 128) :
    ∃ e ≤ td, TrialTries td t e ∧ Plays (tdiv td t) (trialScript td t e) (.returns (trialResidue td e t)) := by
  obtain ⟨i, -, hi, htwo, hend, hplay₂⟩ := twoWordPhase_plays ht hlt (Nat.zero_le td)
  have hphase : ∀ f, tdiv td t f = (play (trialScript td t i) (.returns (trialResidue td i t)) f).andThen fun r acc =>
      if r < Config.base then oneWordPhase (firstOmitted td) ((primeTable td).drop i) 0 r acc else .done r acc := by
    intro f
    calc tdiv td t f
        = ((play (trialScript td t 0) (.returns (trialResidue td 0 t)) f).andThen
            (twoWordPhase ((primeTable td).drop 0))).andThen fun r acc =>
              if r.1 < Config.base then oneWordPhase (firstOmitted td) r.2 0 r.1 acc else .done r.1 acc := by
          rw [tdiv, play_trialScript_zero (td := td) ht, ctz_eq ht, ← trialResidue_zero td t, andThen_assoc,
            play_returns_andThen, play_returns_andThen, List.drop_zero]
      _ = _ := by rw [hplay₂, play_returns_andThen, play_returns_andThen]
  by_cases hone : trialResidue td i t < 2 ^ 64
  · obtain ⟨e, hstop, hplay₁⟩ := oneWordPhase_plays ht (g := i) (j := 0) (by omega) hi hone
    obtain ⟨k, hk, he, hstop', hgo⟩ := hstop
    refine ⟨e, by omega, ⟨i, hi, fun j hj => htwo j (Nat.zero_le j) hj, hend, ?_⟩, fun f => ?_⟩
    · obtain hlt' | rfl := Nat.lt_or_eq_of_le hi
      · exact .inr ⟨hlt', k, hk, he, hstop', hgo⟩
      · exact .inl ⟨rfl, by omega⟩
    · rw [hphase, ← hplay₁, play_returns_andThen, play_returns_andThen]
      rw [← base_eq] at hone
      simp only [hone, if_true, add_zero]
  · obtain rfl : i = td := by
      by_contra hne
      exact hone (hend (by omega))
    refine ⟨i, le_rfl, ⟨i, le_rfl, fun j hj => htwo j (Nat.zero_le j) hj, hend, .inl ⟨rfl, rfl⟩⟩, fun f => ?_⟩
    rw [hphase, play_returns_andThen, play]
    rw [← base_eq] at hone
    simp only [hone, if_false]
    rfl

end Sys2Proof.Machine
end

section
/-!
PROOFS. What trial division leaves (spec/42_trial_division.md R134), and why the inserts of a factorization below `2^128`
fit the accumulator (spec/44_rho_factor.md R172).
-/
namespace Sys2Proof.Machine

/-! ### The residue -/

theorem prime_of_no_small_factor {d q : Nat} (h2 : 2 ≤ d) (hlt : d < q ^ 2) (h : ∀ p, p.Prime → p < q → ¬p ∣ d) :
    d.Prime := by
  by_contra hd
  have hle := Nat.minFac_sq_le_self (by omega) hd
  exact h _ (Nat.minFac_prime (by omega)) (lt_of_pow_lt_pow_left₀ 2 (Nat.zero_le q) (hle.trans_lt hlt)) d.minFac_dvd

/-- Every divisor of `n` below `FOP^2` is prime: then the oracle's answer below `FOP^2` (R144) is right for the divisors
of `n`. -/
def Clean (td n : Nat) : Prop := ∀ d, d ∣ n → 2 ≤ d → d < firstOmitted td * firstOmitted td → d.Prime

theorem Clean.of_dvd {td n m : Nat} (h : Clean td n) (hm : m ∣ n) : Clean td m := fun d hd => h d (hd.trans hm)

theorem clean_of_no_small_factor {td n : Nat} (h : ∀ p, p.Prime → p < firstOmitted td → ¬p ∣ n) : Clean td n :=
  fun _ hd h2 hlt => prime_of_no_small_factor h2 (hlt.trans_eq (sq _).symm) fun p hp hlt hpd => h p hp hlt (hpd.trans hd)

theorem clean_of_prime {td n : Nat} (h : n.Prime) : Clean td n := fun _ hd h2 _ =>
  ((Nat.dvd_prime h).mp hd).resolve_left (by omega) ▸ h

section Tries
variable {td t e : Nat} (ht : t ≠ 0) (htries : TrialTries td t e)

section Index
include htries

theorem TrialTries.le : e ≤ td := by
  obtain ⟨i, hi, -, -, ⟨-, rfl⟩ | ⟨-, k, -, he, -⟩⟩ := htries <;> omega

/-- The table was tried to its end, or the early exit was taken. -/
theorem TrialTries.exit : e = td ∨ trialResidue td e t < nextPrime td e ^ 2 := by
  have hle := htries.le
  obtain ⟨i, hi, -, -, ⟨-, rfl⟩ | ⟨-, k, -, he, hk | hlt, -⟩⟩ := htries
  · exact .inl rfl
  · exact .inl (by omega)
  · exact .inr hlt

include ht

/-- Where two words remain, the whole table was tried. -/
theorem TrialTries.eq_of_large (hr : 2 ^ 64 ≤ trialResidue td e t) : e = td := by
  obtain ⟨i, hi, -, hend, ⟨-, rfl⟩ | ⟨hlt, k, hk, he, -⟩⟩ := htries
  · rfl
  · have hie : i ≤ e := by omega
    have hdvd := trialResidue_anti ht hie (by omega : e ≤ td)
    have hle := Nat.le_of_dvd (Nat.pos_of_ne_zero ((stripped ht hi).ne_zero ht)) hdvd
    have := hend hlt
    omega

end Index

include ht

/-- No prime below the next untried one divides the residue. -/
theorem not_dvd_trialResidue (he : e ≤ td) {p : Nat} (hp : p.Prime) (hlt : p < nextPrime td e) :
    ¬p ∣ trialResidue td e t := by
  have hstrip := stripped ht he
  rw [nextPrime_eq he] at hlt
  by_cases h2 : p = 2
  · rw [h2]
    have := hstrip.odd
    omega
  · exact hstrip.not_dvd p ((mem_take_tablePrimes_iff he).mpr ⟨hp, h2, hlt⟩)

omit ht in
theorem nextPrime_self (td : Nat) : nextPrime td td = firstOmitted td := by
  rw [nextPrime_eq le_rfl, firstOmitted_eq]

include htries

theorem not_dvd_or_early : (∀ p, p.Prime → p < firstOmitted td → ¬p ∣ trialResidue td e t) ∨
    trialResidue td e t = 1 ∨ (trialResidue td e t).Prime := by
  have hne := (stripped ht htries.le).ne_zero ht
  obtain rfl | hexit := htries.exit
  · exact .inl fun p hp hlt => not_dvd_trialResidue ht le_rfl hp (hlt.trans_eq (nextPrime_self e).symm)
  · refine .inr ?_
    by_cases h1 : trialResidue td e t = 1
    · exact .inl h1
    · exact .inr (prime_of_no_small_factor (by omega) hexit fun p hp => not_dvd_trialResidue ht htries.le hp)

theorem clean_trialResidue : Clean td (trialResidue td e t) := by
  obtain h | h | h := not_dvd_or_early ht htries
  · exact clean_of_no_small_factor h
  · intro _ hd h2
    rw [h, Nat.dvd_one] at hd
    omega
  · exact clean_of_prime h

end Tries

/-! ### The inserts -/

theorem insertsMult_replicate (n p x : Nat) : insertsMult (List.replicate n (p, 1)) x = if x = p then n else 0 := by
  induction n with
  | zero => simp
  | succ n ih =>
    rw [List.replicate_succ, insertsMult_cons, ih]
    split_ifs <;> omega

theorem insertsMult_trialInserts {td t e : Nat} (he : e ≤ td) (x : Nat) : insertsMult (trialInserts td e t) x =
    if x = 2 ∨ x ∈ (tablePrimes td).take e then padicValNat x t else 0 := by
  induction e with
  | zero =>
    rw [trialInserts_zero, List.take_zero]
    by_cases hx : x = 2
    · subst hx
      by_cases heven : t % 2 = 0
      · simp [heven]
      · simp [heven, padicValNat.eq_zero_of_not_dvd (show ¬2 ∣ t by omega)]
    · split_ifs <;> simp [hx] at *
  | succ e ih =>
    have hnext := nextPrime_eq (td := td) (e := e) (by omega)
    have hnot : nextPrime td e ∉ (tablePrimes td).take e := fun hmem =>
      ((mem_take_tablePrimes_iff (by omega)).mp hmem).2.2.ne hnext
    have hne2 : nextPrime td e ≠ 2 := by
      have hmem : nextPrime td e ∈ (tablePrimes td).take (e + 1) := by simp [take_tablePrimes_succ (Nat.lt_of_succ_le he)]
      exact ((mem_take_tablePrimes_iff he).mp hmem).2.1
    rw [trialInserts_succ he, insertsMult_append, ih (by omega), insertsMult_replicate]
    simp only [take_tablePrimes_succ (Nat.lt_of_succ_le he), List.mem_append, List.mem_singleton]
    by_cases hx : x = nextPrime td e
    · subst hx
      simp [hnot, hne2]
    · simp [hx]

theorem pow_dvd_insertsProd {ins : List (Nat × Nat)} {vm : Nat × Nat} (h : vm ∈ ins) : vm.1 ^ vm.2 ∣ insertsProd ins :=
  List.dvd_prod (List.mem_map_of_mem h)

/-- With a table of one-word primes every insert is made under its own value. -/
theorem trialScript_eq {td e t : Nat} (hword : firstOmitted td ≤ 2 ^ 64) (ht : t ≠ 0) (he : e ≤ td) :
    trialScript td t e = trialInserts td e t := by
  refine (List.map_congr_left fun vm hvm => ?_).trans (List.map_id _)
  have hlt : vm.1 < 2 ^ 64 := by
    obtain h2 | hmem := (mem_trialInserts ht he hvm).2.2.1
    · rw [h2]
      norm_num
    · exact (mem_tablePrimes_iff.mp (List.mem_of_mem_take hmem)).2.2.trans_le hword
  exact Prod.ext (Nat.mod_eq_of_lt hlt) rfl

theorem insertable_trialScript {td e t : Nat} (ht : t ≠ 0) (hlt : t < 2 ^ 128) (he : e ≤ td) {vm : Nat × Nat}
    (h : vm ∈ trialScript td t e) : Insertable vm ∧ vm.1 < 2 ^ 64 := by
  obtain ⟨wm, hwm, rfl⟩ := List.mem_map.mp h
  obtain ⟨hpos, hp, -⟩ := mem_trialInserts ht he hwm
  have hle : wm.1 ^ wm.2 ≤ t := by
    refine Nat.le_of_dvd (Nat.pos_of_ne_zero ht) ((pow_dvd_insertsProd hwm).trans ?_)
    exact Dvd.intro_left _ (stripped ht he).eq
  have hexp : wm.2 < 128 := by
    refine (Nat.pow_lt_pow_iff_right (by norm_num : 1 < 2)).mp ?_
    exact (Nat.pow_le_pow_left hp.two_le _).trans_lt (hle.trans_lt hlt)
  have hone : wm.1 % 2 ^ 64 < 2 ^ 64 := Nat.mod_lt _ (by norm_num)
  exact ⟨⟨hone.trans (by norm_num), hpos, by simp only [wordKey]; omega, fun hge => absurd hone (not_lt.mpr hge)⟩, hone⟩

/-! ### At most 26 different factors -/

/-- 25 primes below 101 multiply to more than `2^128 / 101^2`, so of numbers that are prime or at least 101 no 27 have a
product below `2^128`. -/
theorem card_le_of_prod_lt {S : Finset Nat} (hS : ∀ v ∈ S, v.Prime ∨ 101 ≤ v) (hprod : ∏ v ∈ S, v < 2 ^ 128) :
    S.card ≤ 26 := by
  by_contra! hcard
  have hlist := smallestTable
  obtain ⟨T, hT⟩ : ∃ T : Finset Nat, T = (2 :: tablePrimes 24).toFinset := ⟨_, rfl⟩
  have hTcard : T.card = 25 := by rw [hT, hlist]; rfl
  have hTprod : 2 ^ 128 ≤ (∏ v ∈ T, v) * 101 ^ 2 := by rw [hT, hlist]; decide
  have hTle : ∀ v ∈ T, v ≤ 101 := by rw [hT, hlist]; decide
  have hfop : firstOmitted 24 = 101 := by decide +kernel
  have hout : ∀ v ∈ S \ T, 101 ≤ v := by
    intro v hv
    obtain ⟨hvS, hvT⟩ := Finset.mem_sdiff.mp hv
    by_contra hlt
    have hp := (hS v hvS).resolve_right hlt
    refine hvT ?_
    rw [hT, List.mem_toFinset, List.mem_cons, mem_tablePrimes_iff, hfop]
    exact or_iff_not_imp_left.mpr fun h2 => ⟨hp, h2, not_le.mp hlt⟩
  have hcount : (T \ S).card + 2 ≤ (S \ T).card := by
    have h1 := Finset.card_sdiff_add_card_inter S T
    have h2 := Finset.card_sdiff_add_card_inter T S
    rw [Finset.inter_comm] at h2
    omega
  have hbig : (∏ v ∈ T \ S, v) * 101 ^ 2 ≤ ∏ v ∈ S \ T, v :=
    calc (∏ v ∈ T \ S, v) * 101 ^ 2
        ≤ 101 ^ (T \ S).card * 101 ^ 2 :=
          Nat.mul_le_mul_right _ (Finset.prod_le_pow_card _ _ _ fun v hv => hTle v (Finset.mem_sdiff.mp hv).1)
      _ = 101 ^ ((T \ S).card + 2) := (pow_add ..).symm
      _ ≤ 101 ^ (S \ T).card := Nat.pow_le_pow_right (by norm_num) hcount
      _ ≤ ∏ v ∈ S \ T, v := Finset.pow_card_le_prod _ _ _ hout
  have htotal : (∏ v ∈ T, v) * 101 ^ 2 ≤ ∏ v ∈ S, v := by
    rw [← Finset.prod_inter_mul_prod_sdiff S T, ← Finset.prod_inter_mul_prod_sdiff T S, mul_assoc, Finset.inter_comm T S]
    exact Nat.mul_le_mul_left _ hbig
  omega

section Bounds
variable {ins : List (Nat × Nat)} (h : ∀ vm ∈ ins, 2 ≤ vm.1 ∧ 1 ≤ vm.2)
include h

theorem insertsProd_pos : 0 < insertsProd ins := by
  refine Nat.pos_of_ne_zero (List.prod_ne_zero fun h0 => ?_)
  obtain ⟨vm, hvm, hzero⟩ := List.mem_map.mp h0
  exact absurd hzero (pow_ne_zero _ (by have := (h vm hvm).1; omega))

theorem two_pow_sum_le : 2 ^ (ins.map Prod.snd).sum ≤ insertsProd ins := by
  induction ins with
  | nil => exact le_rfl
  | cons vm ins ih =>
    rw [List.map_cons, List.sum_cons, pow_add, insertsProd_cons]
    exact Nat.mul_le_mul (Nat.pow_le_pow_left (h vm List.mem_cons_self).1 _) (ih fun wm hwm => h wm (.tail _ hwm))

theorem two_pow_largeCount_le : (2 ^ 64) ^ largeCount ins ≤ insertsProd ins := by
  induction ins with
  | nil => exact le_rfl
  | cons vm ins ih =>
    have hrest := ih fun wm hwm => h wm (.tail _ hwm)
    obtain ⟨h2, hm⟩ := h vm List.mem_cons_self
    rw [insertsProd_cons, largeCount, List.countP_cons, ← largeCount, pow_add, mul_comm]
    refine Nat.mul_le_mul ?_ hrest
    split_ifs with hlarge
    · rw [pow_one]
      exact (of_decide_eq_true hlarge).trans (Nat.le_self_pow (by omega) _)
    · exact Nat.one_le_pow _ _ (by omega)

theorem prod_keys_le : ∏ v ∈ (ins.map Prod.fst).toFinset, v ≤ insertsProd ins := by
  induction ins with
  | nil => exact le_rfl
  | cons vm ins ih =>
    have hrest := ih fun wm hwm => h wm (.tail _ hwm)
    obtain ⟨h2, hm⟩ := h vm List.mem_cons_self
    rw [insertsProd_cons, List.map_cons, List.toFinset_cons]
    by_cases hmem : vm.1 ∈ (ins.map Prod.fst).toFinset
    · rw [Finset.insert_eq_of_mem hmem]
      exact hrest.trans (Nat.le_mul_of_pos_left _ (pow_pos (by omega) _))
    · rw [Finset.prod_insert hmem]
      exact Nat.mul_le_mul (Nat.le_self_pow (by omega) _) hrest

end Bounds

/-- The inserts of a factorization of a number below `2^128` fit: first those of trial division, under their low words,
then the values `vs` found by rho, none of which trial division inserted. -/
theorem fits_factorization {trial : List (Nat × Nat)} {vs : List Nat}
    (htrial : ∀ vm ∈ trial, vm.1.Prime ∧ 1 ≤ vm.2 ∧ vm.1 ∉ vs) (hvs : ∀ v ∈ vs, 2 ≤ v ∧ (v.Prime ∨ 101 ≤ v))
    (hprod : insertsProd trial * vs.prod < 2 ^ 128) : Fits (trial.map wordKey ++ vs.map fun v => (v, 1)) := by
  obtain ⟨ins, hins⟩ : ∃ ins, ins = trial ++ vs.map fun v => (v, 1) := ⟨_, rfl⟩
  have hall : ∀ vm ∈ ins, (2 ≤ vm.1 ∧ 1 ≤ vm.2) ∧ (vm.1.Prime ∨ 101 ≤ vm.1) := by
    intro vm hvm
    rw [hins, List.mem_append, List.mem_map] at hvm
    obtain hvm | ⟨v, hv, rfl⟩ := hvm
    · obtain ⟨hp, hm, -⟩ := htrial vm hvm
      exact ⟨⟨hp.two_le, hm⟩, .inl hp⟩
    · exact ⟨⟨(hvs v hv).1, le_rfl⟩, (hvs v hv).2⟩
  have hsize : insertsProd ins < 2 ^ 128 := by rwa [hins, insertsProd_append, insertsProd_map_one]
  have hsum : (ins.map Prod.snd).sum < 128 :=
    (Nat.pow_lt_pow_iff_right (by norm_num)).mp ((two_pow_sum_le fun vm h => (hall vm h).1).trans_lt hsize)
  have hlarge : largeCount ins < 2 := by
    refine (Nat.pow_lt_pow_iff_right (by norm_num : 1 < 2 ^ 64)).mp ?_
    exact (two_pow_largeCount_le fun vm h => (hall vm h).1).trans_lt (hsize.trans_eq (by norm_num))
  have hkeys : (ins.map Prod.fst).toFinset.card ≤ 26 := by
    refine card_le_of_prod_lt (fun v hv => ?_) ((prod_keys_le fun vm h => (hall vm h).1).trans_lt hsize)
    obtain ⟨vm, hvm, rfl⟩ := List.mem_map.mp (List.mem_toFinset.mp hv)
    exact (hall vm hvm).2
  have hle : ∀ vm ∈ ins, vm.2 ≤ 255 := fun vm hvm => by
    have := List.single_le_sum (by simp) _ (List.mem_map_of_mem (f := Prod.snd) hvm)
    omega
  have hword : ∀ vm : Nat × Nat, (wordKey vm).1 < 2 ^ 64 := fun vm => Nat.mod_lt _ (by norm_num)
  refine ⟨fun vm hvm => ?_, ?_, ?_, ?_⟩
  · obtain hvm | hvm := List.mem_append.mp hvm
    · obtain ⟨wm, hwm, rfl⟩ := List.mem_map.mp hvm
      exact ⟨(hword wm).trans (by norm_num), (htrial wm hwm).2.1, hle wm (hins ▸ List.mem_append_left _ hwm),
        fun h => absurd (hword wm) (not_lt.mpr h)⟩
    · obtain ⟨v, hv, rfl⟩ := List.mem_map.mp hvm
      refine insertable_one (lt_of_le_of_lt ?_ hsize)
      have hmem : (v, 1) ∈ ins := hins ▸ List.mem_append_right _ hvm
      simpa using Nat.le_of_dvd (insertsProd_pos fun vm h => (hall vm h).1) (pow_dvd_insertsProd hmem)
  · have hsame : (trial.map wordKey).map Prod.snd = trial.map Prod.snd := by
      rw [List.map_map]
      rfl
    rw [List.map_append, hsame, ← List.map_append, ← hins]
    omega
  · rw [hins, largeCount, List.countP_append] at hlarge
    have hzero : (trial.map wordKey).countP (fun vm => decide (2 ^ 64 ≤ vm.1)) = 0 := by
      rw [List.countP_eq_zero]
      intro vm hvm
      obtain ⟨wm, -, rfl⟩ := List.mem_map.mp hvm
      simpa using hword wm
    rw [largeCount, List.countP_append, hzero]
    omega
  · have hdisj : Disjoint (trial.map Prod.fst).toFinset vs.toFinset := by
      rw [Finset.disjoint_left]
      intro v hv hv'
      obtain ⟨vm, hvm, rfl⟩ := List.mem_map.mp (List.mem_toFinset.mp hv)
      exact (htrial vm hvm).2.2 (List.mem_toFinset.mp hv')
    have hvals : ∀ l : List Nat, (l.map fun v => (v, 1)).map Prod.fst = l := fun l => by
      rw [List.map_map]
      exact List.map_id l
    have himage : ((trial.map wordKey).map Prod.fst).toFinset =
        (trial.map Prod.fst).toFinset.image (· % 2 ^ 64) := by
      ext v
      simp [wordKey]
    rw [hins, List.map_append, hvals, List.toFinset_append, Finset.card_union_of_disjoint hdisj] at hkeys
    rw [List.map_append, hvals, List.toFinset_append, himage]
    exact (Finset.card_union_le _ _).trans ((Nat.add_le_add_right Finset.card_image_le _).trans hkeys)

end Sys2Proof.Machine
end

section
/-!
PROOFS. TDIV (spec/42_trial_division.md R133) in the words of the statements.
-/
namespace Sys2Proof.Machine

theorem legal_word {ps : Params} (h : ps.legal = true) : firstOmitted ps.tdCount ≤ 2 ^ 64 :=
  (legal_bounds h).2.le.trans (by norm_num)

theorem fullValue_lt (r : Reg) (s : State) : fullValue r s < 2 ^ 128 := (s.x[r.val]).isLt

theorem exec_tdiv (rd ra : Reg) (s : State) : exec (.tdiv rd ra) s =
    if fullValue ra s = 0 then .next (raiseFault .range s)
    else match tdiv s.params.tdCount (fullValue ra s) s.facc with
      | .done r acc => finish (writeDword rd r (setFacc acc s))
      | .fault code acc => trap code (setFacc acc s)
      | .hang => .next s := by
  rw [exec, execTdiv, dwordOperand_eq_fullValue]
  exact guarded_cons [] s _ Iff.rfl .range

/-- The ends of TDIV on a nonzero operand with a legal table. -/
theorem exec_tdiv_ends {s : State} (hlegal : s.params.legal = true) (rd ra : Reg) (ht : fullValue ra s ≠ 0) :
    ∃ e ≤ s.params.tdCount, TrialTries s.params.tdCount (fullValue ra s) e ∧
      ∀ acc failed, recordAll (trialInserts s.params.tdCount e (fullValue ra s)) s.facc = (acc, failed) →
        exec (.tdiv rd ra) s = .next (match failed with
          | none => resultState rd (trialResidue s.params.tdCount e (fullValue ra s)) { s with facc := acc }
          | some code => raiseFault code { s with facc := acc }) := by
  obtain ⟨e, he, htries, hplay⟩ := tdiv_plays s.params.tdCount ht (fullValue_lt ra s)
  refine ⟨e, he, htries, fun acc failed hrec => ?_⟩
  rw [trialScript_eq (legal_word hlegal) ht he] at hplay
  rw [exec_tdiv, if_neg ht, hplay s.facc]
  cases failed with
  | none =>
    rw [play_of_recordAll_none hrec]
    rfl
  | some code =>
    rw [play_of_recordAll_some hrec]
    rfl

section Legal
variable {ps : Params} (hlegal : ps.legal = true) {t e : Nat} (ht : t ≠ 0) (hlt : t < 2 ^ 128) (he : e ≤ ps.tdCount)
include hlegal ht hlt he

theorem insertable_trialInserts {vm : Nat × Nat} (h : vm ∈ trialInserts ps.tdCount e t) :
    Insertable vm ∧ vm.1 < 2 ^ 64 :=
  insertable_trialScript ht hlt he ((trialScript_eq (legal_word hlegal) ht he).symm ▸ h)

/-- From the empty accumulator no insert of trial division fails. -/
theorem fits_trialInserts : Fits (trialInserts ps.tdCount e t) := by
  have hfit := fits_factorization (trial := trialInserts ps.tdCount e t) (vs := [])
    (fun vm hvm => by
      obtain ⟨hm, hp, -⟩ := mem_trialInserts ht he hvm
      exact ⟨hp, hm, by simp⟩)
    (by simp) (by
      rw [List.prod_nil, mul_one]
      exact (Nat.le_of_dvd (Nat.pos_of_ne_zero ht) (Dvd.intro_left _ (stripped ht he).eq)).trans_lt hlt)
  rw [List.map_nil, List.append_nil] at hfit
  exact trialScript_eq (legal_word hlegal) ht he ▸ hfit

end Legal

/-- 29 is below the square of the prime after the first group, 29 itself, and no prime of the group divides it. -/
theorem trialTries_twentyNine {td e : Nat} (htd : 24 ≤ td) (h : TrialTries td 29 e) :
    trialInserts td e 29 = [] ∧ trialResidue td e 29 = 29 := by
  have hgroup : (tablePrimes td).take 8 = [3, 5, 7, 11, 13, 17, 19, 23] := by
    rw [take_tablePrimes (by omega)]
    decide +kernel
  have hval : ∀ p ∈ (tablePrimes td).take 8, padicValNat p 29 = 0 := by
    intro p hp
    refine padicValNat.eq_zero_of_not_dvd ?_
    rw [hgroup] at hp
    revert p
    decide
  have hins : ∀ e ≤ 8, trialInserts td e 29 = [] := by
    intro e he
    rw [trialInserts, if_neg (by decide), List.nil_append, List.flatMap_eq_nil_iff]
    intro p hp
    rw [hval p (List.take_subset_take_left _ he hp)]
    rfl
  have hres : ∀ e ≤ 8, trialResidue td e 29 = 29 := fun e he => by
    rw [trialResidue_eq, hins e he]
    rfl
  have hnext : nextPrime td 8 = 29 := by
    rw [nextPrime_eq (by omega), ← firstOmitted_eq]
    decide +kernel
  obtain ⟨i, hi, htwo, -, hcase⟩ := h
  obtain rfl : i = 0 := by
    by_contra hne
    have := htwo 0 (by omega)
    rw [hres 0 (by omega)] at this
    omega
  obtain ⟨rfl, -⟩ | ⟨-, k, hk, he, -, hgo⟩ := hcase
  · omega
  · have hk1 : k = 1 := by
      by_contra hne
      have := (hgo 1 le_rfl (by omega)).2
      rw [zero_add, mul_one, hres 8 le_rfl, hnext] at this
      omega
    exact ⟨hins e (by omega), hres e (by omega)⟩

end Sys2Proof.Machine
end

section
/-!
PROOFS. The statements of spec/42_trial_division.md on TDIV (R131, R133, R134).
-/
open Sys2Proof Sys2Proof.Machine

/-- Settles O34: from the empty accumulator the inserts fit, and they add up to the multiplicities in the operand. -/
theorem tdivStripsTablePrimes : Obligations.TdivStripsTablePrimes := by
  intro rd ra s hlegal hempty
  refine ⟨encodedAs_of_encodeWord rfl rfl, fun h29 => ?_, ?_⟩
  · obtain ⟨e, -, htries, hends⟩ := exec_tdiv_ends hlegal rd ra (by omega)
    rw [h29] at htries hends
    obtain ⟨hins, hres⟩ := trialTries_twentyNine (legal_bounds hlegal).1 htries
    rw [hins] at hends
    exact hres ▸ hends s.facc none rfl
  · split_ifs with ht
    · rw [exec_tdiv, if_pos ht]
    · have hlt := fullValue_lt ra s
      obtain ⟨e, he, htries, hends⟩ := exec_tdiv_ends hlegal rd ra ht
      obtain ⟨acc, hrec, hwf, hall⟩ := recordAll_of_fits (fits_trialInserts hlegal ht hlt he)
      have hone := fun vm h => (insertable_trialInserts hlegal ht hlt he (vm := vm) h).2
      have hstrip := stripped ht he
      refine ⟨_, acc, e, hends acc none (hempty.symm ▸ hrec), (trialResidue_le ht he).trans_lt hlt, htries, rfl,
        fun q => ?_, fun p hp hp' => not_dvd_trialResidue ht he hp hp', ?_, hstrip.odd, hwf, hall.plarge hone,
        fun en hen => ?_, fun hr => ?_, fun hr p hp => ?_⟩
      · rw [hall.multOf, multOf_empty, zero_add, insertsMult_trialInserts he]
      · rw [hall.value, value_empty, one_mul, hstrip.eq]
      · obtain h | ⟨m, hmem⟩ := (hall.holds en.p.toNat).mp (.inl ⟨en, hen, rfl⟩)
        · exact absurd h (not_holds_empty _)
        · exact (mem_trialInserts ht he hmem).2.2.1.imp_right List.mem_of_mem_take
      · obtain h | h | h := not_dvd_or_early ht htries
        · by_cases h1 : trialResidue s.params.tdCount e (fullValue ra s) = 1
          · exact .inl h1
          · have hne := hstrip.ne_zero ht
            by_cases hfop : fopSquared s ≤ trialResidue s.params.tdCount e (fullValue ra s)
            · refine .inr (.inr ⟨hfop, fun p hp => ?_⟩)
              obtain ⟨hprime, -, hplt⟩ := mem_tablePrimes_iff.mp hp
              exact h p hprime hplt
            · exact .inr (.inl (clean_of_no_small_factor h _ dvd_rfl (by omega) (not_le.mp hfop)))
        · exact .inl h
        · exact .inr (.inl h)
      · obtain rfl := htries.eq_of_large ht hr
        exact hstrip.not_dvd p (by rwa [List.take_of_length_le (length_tablePrimes _).le])

/-- Settles O35. -/
theorem tdivAddsToAccumulator : Obligations.TdivAddsToAccumulator := by
  refine ⟨fun rd ra s hlegal ht => ?_, fun rd ra s r acc hlegal hwf hdone hr hexec => ?_⟩
  · obtain ⟨e, he, htries, hends⟩ := exec_tdiv_ends hlegal rd ra ht
    refine ⟨e, htries, fun acc failed hrec => ⟨?_, ?_⟩⟩
    · rintro rfl
      exact hends acc none hrec
    · rintro code rfl
      refine ⟨?_, hends acc (some code) hrec⟩
      obtain h | h | ⟨-, vm, hvm, hlarge⟩ := recordAll_error hrec
      · exact .inl h
      · exact .inr h
      · have := (insertable_trialInserts hlegal ht (fullValue_lt ra s) he hvm).2
        omega
  · by_cases ht : fullValue ra s = 0
    · rw [exec_tdiv, if_pos ht] at hexec
      have hstatus := congrArg State.status (Host.Outcome.next.inj hexec)
      simp [resultState, doneState, hdone] at hstatus
    · have hlt := fullValue_lt ra s
      obtain ⟨e, he, -, hends⟩ := exec_tdiv_ends hlegal rd ra ht
      cases hrec : recordAll (trialInserts s.params.tdCount e (fullValue ra s)) s.facc with
      | mk acc' failed =>
        have hstate := Host.Outcome.next.inj ((hends acc' failed hrec).symm.trans hexec)
        obtain ⟨hwf', hall⟩ := addsAll_recordAll
          (fun vm h => (insertable_trialInserts hlegal ht hlt he h).1) hwf hrec
        cases failed with
        | some code =>
          have hstatus := congrArg State.status hstate
          simp [resultState, doneState, hdone] at hstatus
        | none =>
          have hall' := hall rfl
          have hx := congrArg (fun u : State => (u.x[rd.val]).toNat) hstate
          have hres := (trialResidue_le ht he).trans_lt hlt
          simp only [resultState, doneState, Vector.getElem_set_self, BitVec.toNat_ofNat, Nat.mod_eq_of_lt hr,
            Nat.mod_eq_of_lt hres] at hx
          obtain rfl : acc' = acc := congrArg State.facc hstate
          refine ⟨?_, hall'.plarge fun vm h => (insertable_trialInserts hlegal ht hlt he h).2, hwf'⟩
          rw [hall'.value, ← hx, ← mul_assoc, mul_right_comm, (stripped ht he).eq]
end

section
/-!
PROOFS. The oracle (spec/43_primality.md R144 to R147): what its Miller-Rabin tests and its Lucas checks decide, and how it
ends, given what the nested factorization of `n - 1` answers.
-/
namespace Sys2Proof.Machine

/-! ### Strong probable primes and Lucas bases, against primality -/

section Residues
variable {n c : Nat}

theorem pow_mod_eq_one_iff (h1 : 1 < n) (k : Nat) : c ^ k % n = 1 ↔ (c : ZMod n) ^ k = 1 := by
  rw [← Nat.cast_pow, ← Nat.cast_one (R := ZMod n), ZMod.natCast_eq_natCast_iff, Nat.ModEq, Nat.mod_eq_of_lt h1]

theorem pow_mod_eq_pred_iff (h1 : 1 < n) (k : Nat) : c ^ k % n = n - 1 ↔ (c : ZMod n) ^ k = -1 := by
  have hcast : ((n - 1 : Nat) : ZMod n) = -1 := by
    rw [Nat.cast_sub h1.le, ZMod.natCast_self, Nat.cast_one, zero_sub]
  rw [← hcast, ← Nat.cast_pow, ZMod.natCast_eq_natCast_iff, Nat.ModEq, Nat.mod_eq_of_lt (by omega : n - 1 < n)]

/-- A strong probable prime satisfies Fermat's congruence: squaring takes 1 and -1 to 1. -/
theorem StrongProbablePrime.fermat (h1 : 1 < n) (h : StrongProbablePrime n c) : (c : ZMod n) ^ (n - 1) = 1 := by
  obtain ⟨q, k, hn, -, hone | ⟨i, hi, hneg⟩⟩ := h
  · rw [hn, pow_mul, (pow_mod_eq_one_iff h1 q).mp hone, one_pow]
  · obtain ⟨j, rfl⟩ : ∃ j, k = i + (1 + j) := ⟨k - i - 1, by omega⟩
    rw [hn, pow_add, pow_add, pow_one, ← mul_assoc, ← mul_assoc, pow_mul, pow_mul,
      (pow_mod_eq_pred_iff h1 _).mp hneg, neg_one_sq, one_pow]

theorem prime_of_lucasBase (h1 : 1 < n) (hspp : StrongProbablePrime n c) (h : LucasBase n c) : n.Prime :=
  lucas_primality n (c : ZMod n) (hspp.fermat h1) fun q hq hdvd heq =>
    h q hq hdvd ((pow_mod_eq_one_iff h1 _).mpr heq)

/-- In a field the squares of `y` reach 1 only through -1, or `y` is 1. -/
theorem eq_one_or_neg_one_of_pow_two_pow {F : Type} [Field F] (k : Nat) {y : F} (h : y ^ 2 ^ k = 1) :
    y = 1 ∨ ∃ i < k, y ^ 2 ^ i = -1 := by
  induction k with
  | zero => exact .inl (by simpa using h)
  | succ k ih =>
    rw [pow_succ, pow_mul, sq, mul_self_eq_one_iff] at h
    obtain h | h := h
    · obtain h1 | ⟨i, hi, hneg⟩ := ih h
      · exact .inl h1
      · exact .inr ⟨i, hi.trans k.lt_succ_self, hneg⟩
    · exact .inr ⟨k, k.lt_succ_self, h⟩

/-- An odd prime passes the test for every base that it does not divide. -/
theorem strongProbablePrime_of_prime (hp : n.Prime) (hodd : n % 2 = 1) (hc : ¬n ∣ c) : StrongProbablePrime n c := by
  have : Fact n.Prime := ⟨hp⟩
  have h1 := hp.one_lt
  have hunit : (c : ZMod n) ≠ 0 := by rwa [Ne, ZMod.natCast_eq_zero_iff]
  have hfermat := ZMod.pow_card_sub_one_eq_one hunit
  rw [mrOdd_mul_two_pow (by omega : 2 ≤ n), pow_mul] at hfermat
  rw [strongProbablePrime_iff (by omega)]
  obtain h | ⟨i, hi, h⟩ := eq_one_or_neg_one_of_pow_two_pow _ hfermat
  · exact .inl ((pow_mod_eq_one_iff h1 _).mpr h)
  · exact .inr ⟨i, hi, (pow_mod_eq_pred_iff h1 _).mpr (by rwa [pow_mul])⟩

end Residues

/-! ### The Lucas checks against a factorization (R147) -/

/-- `c` passes the Lucas check of every value that `L` holds. -/
def LucasPasses (n c : Nat) (L : Facc) : Prop := ∀ v, L.Holds v → c ^ ((n - 1) / v) % n ≠ 1

/-- `L` holds exactly the primes that divide `m`. -/
def HoldsPrimeFactors (L : Facc) (m : Nat) : Prop := ∀ v, L.Holds v ↔ v.Prime ∧ v ∣ m

theorem lucasPasses_iff_lucasBase {n c : Nat} {L : Facc} (hL : HoldsPrimeFactors L (n - 1)) :
    LucasPasses n c L ↔ LucasBase n c := by
  simp only [LucasPasses, LucasBase, hL _, and_imp]

section Lucas
variable (w : Width) {n : Nat} (hodd : n % 2 = 1) (h3 : 3 ≤ n) (hn : n < w.radix)
include hodd h3 hn

theorem lucasCheck_iff (c v : Nat) :
    lucasCheck w n (inverseOf n) (mont w n 1) (mont w n c) v = true ↔ c ^ ((n - 1) / v) % n ≠ 1 := by
  rw [lucasCheck, powredc_mont w hodd hn (inverseOf_inverts hodd), bne_iff_ne, Ne, mont_eq_mont_one_iff w hodd h3]

theorem lucasOk_iff (c : Nat) (L : Facc) :
    lucasOk w n (inverseOf n) (mont w n 1) (mont w n c) L = true ↔ LucasPasses n c L := by
  rw [lucasOk, Bool.and_eq_true, Bool.or_eq_true, beq_iff_eq, List.all_eq_true, lucasCheck_iff w hodd h3 hn]
  simp only [lucasCheck_iff w hodd h3 hn, LucasPasses, Facc.Holds]
  constructor
  · rintro ⟨hlarge, hpairs⟩ v (⟨en, hen, rfl⟩ | ⟨hset, rfl⟩)
    · exact hpairs en hen
    · exact hlarge.resolve_left hset
  · intro h
    exact ⟨or_iff_not_imp_left.mpr fun hset => h _ (.inr ⟨hset, rfl⟩), fun en hen => h _ (.inl ⟨en, hen, rfl⟩)⟩

end Lucas

/-! ### The rounds (R145 step 5) -/

section Rounds
variable (w : Width) {n : Nat} (hodd : n % 2 = 1) (h3 : 3 ≤ n) (hn : n < w.radix)
include hodd h3 hn

omit hodd h3 hn in
/-- The Montgomery form of the next base. -/
theorem mul_mont_one_mod (a : Nat) : a * mont w n 1 % n = mont w n a := by
  rw [mont, mont, one_mul, Nat.mul_mod_mod]

/-- The rounds of probabilistic mode test the bases in order. -/
theorem oracleRounds_tests (bases : List Nat) (am : Nat) : ∃ b : Bool, (b = true ↔ ∀ c ∈ bases, StrongProbablePrime n c) ∧
    ∀ acc, oracleRounds w n (inverseOf n) (mont w n 1) none bases am acc = .done b acc := by
  induction bases generalizing am with
  | nil => exact ⟨true, by simp, fun acc => by simp [oracleRounds]⟩
  | cons c rest ih =>
    obtain ⟨b, hb, hrest⟩ := ih (mont w n c)
    have hmr := millerRabin_iff w hodd h3 hn c
    cases htest : millerRabin w n (inverseOf n) (mont w n 1) (mont w n c) (mrOdd n) (mrTwos n) with
    | true =>
      refine ⟨b, by simp [hb, hmr.mp htest], fun acc => ?_⟩
      rw [oracleRounds]
      simp [mul_mont_one_mod w, htest, hrest]
    | false =>
      have hnot : ¬StrongProbablePrime n c := fun h => by simp [hmr.mpr h] at htest
      refine ⟨false, by simp [hnot], fun acc => ?_⟩
      rw [oracleRounds]
      simp [mul_mont_one_mod w, htest]

/-- How the rounds of proof mode end: with a base that passes every Lucas check, with a base that fails its
Miller-Rabin test, or with neither. -/
inductive ProofEnds (n : Nat) (L : Facc) (bases : List Nat) : Ending Bool → Prop where
  | proved (c : Nat) (hmem : c ∈ bases) (hspp : StrongProbablePrime n c) (hpass : LucasPasses n c L) : ProofEnds n L bases (.returns true)
  | refuted (c : Nat) (hmem : c ∈ bases) (hnot : ¬StrongProbablePrime n c) : ProofEnds n L bases (.returns false)
  | unproved (h : ∀ c ∈ bases, StrongProbablePrime n c ∧ ¬LucasPasses n c L) :
      ProofEnds n L bases (.faults .lucasFail)

theorem oracleRounds_proves (L : Facc) (bases : List Nat) {b : Nat} (hb : StrongProbablePrime n b) :
    ∃ e, ProofEnds n L (b :: bases) e ∧
      ∀ acc, oracleRounds w n (inverseOf n) (mont w n 1) (some L) bases (mont w n b) acc = e.run acc := by
  have hlucas := lucasOk_iff w hodd h3 hn b L
  induction bases generalizing b with
  | nil =>
    cases hok : lucasOk w n (inverseOf n) (mont w n 1) (mont w n b) L with
    | true => exact ⟨_, .proved b (by simp) hb (hlucas.mp hok), fun acc => by simp [oracleRounds, hok, Ending.run]⟩
    | false =>
      have hnot : ¬LucasPasses n b L := fun h => by simp [hlucas.mpr h] at hok
      exact ⟨_, .unproved (by simp [hb, hnot]), fun acc => by simp [oracleRounds, hok, Ending.run]⟩
  | cons c rest ih =>
    cases hok : lucasOk w n (inverseOf n) (mont w n 1) (mont w n b) L with
    | true =>
      refine ⟨_, .proved b (by simp) hb (hlucas.mp hok), fun acc => ?_⟩
      rw [oracleRounds]
      simp [hok, Ending.run]
    | false =>
      have hnot : ¬LucasPasses n b L := fun h => by simp [hlucas.mpr h] at hok
      have hmr := millerRabin_iff w hodd h3 hn c
      cases htest : millerRabin w n (inverseOf n) (mont w n 1) (mont w n c) (mrOdd n) (mrTwos n) with
      | true =>
        obtain ⟨e, he, hrest⟩ := ih (hmr.mp htest) (lucasOk_iff w hodd h3 hn c L)
        refine ⟨e, ?_, fun acc => ?_⟩
        · cases he with
          | proved c' hmem hspp hpass => exact .proved c' (.tail _ hmem) hspp hpass
          | refuted c' hmem hno => exact .refuted c' (.tail _ hmem) hno
          | unproved h => exact .unproved (List.forall_mem_cons.mpr ⟨⟨hb, hnot⟩, h⟩)
        · rw [oracleRounds]
          simp [hok, mul_mont_one_mod w, htest, hrest]
      | false =>
        have hno : ¬StrongProbablePrime n c := fun h => by simp [hmr.mpr h] at htest
        refine ⟨_, .refuted c (by simp) hno, fun acc => ?_⟩
        rw [oracleRounds]
        simp [hok, mul_mont_one_mod w, htest, Ending.run]

end Rounds

/-! ### The oracle on an odd number in its domain -/

theorem lt_radix_widthOf {n : Nat} (hn : n < 2 ^ 127) : n < (widthOf n).radix := by
  rw [widthOf]
  split_ifs with h
  · exact h
  · exact hn.trans (by norm_num [Width.radix, Config.base])

/-- The bases of proof mode (R146). -/
def basesOf (td : Nat) : List Nat := 2 :: tablePrimes td

/-- `n` passes every test of proof mode and no base proves it. -/
def UnprovedBy (td n : Nat) : Prop := ∀ b ∈ basesOf td, StrongProbablePrime n b ∧ ¬LucasBase n b

section Tests
variable {n : Nat} (hodd : n % 2 = 1) (h3 : 3 ≤ n) (hn : n < 2 ^ 127)
include hodd h3 hn

/-- The context of R145: the inverse, the forms of 1 and 2, and the test of base 2, which decides whether the rounds
begin. -/
theorem oracleTests_eq (td : Nat) (proving : Bool) (factorLocal : Nat → Run Bool) (acc : Facc) :
    oracleTests td proving factorLocal n acc =
      if millerRabin (widthOf n) n (inverseOf n) (mont (widthOf n) n 1) (mont (widthOf n) n 2) (mrOdd n) (mrTwos n) then
        if proving then
          match factorLocal (n - 1) with
          | .done _ L => oracleRounds (widthOf n) n (inverseOf n) (mont (widthOf n) n 1) (some L)
              (laterBases td true) (mont (widthOf n) n 2) acc
          | .fault code _ => .fault code acc
          | .hang => .hang
        else oracleRounds (widthOf n) n (inverseOf n) (mont (widthOf n) n 1) none
          (laterBases td false) (mont (widthOf n) n 2) acc
      else .done false acc := by
  have htwo : addmod (mont (widthOf n) n 1) (mont (widthOf n) n 1) n = mont (widthOf n) n 2 := by
    rw [addmod, mont, mont, ← Nat.add_mod, ← two_mul, one_mul]
  rw [oracleTests]
  simp only [tomont_eq_mont (widthOf n) (by omega : 1 < n), htwo] <;> rfl

/-- Probabilistic mode (R145, R146): the verdict says whether `n` passes all its tests. -/
theorem oracleTests_probabilistic (td : Nat) (factorLocal : Nat → Run Bool) : ∃ b : Bool,
    (b = true ↔ ∀ c ∈ (basesOf td).take Config.mrReps, StrongProbablePrime n c) ∧
      ∀ acc, oracleTests td false factorLocal n acc = .done b acc := by
  have htwo := millerRabin_iff (widthOf n) hodd h3 (lt_radix_widthOf hn) 2
  have hsplit : (basesOf td).take Config.mrReps = 2 :: laterBases td false := rfl
  obtain ⟨b, hb, hrest⟩ := oracleRounds_tests (widthOf n) hodd h3 (lt_radix_widthOf hn) (laterBases td false)
    (mont (widthOf n) n 2)
  by_cases hspp : StrongProbablePrime n 2
  · refine ⟨b, by rw [hb, hsplit, List.forall_mem_cons, and_iff_right hspp], fun acc => ?_⟩
    rw [oracleTests_eq hodd h3 hn, if_pos (htwo.mpr hspp)]
    exact hrest acc
  · refine ⟨false, by simp [hsplit, hspp], fun acc => ?_⟩
    rw [oracleTests_eq hodd h3 hn, if_neg (mt htwo.mp hspp)]

/-- Proof mode (R145, R147): a failed test of base 2, or what the nested factorization of `n - 1` leads to. -/
theorem oracleTests_proof (td : Nat) (factorLocal : Nat → Run Bool) :
    (StrongProbablePrime n 2 ∧ ∀ acc, oracleTests td true factorLocal n acc = match factorLocal (n - 1) with
      | .done _ L => oracleRounds (widthOf n) n (inverseOf n) (mont (widthOf n) n 1) (some L) (tablePrimes td)
          (mont (widthOf n) n 2) acc
      | .fault code _ => .fault code acc
      | .hang => .hang) ∨
    (¬StrongProbablePrime n 2 ∧ ∀ acc, oracleTests td true factorLocal n acc = .done false acc) := by
  have htwo := millerRabin_iff (widthOf n) hodd h3 (lt_radix_widthOf hn) 2
  by_cases hspp : StrongProbablePrime n 2
  · refine .inl ⟨hspp, fun acc => ?_⟩
    rw [oracleTests_eq hodd h3 hn, if_pos (htwo.mpr hspp), if_pos rfl]
    rfl
  · refine .inr ⟨hspp, fun acc => ?_⟩
    rw [oracleTests_eq hodd h3 hn, if_neg (mt htwo.mp hspp)]

end Tests

/-! ### How the oracle ends -/

/-- The operands on which the oracle runs its tests (R144). -/
structure Asked (td n : Nat) : Prop where
  odd : n % 2 = 1
  three : 3 ≤ n
  lt : n < 2 ^ 127
  large : ¬(n < Config.base ∧ n < firstOmitted td * firstOmitted td)

/-- Why a proof does not come about: the nested factorization ran out of parameters, or no base proves an odd number up
to `n` (R147; the number is exact for a table of one-word primes). -/
def ProofFault (td n : Nat) (code : FaultCode) : Prop :=
  code = .range ∨ (code = .lucasFail ∧ (firstOmitted td ≤ 2 ^ 64 → ∃ m ≤ n, Asked td m ∧ UnprovedBy td m))

theorem ProofFault.mono {td n m : Nat} {code : FaultCode} (h : ProofFault td m code) (hle : m ≤ n) :
    ProofFault td n code :=
  h.imp_right (.imp_right fun h hword =>
    let ⟨k, hk, hun⟩ := h hword
    ⟨k, hk.trans hle, hun⟩)

/-- What an answer of the oracle on `n` means, whatever the table. -/
structure OracleEnds (td : Nat) (proving : Bool) (n : Nat) (e : Ending Bool) : Prop where
  accepts : e = .returns true → 2 ≤ n ∧
    (proving = true → Clean td n ∨ firstOmitted td * firstOmitted td ≤ n → n.Prime)
  rejects : e = .returns false → firstOmitted td ≤ 2 ^ 64 → ¬n.Prime
  faults : ∀ code, e = .faults code → (code = .even ∧ n % 2 = 0) ∨ (code = .topBit ∧ 2 ^ 127 ≤ n) ∨
    (proving = true ∧ ProofFault td n code)

/-- What is needed of the factorization of `m` in a Lucas step (R147). -/
inductive LocalEnds (td m : Nat) : Run Bool → Prop where
  | factored {v : Bool} {L : Facc} (h : firstOmitted td ≤ 2 ^ 64 → HoldsPrimeFactors L m) : LocalEnds td m (.done v L)
  | faults {code : FaultCode} {L : Facc} (h : ProofFault td m code) : LocalEnds td m (.fault code L)
  | never : LocalEnds td m .hang

section Asked
variable {td n : Nat}

theorem oracle_asked (h : Asked td n) (proving : Bool) (factorLocal : Nat → Run Bool) (acc : Facc) :
    oracle td proving factorLocal n acc = oracleTests td proving factorLocal n acc := by
  obtain ⟨hodd, h3, hlt, hlarge⟩ := h
  rw [oracle, if_neg (by omega), if_neg hlarge, if_neg (by omega), if_neg (by simp only [Config.topBit]; omega)]

theorem Asked.not_dvd (h : Asked td n) (hword : firstOmitted td ≤ 2 ^ 64) {c : Nat} (hc : c ∈ basesOf td) : ¬n ∣ c := by
  have hfop := (firstOmitted_prime td).two_le
  have hlt : 0 < c ∧ (c = 2 ∨ c < firstOmitted td) := by
    obtain rfl | hmem := List.mem_cons.mp hc
    · exact ⟨by norm_num, .inl rfl⟩
    · obtain ⟨hp, -, hlt⟩ := mem_tablePrimes_iff.mp hmem
      exact ⟨hp.pos, .inr hlt⟩
  have hn : firstOmitted td ≤ n := by
    have hlarge := h.large
    have := Nat.le_mul_of_pos_left (firstOmitted td) (by omega : 0 < firstOmitted td)
    simp only [Config.base] at hlarge
    omega
  have h3 := h.three
  exact fun hdvd => absurd (Nat.le_of_dvd hlt.1 hdvd) (by omega)

/-- A failed test shows that `n` is not prime. -/
theorem Asked.not_prime (h : Asked td n) (hword : firstOmitted td ≤ 2 ^ 64) {c : Nat} (hc : c ∈ basesOf td)
    (hnot : ¬StrongProbablePrime n c) : ¬n.Prime :=
  fun hp => hnot (strongProbablePrime_of_prime hp h.odd (h.not_dvd hword hc))

/-- With a table beyond one word every number in the domain is below `FOP^2`. -/
theorem Asked.prime_of_table (h : Asked td n) (hword : ¬firstOmitted td ≤ 2 ^ 64)
    (hclean : Clean td n ∨ firstOmitted td * firstOmitted td ≤ n) : n.Prime := by
  have hsq : 2 ^ 64 * 2 ^ 64 ≤ firstOmitted td * firstOmitted td := Nat.mul_le_mul (by omega) (by omega)
  have hlt := h.lt
  have h3 := h.three
  exact (hclean.resolve_right (by omega)) n dvd_rfl (by omega) (by omega)

theorem Asked.rejected (h : Asked td n) {proving : Bool} (hnot : ¬StrongProbablePrime n 2) :
    OracleEnds td proving n (.returns false) :=
  ⟨by simp, fun _ hword => h.not_prime hword (by simp [basesOf]) hnot, by simp⟩

theorem oracleEnds_probabilistic (h : Asked td n) (factorLocal : Nat → Run Bool) :
    ∃ e, OracleEnds td false n e ∧ e ≠ .never ∧ ∀ acc, oracle td false factorLocal n acc = e.run acc := by
  obtain ⟨b, hb, hruns⟩ := oracleTests_probabilistic h.odd h.three h.lt td factorLocal
  refine ⟨.returns b, ⟨fun _ => ⟨by have := h.three; omega, by simp⟩, fun hfalse hword => ?_, by simp⟩, by simp,
    fun acc => (oracle_asked h false factorLocal acc).trans (hruns acc)⟩
  cases hfalse
  have hfail : ¬∀ c ∈ (basesOf td).take Config.mrReps, StrongProbablePrime n c := by simp [← hb]
  push Not at hfail
  obtain ⟨c, hc, hnot⟩ := hfail
  exact h.not_prime hword (List.mem_of_mem_take hc) hnot

theorem OracleEnds.of_proofEnds (h : Asked td n) {L : Facc} {e : Ending Bool}
    (hL : firstOmitted td ≤ 2 ^ 64 → HoldsPrimeFactors L (n - 1)) (he : ProofEnds n L (basesOf td) e) :
    OracleEnds td true n e := by
  have h3 := h.three
  cases he with
  | proved c _ hspp hpass =>
    refine ⟨fun _ => ⟨by omega, fun _ hclean => ?_⟩, by simp, by simp⟩
    by_cases hword : firstOmitted td ≤ 2 ^ 64
    · exact prime_of_lucasBase (by omega) hspp ((lucasPasses_iff_lucasBase (hL hword)).mp hpass)
    · exact h.prime_of_table hword hclean
  | refuted c hmem hnot => exact ⟨by simp, fun _ hword => h.not_prime hword hmem hnot, by simp⟩
  | unproved hall =>
    refine ⟨by simp, by simp, ?_⟩
    rintro code ⟨⟩
    exact .inr (.inr ⟨rfl, .inr ⟨rfl, fun hword => ⟨n, le_rfl, h, fun b hb =>
      ⟨(hall b hb).1, mt (lucasPasses_iff_lucasBase (hL hword)).mpr (hall b hb).2⟩⟩⟩⟩)

/-- Where the nested factorization completes, the rounds decide. -/
theorem oracle_of_factored (h : Asked td n) {factorLocal : Nat → Run Bool} {v : Bool} {L : Facc}
    (hlocal : factorLocal (n - 1) = .done v L) :
    ∃ e, ProofEnds n L (basesOf td) e ∧ ∀ acc, oracle td true factorLocal n acc = e.run acc := by
  simp only [oracle_asked h]
  obtain ⟨hspp, hruns⟩ | ⟨hnot, hruns⟩ := oracleTests_proof h.odd h.three h.lt td factorLocal
  · obtain ⟨e, he, hrounds⟩ := oracleRounds_proves (widthOf n) h.odd h.three (lt_radix_widthOf h.lt) L
      (tablePrimes td) hspp
    exact ⟨e, he, fun acc => by rw [hruns, hlocal, ← hrounds]⟩
  · exact ⟨_, .refuted 2 (by simp [basesOf]) hnot, hruns⟩

theorem oracleEnds_proof (h : Asked td n) {factorLocal : Nat → Run Bool}
    (hlocal : LocalEnds td (n - 1) (factorLocal (n - 1))) :
    ∃ e, OracleEnds td true n e ∧ ∀ acc, oracle td true factorLocal n acc = e.run acc := by
  generalize hr : factorLocal (n - 1) = r at hlocal
  cases hlocal with
  | factored hL =>
    obtain ⟨e, he, hruns⟩ := oracle_of_factored h hr
    exact ⟨e, .of_proofEnds h hL he, hruns⟩
  | faults hfault =>
    obtain ⟨-, hruns⟩ | ⟨hnot, hruns⟩ := oracleTests_proof h.odd h.three h.lt td factorLocal
    · refine ⟨.faults _, ⟨by simp, by simp, ?_⟩, fun acc => by rw [oracle_asked h, hruns, hr]; rfl⟩
      rintro code ⟨⟩
      exact .inr (.inr ⟨rfl, hfault.mono (Nat.sub_le n 1)⟩)
    · exact ⟨_, h.rejected hnot, fun acc => (oracle_asked h _ _ acc).trans (hruns acc)⟩
  | never =>
    obtain ⟨-, hruns⟩ | ⟨hnot, hruns⟩ := oracleTests_proof h.odd h.three h.lt td factorLocal
    · exact ⟨.never, ⟨by simp, by simp, by simp⟩, fun acc => by rw [oracle_asked h, hruns, hr]; rfl⟩
    · exact ⟨_, h.rejected hnot, fun acc => (oracle_asked h _ _ acc).trans (hruns acc)⟩

end Asked

/-- The oracle does not touch the accumulator, its answer means what `OracleEnds` says, and only a proof may not return. -/
theorem oracle_ends (td : Nat) (proving : Bool) {factorLocal : Nat → Run Bool} (n : Nat)
    (hlocal : proving = true → ∀ m, 2 ≤ m → m < 2 ^ 127 → LocalEnds td m (factorLocal m)) :
    ∃ e, OracleEnds td proving n e ∧ (e = .never → proving = true) ∧ Plays (oracle td proving factorLocal n) [] e := by
  by_cases h1 : n ≤ 1
  · refine ⟨.returns false, ⟨by simp, fun _ _ hp => ?_, by simp⟩, by simp, fun acc => by rw [oracle, if_pos h1]; rfl⟩
    have := hp.two_le
    omega
  by_cases hsmall : n < Config.base ∧ n < firstOmitted td * firstOmitted td
  · refine ⟨.returns true, ⟨fun _ => ⟨by omega, fun _ hclean => ?_⟩, by simp, by simp⟩, by simp,
      fun acc => by rw [oracle, if_neg h1, if_pos hsmall]; rfl⟩
    exact (hclean.resolve_right (by omega)) n dvd_rfl (by omega) hsmall.2
  by_cases heven : n % 2 = 0
  · refine ⟨.faults .even, ⟨by simp, by simp, by rintro code ⟨⟩; exact .inl ⟨rfl, heven⟩⟩, by simp,
      fun acc => by rw [oracle, if_neg h1, if_neg hsmall, if_pos heven]; rfl⟩
  by_cases htop : Config.topBit ≤ n
  · refine ⟨.faults .topBit, ⟨by simp, by simp, by rintro code ⟨⟩; exact .inr (.inl ⟨rfl, htop⟩)⟩, by simp,
      fun acc => by rw [oracle, if_neg h1, if_neg hsmall, if_neg heven, if_pos htop]; rfl⟩
  have hasked : Asked td n := ⟨by omega, by omega, by simp only [Config.topBit] at htop; omega, hsmall⟩
  cases proving with
  | false =>
    obtain ⟨e, he, hne, hruns⟩ := oracleEnds_probabilistic hasked factorLocal
    exact ⟨e, he, fun h => absurd h hne, hruns⟩
  | true =>
    obtain ⟨e, he, hruns⟩ := oracleEnds_proof hasked (hlocal rfl (n - 1) (by have := hasked.three; omega)
      (by have := hasked.lt; omega))
    exact ⟨e, he, fun _ => rfl, hruns⟩

end Sys2Proof.Machine
end

section
/-!
PROOFS. The nested calls of the engine as scripts (spec/44_rho_factor.md R166 to R172): the oracle records nothing, rho
records values whose product divides its operand, and factor records trial division's primes and then rho's values.
-/
namespace Sys2Proof.Machine

/-! ### Rho -/

/-- What rho on `n` records and how it ends, whatever the oracle accepts. -/
structure RhoEnds (td : Nat) (proving : Bool) (n : Nat) (vs : List Nat) (e : Ending Bool) : Prop where
  two_le : ∀ v ∈ vs, 2 ≤ v
  dvd : vs.prod ∣ n
  completes : ∀ b, e = .returns b → vs.prod = n
  primes : proving = true → Clean td n → ∀ v ∈ vs, v.Prime
  faults : ∀ code, e = .faults code →
    code = .range ∨ (code = .topBit ∧ 2 ^ 127 ≤ n) ∨ (proving = true ∧ ProofFault td n code)

/-- From every accumulator, `r` records values of `n` once each and ends. -/
def RhoPlays (td : Nat) (proving : Bool) (n : Nat) (r : Facc → Run Bool) : Prop :=
  ∃ vs e, Plays r (vs.map fun v => (v, 1)) e ∧ RhoEnds td proving n vs e

/-- The oracle on `n` records nothing. -/
def OraclePlays (td : Nat) (proving : Bool) (n : Nat) (r : Facc → Run Bool) : Prop :=
  ∃ e, Plays r [] e ∧ OracleEnds td proving n e

section Rho
variable {td : Nat} {proving : Bool} {n g m : Nat} {r : Facc → Run Bool}

/-- An end without a value. -/
theorem RhoEnds.of_nil {e : Ending Bool} (hret : ∀ b, e ≠ .returns b)
    (hfaults : ∀ code, e = .faults code →
      code = .range ∨ (code = .topBit ∧ 2 ^ 127 ≤ n) ∨ (proving = true ∧ ProofFault td n code)) :
    RhoEnds td proving n [] e :=
  ⟨by simp, by simp, fun b hb => absurd hb (hret b), by simp, hfaults⟩

theorem rhoPlays_hang (h : ∀ acc, r acc = .hang) : RhoPlays td proving n r :=
  ⟨[], .never, h, .of_nil (by simp) (by simp)⟩

theorem rhoPlays_fault {code : FaultCode} (h : ∀ acc, r acc = .fault code acc)
    (hcode : code = .range ∨ (code = .topBit ∧ 2 ^ 127 ≤ n)) : RhoPlays td proving n r := by
  refine ⟨[], .faults code, h, .of_nil (by simp) ?_⟩
  rintro _ ⟨⟩
  exact hcode.imp_right .inl

/-- What rho does on a divisor, as a part of what it does on the whole. -/
theorem RhoEnds.of_dvd {vs : List Nat} {e : Ending Bool} (h : RhoEnds td proving g vs e) (hn : n ≠ 0) (hg : g ∣ n)
    (hret : ∀ b, e ≠ .returns b) : RhoEnds td proving n vs e := by
  have hle := Nat.le_of_dvd (Nat.pos_of_ne_zero hn) hg
  refine ⟨h.two_le, h.dvd.trans hg, fun b hb => absurd hb (hret b), fun hp hc => h.primes hp (hc.of_dvd hg),
    fun code hcode => ?_⟩
  obtain hr | ⟨ht, h127⟩ | ⟨hp, hf⟩ := h.faults code hcode
  · exact .inl hr
  · exact .inr (.inl ⟨ht, h127.trans hle⟩)
  · exact .inr (.inr ⟨hp, hf.mono hle⟩)

/-- A completed part on `g` and then a part on `m`. -/
theorem RhoEnds.append {vs ws : List Nat} {b : Bool} {e : Ending Bool} (hgm : g * m ≠ 0)
    (hg : RhoEnds td proving g vs (.returns b)) (hm : RhoEnds td proving m ws e) :
    RhoEnds td proving (g * m) (vs ++ ws) e := by
  have hle := Nat.le_of_dvd (Nat.pos_of_ne_zero hgm) (Dvd.intro_left g rfl)
  refine ⟨List.forall_mem_append.mpr ⟨hg.two_le, hm.two_le⟩, ?_, fun b' hb' => ?_, fun hp hc => ?_, fun code hcode => ?_⟩
  · rw [List.prod_append]
    exact mul_dvd_mul hg.dvd hm.dvd
  · rw [List.prod_append, hg.completes b rfl, hm.completes b' hb']
  · exact List.forall_mem_append.mpr
      ⟨hg.primes hp (hc.of_dvd (Dvd.intro m rfl)), hm.primes hp (hc.of_dvd (Dvd.intro_left g rfl))⟩
  · obtain hr | ⟨ht, h127⟩ | ⟨hp, hf⟩ := hm.faults code hcode
    · exact .inl hr
    · exact .inr (.inl ⟨ht, h127.trans hle⟩)
    · exact .inr (.inr ⟨hp, hf.mono hle⟩)

theorem RhoPlays.andThen {k : Bool → Facc → Run Bool} (hgm : g * m ≠ 0) (hr : RhoPlays td proving g r)
    (hk : ∀ b, RhoPlays td proving m (k b)) : RhoPlays td proving (g * m) fun acc => (r acc).andThen k := by
  obtain ⟨vs, e, hplays, hends⟩ := hr
  cases e with
  | returns b =>
    obtain ⟨ws, e', hplays', hends'⟩ := hk b
    refine ⟨vs ++ ws, e', ?_, hends.append hgm hends'⟩
    rw [List.map_append]
    exact hplays.andThen hplays'
  | faults code => exact ⟨vs, _, hplays.andThen_faults k, hends.of_dvd hgm (Dvd.intro m rfl) (by simp)⟩
  | never => exact ⟨vs, _, hplays.andThen_never k, hends.of_dvd hgm (Dvd.intro m rfl) (by simp)⟩

/-- Ask the oracle about `n`; record it, or go on. -/
theorem OraclePlays.orElse {k : Facc → Run Bool} (hodd : n % 2 = 1) (hlt : n < 2 ^ 128)
    (hr : OraclePlays td proving n r) (hk : RhoPlays td proving n k) :
    RhoPlays td proving n fun acc => (r acc).andThen fun isPrime acc' =>
      if isPrime then (insertLargeRun n acc').andThen fun _ acc'' => .done true acc'' else k acc' := by
  obtain ⟨e, hplays, hends⟩ := hr
  cases e with
  | returns b =>
    cases b with
    | true =>
      obtain ⟨h2, hprime⟩ := hends.accepts rfl
      refine ⟨[n], .returns true, hplays.andThen (β := Bool) (ins' := [(n, 1)]) ?_, by simpa using h2, by simp, by simp,
        fun hp hc => by simpa using hprime hp (.inl hc), by simp⟩
      exact (insertLargeRun_plays hlt).andThen (ins' := []) fun _ => rfl
    | false =>
      obtain ⟨vs, e, hplays', hends'⟩ := hk
      exact ⟨vs, e, hplays.andThen (ins := []) hplays', hends'⟩
  | faults code =>
    refine ⟨[], _, hplays.andThen_faults _, .of_nil (by simp) ?_⟩
    rintro _ ⟨⟩
    obtain ⟨-, heven⟩ | ht | hp := hends.faults code rfl
    · omega
    · exact .inr (.inl ht)
    · exact .inr (.inr hp)
  | never => exact ⟨[], _, hplays.andThen_never _, .of_nil (by simp) (by simp)⟩

end Rho

/-! ### What a detection splits off (R165, R166) -/

theorem rhoBacktrack_some {w : Width} {n a z f y y' g : Nat} (h : rhoBacktrack w n a z f y = some (y', g)) :
    g ∣ n ∧ g ≠ 1 := by
  induction f generalizing y with
  | zero => cases h
  | succ f ih =>
    rw [rhoBacktrack] at h
    split_ifs at h with hone
    · exact ih h
    · cases h
      exact ⟨Nat.gcd_dvd_right _ _, hone⟩

theorem rhoDetect_some {w : Width} {n a g : Nat} {v v' : RhoVars} (h : rhoDetect w n a v = some (v', g)) :
    g ∣ n ∧ g ≠ 1 := by
  rw [rhoDetect] at h
  cases hs : rhoSearch w n a (searchBound n v) v with
  | none => rw [hs] at h; cases h
  | some u =>
    rw [hs] at h
    cases hb : rhoBacktrack w n a u.z n u.y with
    | none => simp only [hb] at h; cases h
    | some yg =>
      simp only [hb] at h
      cases h
      exact rhoBacktrack_some hb

/-! ### The calls of one level, given those of the level below -/

/-- Factor records trial division's primes and then rho's values, from the empty accumulator. -/
def FactorPlays (td : Nat) (proving : Bool) (n : Nat) (r : Facc → Run Bool) : Prop :=
  ∃ k vs e, TrialTries td n k ∧ RhoEnds td proving (trialResidue td k n) vs e ∧
    ∀ acc, r acc = play (trialScript td n k ++ vs.map fun v => (v, 1)) e Facc.empty

structure CallSpec (td : Nat) (proving : Bool) (call : Call → Facc → Run Bool) : Prop where
  prime : ∀ n < 2 ^ 128, OraclePlays td proving n (call (.prime n)) ∨ ∀ acc, call (.prime n) acc = .hang
  rho : ∀ n < 2 ^ 128, ∀ a, n % 2 = 1 → RhoPlays td proving n (call (.rho n a))
  factor : ∀ n < 2 ^ 128, 2 ≤ n →
    FactorPlays td proving n (call (.factor n)) ∨ ∀ acc, call (.factor n) acc = .hang

section Level
variable {td : Nat} {proving : Bool} {call : Call → Facc → Run Bool} (hcall : CallSpec td proving call)
include hcall

theorem CallSpec.orElse {n : Nat} (hodd : n % 2 = 1) (hlt : n < 2 ^ 128) {k : Facc → Run Bool}
    (hk : RhoPlays td proving n k) : RhoPlays td proving n fun acc => (call (.prime n) acc).andThen fun isPrime acc' =>
      if isPrime then (insertLargeRun n acc').andThen fun _ acc'' => .done true acc'' else k acc' := by
  obtain h | h := hcall.prime n hlt
  · exact h.orElse hodd hlt hk
  · exact rhoPlays_hang fun acc => by rw [h]; rfl

theorem settle_plays {n : Nat} (hodd : n % 2 = 1) (hlt : n < 2 ^ 128) (a : Nat) :
    RhoPlays td proving n (settle call n a) :=
  hcall.orElse hodd hlt (hcall.rho n hlt a hodd)

theorem rhoLoop_plays (w : Width) (f : Nat) {n : Nat} (hodd : n % 2 = 1) (hlt : n < 2 ^ 128) (a : Nat) (v : RhoVars) :
    RhoPlays td proving n (rhoLoop call w f n a v) := by
  induction f generalizing n a v with
  | zero => exact rhoPlays_hang fun acc => rfl
  | succ f ih =>
    by_cases hrange : n ≤ a
    · exact rhoPlays_fault (fun acc => by rw [rhoLoop, if_pos hrange]) (.inl rfl)
    cases hdetect : rhoDetect w n a v with
    | none => exact rhoPlays_hang fun acc => by rw [rhoLoop, if_neg hrange, hdetect]
    | some vg =>
      obtain ⟨v', g⟩ := vg
      by_cases hgn : g = n
      · obtain ⟨vs, e, hplays, hends⟩ := ih hodd hlt (a + 1) (rhoInit w n)
        refine ⟨vs, e, fun acc => ?_, hends⟩
        rw [rhoLoop, if_neg hrange, hdetect, ← hplays]
        exact if_pos hgn
      · obtain ⟨m, rfl⟩ := (rhoDetect_some hdetect).1
        have hne : g * m ≠ 0 := by rintro h; omega
        have hg : g % 2 = 1 := (Nat.odd_mul.mp (Nat.odd_iff.mpr hodd)).1 |> Nat.odd_iff.mp
        have hm : m % 2 = 1 := (Nat.odd_mul.mp (Nat.odd_iff.mpr hodd)).2 |> Nat.odd_iff.mp
        have hgle := Nat.le_of_dvd (Nat.pos_of_ne_zero hne) (Dvd.intro m rfl)
        have hmle := Nat.le_of_dvd (Nat.pos_of_ne_zero hne) (Dvd.intro_left g rfl)
        have hm_lt := hmle.trans_lt hlt
        have hrest : ∀ _ : Bool, RhoPlays td proving m fun acc1 =>
            if w = .two ∧ m < Config.base then settle call m a acc1
            else (call (.prime m) acc1).andThen fun isPrime acc2 =>
              if isPrime then (insertLargeRun m acc2).andThen fun _ acc3 => .done true acc3
              else rhoLoop call w f m a (rhoReduce m v') acc2 := by
          intro _
          split_ifs
          · exact settle_plays hcall hm hm_lt a
          · exact hcall.orElse hm hm_lt (ih hm hm_lt a _)
        obtain ⟨vs, e, hplays, hends⟩ := (settle_plays hcall hg (hgle.trans_lt hlt) (a + 1)).andThen hne hrest
        refine ⟨vs, e, fun acc => ?_, hends⟩
        rw [rhoLoop, if_neg hrange, hdetect, ← hplays]
        simp only [hgn, if_false, Nat.mul_div_cancel_left m (show 0 < g by omega)]

theorem rhoBody_plays {n : Nat} (hodd : n % 2 = 1) (hlt : n < 2 ^ 128) (a : Nat) :
    RhoPlays td proving n (rhoBody call n a) := by
  by_cases htop : Config.topBit ≤ n
  · exact rhoPlays_fault (fun acc => by rw [rhoBody, if_pos htop]) (.inr ⟨rfl, htop⟩)
  · obtain ⟨vs, e, hplays, hends⟩ := rhoLoop_plays hcall (widthOf n) (2 * n + 1) hodd hlt a (rhoInit (widthOf n) n)
    exact ⟨vs, e, fun acc => by rw [rhoBody, if_neg htop, hplays], hends⟩

theorem factorBody_plays {n : Nat} (hlt : n < 2 ^ 128) (h2 : 2 ≤ n) :
    FactorPlays td proving n fun _ => factorBody call td n := by
  obtain ⟨k, hk, htries, htdiv⟩ := tdiv_plays td (by omega : n ≠ 0) hlt
  have hodd := (stripped (by omega : n ≠ 0) hk).odd
  have hle := trialResidue_le (by omega : n ≠ 0) hk
  have hrest : RhoPlays td proving (trialResidue td k n) fun acc =>
      if trialResidue td k n = 1 then .done true acc else settle call (trialResidue td k n) 1 acc := by
    split_ifs with hone
    · exact ⟨[], .returns true, fun _ => rfl, by simp, by simp, by simp [hone], by simp, by simp⟩
    · exact settle_plays hcall hodd (hle.trans_lt hlt) 1
  obtain ⟨vs, e, hplays, hends⟩ := hrest
  refine ⟨k, vs, e, htries, hends, fun _ => ?_⟩
  rw [factorBody, if_neg (by omega)]
  exact htdiv.andThen hplays Facc.empty

end Level

/-! ### The factorization of a Lucas step (R147) -/

section Local
variable {td n k : Nat} {vs : List Nat} {e : Ending Bool} {proving : Bool}

/-- The inserts of a factorization into primes fit, whatever the table. -/
theorem fits_factorPlays (hn : n ≠ 0) (hlt : n < 2 ^ 128) (htries : TrialTries td n k)
    (hends : RhoEnds td proving (trialResidue td k n) vs e) (hvs : ∀ v ∈ vs, v.Prime ∨ 101 ≤ v) :
    Fits (trialScript td n k ++ vs.map fun v => (v, 1)) := by
  have hk := htries.le
  have hres := (stripped hn hk).ne_zero hn
  refine fits_factorization (fun vm hvm => ?_) (fun v hv => ⟨hends.two_le v hv, hvs v hv⟩) ?_
  · obtain ⟨hm, hp, -⟩ := mem_trialInserts hn hk hvm
    refine ⟨hp, hm, fun hmem => not_dvd_of_mem_trialInserts hn hk hvm ?_⟩
    exact (List.dvd_prod hmem).trans hends.dvd
  · refine lt_of_le_of_lt ?_ hlt
    calc insertsProd (trialInserts td k n) * vs.prod
        ≤ insertsProd (trialInserts td k n) * trialResidue td k n :=
          Nat.mul_le_mul_left _ (Nat.le_of_dvd (Nat.pos_of_ne_zero hres) hends.dvd)
      _ = n := by rw [mul_comm, (stripped hn hk).eq]

/-- A completed factorization into primes holds exactly the prime factors. -/
theorem holdsPrimeFactors_of_prod {ins : List (Nat × Nat)} {L : Facc} (hadds : AddsAll ins Facc.empty L)
    (hprod : insertsProd ins = n) (hprime : ∀ vm ∈ ins, vm.1.Prime ∧ 1 ≤ vm.2) : HoldsPrimeFactors L n := by
  intro v
  rw [hadds.holds, or_iff_right (not_holds_empty v)]
  constructor
  · rintro ⟨m, hmem⟩
    obtain ⟨hp, hm⟩ := hprime _ hmem
    exact ⟨hp, hprod ▸ (dvd_pow_self v (by simpa using by omega)).trans (pow_dvd_insertsProd hmem)⟩
  · rintro ⟨hp, hdvd⟩
    rw [← hprod, insertsProd, hp.prime.dvd_prod_iff] at hdvd
    obtain ⟨_, hmem, hpow⟩ := hdvd
    obtain ⟨⟨u, m⟩, hum, rfl⟩ := List.mem_map.mp hmem
    obtain rfl := (Nat.prime_dvd_prime_iff_eq hp (hprime _ hum).1).mp (hp.dvd_of_dvd_pow hpow)
    exact ⟨m, hum⟩

/-- A factorization into primes that returns completes its inserts. -/
theorem factorization_completes {b : Bool} (hn : n ≠ 0) (hlt : n < 2 ^ 128) (htries : TrialTries td n k)
    (hends : RhoEnds td proving (trialResidue td k n) vs (.returns b)) (hprimes : ∀ v ∈ vs, v.Prime) :
    ∃ L, recordAll (trialScript td n k ++ vs.map fun v => (v, 1)) Facc.empty = (L, none) ∧ L.Wf ∧
      (firstOmitted td ≤ 2 ^ 64 → L.value = n ∧ HoldsPrimeFactors L n) := by
  have hk := htries.le
  obtain ⟨L, hrec, hwf, hadds⟩ := recordAll_of_fits
    (fits_factorPlays hn hlt htries hends fun v hv => .inl (hprimes v hv))
  refine ⟨L, hrec, hwf, fun hword => ?_⟩
  rw [trialScript_eq hword hn hk] at hadds
  have hprod : insertsProd (trialInserts td k n ++ vs.map fun v => (v, 1)) = n := by
    rw [insertsProd_append, insertsProd_map_one, hends.completes b rfl, mul_comm, (stripped hn hk).eq]
  refine ⟨by rw [hadds.value, value_empty, one_mul, hprod], holdsPrimeFactors_of_prod hadds hprod ?_⟩
  refine List.forall_mem_append.mpr ⟨fun vm hvm => ?_, List.forall_mem_map.mpr fun v hv => ⟨hprimes v hv, le_rfl⟩⟩
  obtain ⟨hm, hp, -⟩ := mem_trialInserts hn hk hvm
  exact ⟨hp, hm⟩

theorem FactorPlays.localEnds {r : Facc → Run Bool} (hn : n ≠ 0) (hlt : n < 2 ^ 127) (h : FactorPlays td true n r)
    (acc : Facc) : LocalEnds td n (r acc) := by
  obtain ⟨k, vs, e, htries, hends, hruns⟩ := h
  have hwide : n < 2 ^ 128 := hlt.trans (by norm_num)
  have hprimes := hends.primes rfl (clean_trialResidue hn htries)
  have hresle := trialResidue_le hn htries.le
  rw [hruns]
  cases e with
  | returns b =>
    obtain ⟨L, hrec, -, hL⟩ := factorization_completes hn hwide htries hends hprimes
    rw [play_of_recordAll_none hrec]
    exact .factored fun hword => (hL hword).2
  | faults code =>
    obtain ⟨L, hrec, -⟩ := recordAll_of_fits (fits_factorPlays hn hwide htries hends fun v hv => .inl (hprimes v hv))
    rw [play_of_recordAll_none hrec]
    obtain hr | ⟨-, h127⟩ | ⟨-, hf⟩ := hends.faults code rfl
    · exact .faults (.inl hr)
    · omega
    · exact .faults (hf.mono hresle)
  | never =>
    obtain ⟨L, hrec, -⟩ := recordAll_of_fits (fits_factorPlays hn hwide htries hends fun v hv => .inl (hprimes v hv))
    rw [play_of_recordAll_none hrec]
    exact .never

end Local

/-! ### The engine -/

/-- Every nested call of the engine, at every depth and with every table, does what `CallSpec` says. -/
theorem callSpec_engineCall (td : Nat) (proving : Bool) (d : Nat) : CallSpec td proving (engineCall td proving d) := by
  induction d with
  | zero =>
    exact ⟨fun _ _ => .inr fun _ => rfl, fun _ _ _ _ => rhoPlays_hang fun _ => rfl, fun _ _ _ => .inr fun _ => rfl⟩
  | succ d ih =>
    refine ⟨fun n _ => .inl ?_, fun n hlt a hodd => rhoBody_plays ih hodd hlt a,
      fun n hlt h2 => .inl (factorBody_plays ih hlt h2)⟩
    obtain ⟨e, hends, -, hplays⟩ := oracle_ends td proving
      (factorLocal := fun m => engineCall td proving d (.factor m) Facc.empty) n fun hp m h2 hm => by
        subst hp
        obtain h | h := ih.factor m (hm.trans (by norm_num)) h2
        · exact h.localEnds (by omega) hm Facc.empty
        · exact h Facc.empty ▸ .never
    exact ⟨e, hplays, hends⟩

end Sys2Proof.Machine
end

section
/-!
PROOFS. The oracle commands PRIME1, PRIME2 and ISPRIME (spec/43_primality.md R148 to R150): what each does on every
operand.
-/
namespace Sys2Proof.Machine

/-! ### The oracle as the commands ask it -/

/-- The factorization a Lucas step of the command running in `s` asks for (R147). -/
def localFactor (s : State) (m : Nat) : Run Bool :=
  engineCall s.params.tdCount s.proveSample (Config.nesting - 1) (.factor m) Facc.empty

/-- The oracle asked about `n` by the command running in `s`. -/
def askOracle (s : State) (n : Nat) : Run Bool := oracle s.params.tdCount s.proveSample (localFactor s) n s.facc

theorem engineRun_prime (n : Nat) (s : State) : engineRun (.prime n) s = askOracle s n := rfl

theorem exec_prime1 (rd rn : Reg) (s : State) :
    exec (.prime1 rd rn) s = finishVerdict rd (askOracle s (lowWord rn s)) s := by
  rw [exec, execPrime1, wordOperand_eq_lowWord, engineRun_prime]

theorem exec_prime2 (rd rn : Reg) (s : State) :
    exec (.prime2 rd rn) s = finishVerdict rd (askOracle s (fullValue rn s)) s := by
  rw [exec, execPrime2, dwordOperand_eq_fullValue, engineRun_prime]

theorem lowWord_eq_fullValue {r : Reg} {s : State} (h : fullValue r s < 2 ^ 64) : lowWord r s = fullValue r s :=
  Nat.mod_eq_of_lt h

section Legal
variable {s : State} (hlegal : s.params.legal = true) {n : Nat}
include hlegal

/-- `FOP^2` fits a word (spec/00_scope.md R8). -/
theorem fopSquared_lt : fopSquared s < 2 ^ 64 := by
  have h := (legal_bounds hlegal).2
  exact (Nat.mul_lt_mul'' h h).trans_eq (by norm_num)

theorem le_fopSquared : 10201 ≤ fopSquared s := by
  have h := le_firstOmitted (legal_bounds hlegal).1
  exact le_of_eq_of_le (by norm_num) (Nat.mul_le_mul h h)

theorem asked_of_fopSquared_le (hodd : n % 2 = 1) (hlt : n < 2 ^ 127) (hlarge : fopSquared s ≤ n) :
    Asked s.params.tdCount n :=
  ⟨hodd, by have := le_fopSquared hlegal; omega, hlt, fun h => absurd h.2 (not_lt.mpr hlarge)⟩

theorem Asked.fopSquared_le (h : Asked s.params.tdCount n) : fopSquared s ≤ n := by
  have hfop := fopSquared_lt hlegal
  by_contra hlt
  refine h.large ⟨?_, not_le.mp hlt⟩
  simp only [Config.base]
  omega

omit hlegal in
theorem askOracle_le_one (h : n ≤ 1) : askOracle s n = .done false s.facc := if_pos h

theorem askOracle_small (h2 : 2 ≤ n) (h : n < fopSquared s) : askOracle s n = .done true s.facc := by
  have hfop := fopSquared_lt hlegal
  rw [askOracle, oracle, if_neg (by omega), if_pos ⟨by simp only [Config.base]; omega, h⟩]

theorem askOracle_even (h : fopSquared s ≤ n) (heven : n % 2 = 0) : askOracle s n = .fault .even s.facc := by
  have hfop := le_fopSquared hlegal
  rw [askOracle, oracle, if_neg (by omega), if_neg fun hsmall => absurd hsmall.2 (not_lt.mpr h), if_pos heven]

theorem askOracle_topBit (h : fopSquared s ≤ n) (hodd : n % 2 = 1) (htop : 2 ^ 127 ≤ n) :
    askOracle s n = .fault .topBit s.facc := by
  have hfop := le_fopSquared hlegal
  rw [askOracle, oracle, if_neg (by omega), if_neg fun hsmall => absurd hsmall.2 (not_lt.mpr h), if_neg (by omega),
    if_pos (show Config.topBit ≤ n from htop)]

/-- Probabilistic mode (R146). -/
theorem askOracle_probabilistic (h : fopSquared s ≤ n) (hodd : n % 2 = 1) (hlt : n < 2 ^ 127)
    (hmode : s.proveSample = false) : ∃ b : Bool, (b = true ↔ PassesBases s n) ∧ askOracle s n = .done b s.facc := by
  have hasked := asked_of_fopSquared_le hlegal hodd hlt h
  obtain ⟨b, hb, hruns⟩ := oracleTests_probabilistic hodd hasked.three hlt s.params.tdCount (localFactor s)
  exact ⟨b, hb, by rw [askOracle, hmode, oracle_asked hasked, hruns]⟩

end Legal

/-- In either mode, whatever the table. -/
theorem askOracle_ends (s : State) {n : Nat} : ∃ e, OracleEnds s.params.tdCount s.proveSample n e ∧
    (e = .never → s.proveSample = true) ∧ askOracle s n = e.run s.facc := by
  obtain ⟨e, hends, hnever, hplays⟩ := oracle_ends s.params.tdCount s.proveSample (factorLocal := localFactor s) n
    fun hp m h2 hm => by
      have hspec := callSpec_engineCall s.params.tdCount true (Config.nesting - 1)
      rw [localFactor, hp]
      obtain h | h := hspec.factor m (hm.trans (by norm_num)) h2
      · exact h.localEnds (by omega) hm Facc.empty
      · exact h Facc.empty ▸ .never
  exact ⟨e, hends, hnever, hplays s.facc⟩

/-! ### Verdicts -/

theorem finishVerdict_done (rd : Reg) (b : Bool) (acc : Facc) (s : State) :
    finishVerdict rd (.done b acc) s = .next (resultState rd b.toNat s) := finish_writeVerdict rd b s

theorem verdictIs_of_finishVerdict {i : Instr} {rd : Reg} {s : State} {b : Bool} {acc : Facc} {P : Prop}
    (h : exec i s = finishVerdict rd (.done b acc) s) (hb : b = true ↔ P) : VerdictIs i rd s P :=
  verdictIs_of_finish h hb

/-! ### What ISPRIME decides itself (R150) -/

section Early
variable {td n : Nat} (hlt : n < 2 ^ 128)
include hlt

theorem tableDivides_iff {en : TableEntry} (hen : en.Sound) : tableDivides n en = true ↔ en.p ∣ n := by
  rw [tableDivides]
  split_ifs with h
  · rw [quotient1_eq hen h]
    split_ifs <;> simpa
  · rw [quotient2_eq hen (hlt.trans_eq (by norm_num [Config.base]))]
    split_ifs <;> simpa

theorem isprimeEarly_of_tableFactor (h2 : 2 ≤ n) (hodd : n % 2 = 1) (h : ∃ p ∈ tablePrimes td, p ∣ n) :
    ∃ b : Bool, isprimeEarly td n = some b ∧ (b = true ↔ n ∈ tablePrimes td) := by
  obtain ⟨p, hp, hdvd⟩ := h
  rw [isprimeEarly, if_neg (by omega), if_neg (by omega)]
  cases hfind : (primeTable td).find? (tableDivides n) with
  | none =>
    rw [← map_p_primeTable, List.mem_map] at hp
    obtain ⟨en, hen, rfl⟩ := hp
    exact absurd ((tableDivides_iff hlt (sound_of_mem_primeTable hen)).mpr hdvd) (List.find?_eq_none.mp hfind en hen)
  | some en =>
    have hen := List.mem_of_find?_eq_some hfind
    have hmem : en.p ∈ tablePrimes td := map_p_primeTable td ▸ List.mem_map_of_mem hen
    have hdvd := (tableDivides_iff hlt (sound_of_mem_primeTable hen)).mp (List.find?_some hfind)
    refine ⟨n == en.p, rfl, beq_iff_eq.trans ⟨fun h => h ▸ hmem, fun h => ?_⟩⟩
    exact ((Nat.prime_dvd_prime_iff_eq (mem_tablePrimes_iff.mp hmem).1 (mem_tablePrimes_iff.mp h).1).mp hdvd).symm

theorem isprimeEarly_none (h2 : 2 ≤ n) (hodd : n % 2 = 1) (h : ∀ p ∈ tablePrimes td, ¬p ∣ n) :
    isprimeEarly td n = none := by
  rw [isprimeEarly, if_neg (by omega), if_neg (by omega), Option.map_eq_none_iff, List.find?_eq_none]
  intro en hen
  rw [tableDivides_iff hlt (sound_of_mem_primeTable hen)]
  exact h en.p (map_p_primeTable td ▸ List.mem_map_of_mem hen)

omit hlt in
theorem mem_tablePrimes_iff_prime (h : ∃ p ∈ tablePrimes td, p ∣ n) : n ∈ tablePrimes td ↔ n.Prime := by
  obtain ⟨p, hp, hdvd⟩ := h
  refine ⟨fun h => (mem_tablePrimes_iff.mp h).1, fun h => ?_⟩
  exact (Nat.prime_dvd_prime_iff_eq (mem_tablePrimes_iff.mp hp).1 h).mp hdvd ▸ hp

/-- What ISPRIME decides itself is right, and otherwise `n` is odd and has no table factor. -/
theorem isprimeEarly_cases (td : Nat) :
    (∃ b : Bool, isprimeEarly td n = some b ∧ (b = true ↔ n.Prime)) ∨
      (isprimeEarly td n = none ∧ 2 ≤ n ∧ n % 2 = 1 ∧ ∀ p ∈ tablePrimes td, ¬p ∣ n) := by
  by_cases h2 : n < 2
  · exact .inl ⟨false, if_pos h2, by simpa using fun hp : n.Prime => absurd hp.two_le (by omega)⟩
  by_cases heven : n % 2 = 0
  · refine .inl ⟨n == 2, by rw [isprimeEarly, if_neg h2, if_pos heven], beq_iff_eq.trans ?_⟩
    exact ⟨fun h => h ▸ Nat.prime_two, fun hp => hp.eq_two_or_odd.resolve_right (by omega)⟩
  by_cases htable : ∃ p ∈ tablePrimes td, p ∣ n
  · obtain ⟨b, hb, hiff⟩ := isprimeEarly_of_tableFactor hlt (by omega) (by omega) htable
    exact .inl ⟨b, hb, hiff.trans (mem_tablePrimes_iff_prime htable)⟩
  · push Not at htable
    exact .inr ⟨isprimeEarly_none hlt (by omega) (by omega) htable, by omega, by omega, htable⟩

end Early

theorem exec_isprime_some {rn : Reg} {s : State} {b : Bool} (h : isprimeEarly s.params.tdCount (fullValue rn s) = some b)
    (rd : Reg) : exec (.isprime rd rn) s = finishVerdict rd (.done b s.facc) s := by
  simp only [exec, execIsprime, dwordOperand_eq_fullValue, h]

theorem exec_isprime_none {rn : Reg} {s : State} (h : isprimeEarly s.params.tdCount (fullValue rn s) = none)
    (rd : Reg) : exec (.isprime rd rn) s = finishVerdict rd (askOracle s (fullValue rn s)) s := by
  simp only [exec, execIsprime, dwordOperand_eq_fullValue, h, engineRun_prime]

theorem clean_of_noTableFactor {s : State} {n : Nat} (hodd : n % 2 = 1) (h : NoTableFactor s n) :
    Clean s.params.tdCount n := by
  refine clean_of_no_small_factor fun p hp hlt hdvd => ?_
  by_cases h2 : p = 2
  · subst h2
    omega
  · exact h p (mem_tablePrimes_iff.mpr ⟨hp, h2, hlt⟩) hdvd

end Sys2Proof.Machine
end

section
/-!
PROOFS. The statements of spec/43_primality.md on PRIME1, PRIME2 and ISPRIME in probabilistic mode (R144 to R150).
-/
open Sys2Proof Sys2Proof.Machine

/-- Settles O37. -/
theorem prime1Verdict : Obligations.Prime1Verdict := by
  intro rd rn s hlegal
  refine ⟨encodedAs_of_encodeWord rfl rfl, ?_⟩
  have hword : lowWord rn s < 2 ^ 64 := lowWord_lt rn s
  rw [exec_prime1]
  split_ifs with h1 hsmall heven
  · rw [askOracle_le_one h1]
    exact finishVerdict_done rd false _ s
  · rw [askOracle_small hlegal (by omega) hsmall]
    exact finishVerdict_done rd true _ s
  · rw [askOracle_even hlegal (not_lt.mp hsmall) heven]
    rfl
  · intro hmode
    obtain ⟨b, hb, hrun⟩ := askOracle_probabilistic hlegal (not_lt.mp hsmall) (by omega) (by omega) hmode
    exact verdictIs_of_finishVerdict (by rw [exec_prime1, hrun]) hb

/-- Settles O38. -/
theorem prime2Verdict : Obligations.Prime2Verdict := by
  intro rd rn s hlegal
  refine ⟨encodedAs_of_encodeWord rfl rfl, ?_⟩
  have hfop := fopSquared_lt hlegal
  split_ifs with hword heven htop
  · rw [exec_prime1, exec_prime2, lowWord_eq_fullValue hword]
  · rw [exec_prime2, askOracle_even hlegal (by omega) heven]
    rfl
  · rw [exec_prime2, askOracle_topBit hlegal (by omega) (by omega) htop]
    rfl
  · intro hmode
    obtain ⟨b, hb, hrun⟩ := askOracle_probabilistic hlegal (n := fullValue rn s) (by omega) (by omega) (by omega) hmode
    exact verdictIs_of_finishVerdict (by rw [exec_prime2, hrun]) hb

/-- Settles O39: what trial division by the table leaves undecided below `FOP^2` is prime. -/
theorem isprimeExactBelowFopSquared : Obligations.IsprimeExactBelowFopSquared := by
  intro rd rn s hlegal hlt
  obtain ⟨b, hb, hiff⟩ | ⟨hnone, h2, hodd, htable⟩ := isprimeEarly_cases (fullValue_lt rn s) s.params.tdCount
  · exact verdictIs_of_finishVerdict (exec_isprime_some hb rd) hiff
  · have hprime := clean_of_noTableFactor hodd htable _ dvd_rfl h2 hlt
    refine verdictIs_of_finishVerdict (b := true) (acc := s.facc) ?_ (by simpa using hprime)
    rw [exec_isprime_none hnone, askOracle_small hlegal h2 hlt]

/-- Settles O40. -/
theorem isprimeVerdict : Obligations.IsprimeVerdict := by
  intro rd rn s hlegal
  have hfull := fullValue_lt rn s
  have hfop := fopSquared_lt hlegal
  have hfop2 := le_fopSquared hlegal
  have hask := fun h2 hodd htable => exec_isprime_none (isprimeEarly_none hfull h2 hodd htable) rd
  refine ⟨encodedAs_of_encodeWord rfl rfl, fun h1 => ?_, fun h2 heven => ?_, fun h2 hodd htable => ?_,
    fun h2 hodd htable hlt => ?_, fun hodd htable htop => ?_, fun hodd htable hlarge hlt hmode => ?_⟩
  · rw [exec_isprime_some (if_pos h1)]
    exact finishVerdict_done rd false _ s
  · refine verdictIs_of_finishVerdict (exec_isprime_some (b := fullValue rn s == 2) ?_ rd) beq_iff_eq
    rw [isprimeEarly, if_neg (by omega), if_pos heven]
  · rw [NoTableFactor] at htable
    push Not at htable
    obtain ⟨b, hb, hiff⟩ := isprimeEarly_of_tableFactor hfull h2 hodd htable
    exact verdictIs_of_finishVerdict (exec_isprime_some hb rd) hiff
  · rw [hask h2 hodd htable, askOracle_small hlegal h2 hlt]
    exact finishVerdict_done rd true _ s
  · rw [hask (by omega) hodd htable, askOracle_topBit hlegal (by omega) hodd htop]
    rfl
  · obtain ⟨b, hb, hrun⟩ := askOracle_probabilistic hlegal hlarge hodd hlt hmode
    exact verdictIs_of_finishVerdict ((hask (by omega) hodd htable).trans (by rw [hrun])) hb
end

section
/-!
PROOFS. The oracle commands in proof mode (spec/43_primality.md R145, R147, R151): what their ends mean, and how they end
where trial division factors `n - 1`.
-/
namespace Sys2Proof.Machine

/-! ### Telling the ends of an oracle command apart -/

theorem FaultCode.code_injective : Function.Injective FaultCode.code := by
  intro a b
  cases a <;> cases b <;> decide

section Ends
variable {rd : Reg} {r : Run Bool} {s : State} (hdone : s.status.done = false)
include hdone

theorem eq_done_of_finishVerdict {b : Bool} (h : finishVerdict rd r s = .next (resultState rd b.toNat s)) :
    ∃ acc, r = .done b acc := by
  cases r with
  | done b' acc =>
    rw [finishVerdict_done] at h
    have hx := congrArg (fun u : State => (u.x[rd.val]).toNat) (Host.Outcome.next.inj h)
    simp only [resultState, doneState, Vector.getElem_set_self] at hx
    obtain rfl : b' = b := by
      revert hx
      cases b <;> cases b' <;> decide
    exact ⟨acc, rfl⟩
  | fault code acc =>
    have hstatus := congrArg (fun u : State => u.status.done) (Host.Outcome.next.inj h)
    exact absurd (hdone.symm.trans hstatus) (by simp [resultState, doneState])
  | hang =>
    have hstatus := congrArg (fun u : State => u.status.done) (Host.Outcome.next.inj h)
    exact absurd (hdone.symm.trans hstatus) (by simp [resultState, doneState])

theorem eq_fault_of_finishVerdict (herr : s.status.err = false) {code : FaultCode}
    (h : finishVerdict rd r s = .next (raiseFault code s)) : ∃ acc, r = .fault code acc := by
  cases r with
  | done b acc =>
    have hstatus := congrArg (fun u : State => u.status.done) (Host.Outcome.next.inj h)
    exact absurd (hstatus.trans hdone) (by simp [complete])
  | fault code' acc =>
    obtain rfl := FaultCode.code_injective (congrArg State.ecause (Host.Outcome.next.inj h))
    exact ⟨acc, rfl⟩
  | hang =>
    have hstatus := congrArg (fun u : State => u.status.err) (Host.Outcome.next.inj h)
    exact absurd (herr.symm.trans hstatus) (by simp [raiseFault])

/-- What the ends of a command mean follows from what the ends of its run mean. -/
theorem proofSound_of_run (herr : s.status.err = false) {i : Instr} {n : Nat} (hexec : exec i s = finishVerdict rd r s)
    (haccepts : ∀ acc, r = .done true acc → n.Prime) (hrejects : ∀ acc, r = .done false acc → ¬n.Prime)
    (hfails : ∀ acc, r = .fault .lucasFail acc → ∃ m, fopSquared s ≤ m ∧ m ≤ n ∧ m % 2 = 1 ∧ Unproved s m) :
    ProofSound i rd s n := by
  rw [ProofSound, hexec]
  refine ⟨fun h => ?_, fun h => ?_, fun h => ?_⟩
  · obtain ⟨acc, hr⟩ := eq_done_of_finishVerdict hdone (b := true) h
    exact haccepts acc hr
  · obtain ⟨acc, hr⟩ := eq_done_of_finishVerdict hdone (b := false) h
    exact hrejects acc hr
  · obtain ⟨acc, hr⟩ := eq_fault_of_finishVerdict hdone herr h
    exact hfails acc hr

/-- The oracle's verdicts are proofs on numbers without table factor and from `FOP^2` on. -/
theorem proofSound_askOracle (herr : s.status.err = false) (hlegal : s.params.legal = true)
    (hmode : s.proveSample = true) {i : Instr} {n : Nat} (hexec : exec i s = finishVerdict rd (askOracle s n) s)
    (hclean : Clean s.params.tdCount n ∨ fopSquared s ≤ n) : ProofSound i rd s n := by
  obtain ⟨e, hends, -, hrun⟩ := askOracle_ends s (n := n)
  rw [hrun] at hexec
  refine proofSound_of_run hdone herr hexec (fun acc h => ?_) (fun acc h => ?_) (fun acc h => ?_)
  · cases e with
    | returns b =>
      cases h
      exact (hends.accepts rfl).2 hmode hclean
    | faults code => cases h
    | never => cases h
  · cases e with
    | returns b =>
      cases h
      exact hends.rejects rfl (legal_word hlegal)
    | faults code => cases h
    | never => cases h
  · cases e with
    | returns b => cases h
    | faults code =>
      cases h
      obtain ⟨hcode, -⟩ | ⟨hcode, -⟩ | ⟨-, hcode | ⟨-, hfail⟩⟩ := hends.faults _ rfl
      · cases hcode
      · cases hcode
      · cases hcode
      · obtain ⟨m, hle, hasked, hun⟩ := hfail (legal_word hlegal)
        exact ⟨m, hasked.fopSquared_le hlegal, hle, hasked.odd, hun⟩
    | never => cases h

end Ends

/-! ### Factorizations that trial division finishes -/

section Small
variable {td n : Nat}

/-- A residue below `FOP^2` is 1 or prime, so a number of which only that remains is factored. -/
theorem factorBody_returns {proving : Bool} {call : Call → Facc → Run Bool} (h2 : 2 ≤ n) (hlt : n < 2 ^ 128)
    (haccepts : ∀ t, 2 ≤ t → t < Config.base → t < firstOmitted td * firstOmitted td →
      ∀ acc, call (.prime t) acc = .done true acc)
    (hsmall : ∀ k, TrialTries td n k →
      trialResidue td k n < Config.base ∧ trialResidue td k n < firstOmitted td * firstOmitted td) :
    ∃ k vs, TrialTries td n k ∧ RhoEnds td proving (trialResidue td k n) vs (.returns true) ∧
      (∀ v ∈ vs, v.Prime) ∧
      factorBody call td n = play (trialScript td n k ++ vs.map fun v => (v, 1)) (.returns true) Facc.empty := by
  have hn : n ≠ 0 := by omega
  obtain ⟨k, hk, htries, htdiv⟩ := tdiv_plays td hn hlt
  obtain ⟨hword, hfop⟩ := hsmall k htries
  have hne := (stripped hn hk).ne_zero hn
  have hclean := clean_trialResidue hn htries
  rw [factorBody, if_neg (by omega)]
  by_cases hone : trialResidue td k n = 1
  · refine ⟨k, [], htries, ⟨by simp, by simp, by simp [hone], by simp, by simp⟩, by simp, ?_⟩
    exact htdiv.andThen (ins' := []) (fun acc => if_pos hone) Facc.empty
  · have h2' : 2 ≤ trialResidue td k n := by omega
    have hprime := hclean _ dvd_rfl h2' hfop
    refine ⟨k, [trialResidue td k n], htries, ⟨by simpa, by simp, by simp, fun _ _ => by simpa, by simp⟩, by simpa, ?_⟩
    refine htdiv.andThen (ins' := [(trialResidue td k n, 1)]) (fun acc => ?_) Facc.empty
    rw [if_neg hone, settle, haccepts _ h2' hword hfop]
    exact (insertLargeRun_plays (hword.trans (by norm_num [Config.base]))).andThen (ins' := []) (fun _ => rfl) acc

/-- At every depth the oracle accepts what is below `FOP^2` (R144). -/
theorem engineCall_prime_small (proving : Bool) (d : Nat) {t : Nat} (h2 : 2 ≤ t) (hword : t < Config.base)
    (hfop : t < firstOmitted td * firstOmitted td) (acc : Facc) :
    engineCall td proving (d + 1) (.prime t) acc = .done true acc := by
  rw [engineCall, oracle, if_neg (by omega), if_pos ⟨hword, hfop⟩]

/-- Where trial division leaves only a residue below `FOP^2`, factor completes. -/
theorem engineCall_factor_small (proving : Bool) (d : Nat) (h2 : 2 ≤ n) (hlt : n < 2 ^ 128)
    (hsmall : ∀ k, TrialTries td n k →
      trialResidue td k n < Config.base ∧ trialResidue td k n < firstOmitted td * firstOmitted td) :
    ∃ L : Facc, L.Wf ∧ (firstOmitted td ≤ 2 ^ 64 → L.value = n ∧ HoldsPrimeFactors L n) ∧
      ∀ acc, engineCall td proving (d + 2) (.factor n) acc = .done true L := by
  obtain ⟨k, vs, htries, hends, hprimes, hruns⟩ := factorBody_returns (proving := proving) h2 hlt
    (fun t ht2 hword hfop => engineCall_prime_small proving d ht2 hword hfop) hsmall
  obtain ⟨L, hrec, hwf, hL⟩ := factorization_completes (by omega) hlt htries hends hprimes
  refine ⟨L, hwf, hL, fun acc => ?_⟩
  rw [engineCall, hruns, play_of_recordAll_none hrec]
  rfl

end Small

/-! ### Numbers that trial division factors -/

theorem nextPrime_le {td e : Nat} (he : e ≤ td) : nextPrime td e ≤ firstOmitted td := by
  rw [nextPrime_eq he, ← firstOmitted_eq]
  exact firstOmitted_mono he

/-- What trial division leaves of a smooth number is below `FOP^2`. -/
theorem trialResidue_lt_of_smooth {s : State} {n k : Nat} (hn : n ≠ 0) (hsmooth : SmoothEnough s n)
    (htries : TrialTries s.params.tdCount n k) : trialResidue s.params.tdCount k n < fopSquared s := by
  obtain hk | hlt := htries.exit
  · subst hk
    obtain ⟨u, w, hnuw, hu, hw⟩ := hsmooth
    refine lt_of_le_of_lt (Nat.le_of_dvd (Nat.pos_of_ne_zero fun h => hn (by simp [hnuw, h])) ?_) hw
    refine Nat.Coprime.dvd_of_dvd_mul_left (Nat.coprime_of_dvd fun p hp hpr hpu => ?_)
      ((Dvd.intro _ (stripped hn le_rfl).eq).trans hnuw.dvd)
    refine not_dvd_trialResidue hn le_rfl hp ?_ hpr
    rw [nextPrime_self]
    obtain rfl | hmem := hu p hp hpu
    · have := (firstOmitted_eq s.params.tdCount) ▸ Nat.nth_strictMono Nat.infinite_setOfPred_prime
        (Nat.succ_pos s.params.tdCount)
      rwa [Nat.nth_prime_zero_eq_two] at this
    · exact (mem_tablePrimes_iff.mp hmem).2.2
  · exact hlt.trans_le ((Nat.pow_le_pow_left (nextPrime_le htries.le) 2).trans_eq (sq _))

theorem localFactor_smooth {s : State} {m : Nat} (hlegal : s.params.legal = true) (h2 : 2 ≤ m) (hlt : m < 2 ^ 127)
    (hsmooth : SmoothEnough s m) : ∃ L, localFactor s m = .done true L ∧ HoldsPrimeFactors L m := by
  obtain ⟨L, -, hL, hruns⟩ := engineCall_factor_small (td := s.params.tdCount) s.proveSample (Config.nesting - 3) h2
    (hlt.trans (by norm_num)) fun k hk => by
      have hres := trialResidue_lt_of_smooth (by omega) hsmooth hk
      exact ⟨hres.trans (fopSquared_lt hlegal), hres⟩
  exact ⟨L, hruns Facc.empty, (hL (legal_word hlegal)).2⟩

/-- In proof mode the bases decide about a number whose predecessor is factored. -/
theorem proofOutcome_askOracle {s : State} {n : Nat} {rd : Reg} {i : Instr} (hlegal : s.params.legal = true)
    (hmode : s.proveSample = true) (hodd : n % 2 = 1) (hlt : n < 2 ^ 127) (hlarge : fopSquared s ≤ n)
    (hsmooth : SmoothEnough s (n - 1)) (hexec : exec i s = finishVerdict rd (askOracle s n) s) :
    ProofOutcome i rd s n := by
  have hasked := asked_of_fopSquared_le hlegal hodd hlt hlarge
  have h3 := hasked.three
  obtain ⟨L, hlocal, hL⟩ := localFactor_smooth hlegal (by omega) (by omega) hsmooth
  obtain ⟨e, hends, hruns⟩ := oracle_of_factored hasked hlocal
  have hpasses : ∀ c, LucasPasses n c L ↔ LucasBase n c := fun c => lucasPasses_iff_lucasBase hL
  have hspp : n.Prime → ∀ c ∈ proofBases s, StrongProbablePrime n c := fun hp c hc =>
    strongProbablePrime_of_prime hp hodd (hasked.not_dvd (legal_word hlegal) hc)
  rw [askOracle, hmode, hruns s.facc] at hexec
  rw [ProofOutcome, hexec]
  cases hends with
  | proved c hmem hc hpass =>
    have hp := prime_of_lucasBase (by omega) hc ((hpasses c).mp hpass)
    refine ⟨fun _ _ => finishVerdict_done rd true _ s, ?_, fun hun => ?_⟩
    · rintro ⟨b, hb, hnot⟩
      exact absurd (hspp hp b hb) hnot
    · exact absurd ((hpasses c).mp hpass) (hun c hmem).2
  | refuted c hmem hnot =>
    refine ⟨fun hp => absurd (hspp hp c hmem) hnot, fun _ => finishVerdict_done rd false _ s, fun hun => ?_⟩
    exact absurd (hun c hmem).1 hnot
  | unproved hall =>
    refine ⟨fun _ ⟨b, hb, hlucas⟩ => ?_, fun ⟨b, hb, hnot⟩ => ?_, fun _ => rfl⟩
    · exact absurd ((hpasses b).mpr hlucas) (hall b hb).2
    · exact absurd (hall b hb).1 hnot

end Sys2Proof.Machine
end

section
/-!
PROOFS. The statement of spec/43_primality.md on proof mode (R145, R147, R151).
-/
open Sys2Proof Sys2Proof.Machine

/-- Settles O41: the verdicts by the meaning of the oracle's ends, the outcomes by the nested factorization, which trial
division finishes. -/
theorem proofModeVerdictIsProof : Obligations.ProofModeVerdictIsProof := by
  intro rd rn s hlegal hmode _ hdone herr
  have hword : lowWord rn s < 2 ^ 64 := lowWord_lt rn s
  refine ⟨?_, fun hlarge => ?_, fun hlarge => ?_, fun hlarge hodd hsmooth => ?_,
    fun hlarge hodd hlt hsmooth => ⟨?_, fun htable => ?_⟩⟩
  · obtain ⟨b, hb, hiff⟩ | ⟨hnone, -, hodd, htable⟩ := isprimeEarly_cases (fullValue_lt rn s) s.params.tdCount
    · refine proofSound_of_run hdone herr (exec_isprime_some hb rd) ?_ ?_ (by rintro acc ⟨⟩)
      · rintro acc ⟨⟩
        exact hiff.mp rfl
      · rintro acc ⟨⟩
        exact fun hp => Bool.false_ne_true (hiff.mpr hp)
    · exact proofSound_askOracle hdone herr hlegal hmode (exec_isprime_none hnone rd)
        (.inl (clean_of_noTableFactor hodd htable))
  · exact proofSound_askOracle hdone herr hlegal hmode (exec_prime1 rd rn s) (.inr hlarge)
  · exact proofSound_askOracle hdone herr hlegal hmode (exec_prime2 rd rn s) (.inr hlarge)
  · exact proofOutcome_askOracle hlegal hmode hodd (by omega) hlarge hsmooth (exec_prime1 rd rn s)
  · exact proofOutcome_askOracle hlegal hmode hodd hlt hlarge hsmooth (exec_prime2 rd rn s)
  · have h2 := le_fopSquared hlegal
    exact proofOutcome_askOracle hlegal hmode hodd hlt hlarge hsmooth
      (exec_isprime_none (isprimeEarly_none (fullValue_lt rn s) (by omega) hodd htable) rd)
end

section
/-!
PROOFS. RHO1, RHO2 and FACTOR as scripts from the state of their issue (spec/44_rho_factor.md R169, R171 to R173;
spec/60_exceptions.md R206).
-/
namespace Sys2Proof.Machine

/-! ### From the run of a command to its state -/

/-- The end of the script of a command. -/
def Ending.runEnd {α : Type} : Ending α → RunEnd
  | .returns _ => .completes
  | .faults code => .faults code
  | .never => .never

theorem finishRun_play {α : Type} (ins : List (Nat × Nat)) (e : Ending α) (f : Facc) (s : State) :
    finishRun (play ins e f) s = .next (endedState ins f e.runEnd s) := by
  rw [play, endedState]
  cases recordAll ins f with
  | mk acc failed =>
    cases failed with
    | some code => rfl
    | none => cases e <;> rfl

/-- The state after a command whose inserts completed with `acc`. -/
def RunEnd.stateAfter : RunEnd → Facc → State → State
  | .completes, acc, s => faccState acc s
  | .faults code, acc, s => raiseFault code { s with facc := acc }
  | .never, _, s => s

theorem endedState_of_recordAll_none {ins : List (Nat × Nat)} {f acc : Facc} (h : recordAll ins f = (acc, none))
    (e : RunEnd) (s : State) : endedState ins f e s = e.stateAfter acc s := by
  rw [endedState, h]
  cases e <;> rfl

theorem endedState_of_recordAll_some {ins : List (Nat × Nat)} {f acc : Facc} {code : FaultCode}
    (h : recordAll ins f = (acc, some code)) (e : RunEnd) (s : State) :
    endedState ins f e s = raiseFault code { s with facc := acc } := by
  rw [endedState, h]

/-- A running command whose script ends in the completed state made all its inserts. -/
theorem completed_of_endedState {ins : List (Nat × Nat)} {f acc : Facc} {e : RunEnd} {s : State}
    (hdone : s.status.done = false) (h : endedState ins f e s = faccState acc s) :
    recordAll ins f = (acc, none) ∧ e = .completes := by
  have hstatus : (endedState ins f e s).status.done = true := h ▸ rfl
  cases hrec : recordAll ins f with
  | mk acc' failed =>
    cases failed with
    | some code =>
      rw [endedState_of_recordAll_some hrec] at hstatus
      exact absurd (hdone.symm.trans hstatus) Bool.false_ne_true
    | none =>
      rw [endedState_of_recordAll_none hrec] at h hstatus
      cases e with
      | completes => exact ⟨congrArg (·, none) (congrArg State.facc h), rfl⟩
      | faults code => exact absurd (hdone.symm.trans hstatus) Bool.false_ne_true
      | never => exact absurd (hdone.symm.trans hstatus) Bool.false_ne_true

/-! ### RHO1 and RHO2 -/

theorem exec_rho1 (rn : Reg) (a : Nat) (s : State) : exec (.rho1 rn a) s =
    if lowWord rn s % 2 = 0 then .next (raiseFault .even s)
    else if lowWord rn s < 3 ∨ lowWord rn s ≤ a then .next (raiseFault .range s)
    else finishRun (engineRun (.rho (lowWord rn s) a) s) s := by
  simp only [exec, execRho1, wordOperand_eq_lowWord, guarded_even, guarded_range_three, guarded_nil]

theorem exec_rho2 (rn : Reg) (a : Nat) (s : State) : exec (.rho2 rn a) s =
    if fullValue rn s % 2 = 0 then .next (raiseFault .even s)
    else if 2 ^ 127 ≤ fullValue rn s then .next (raiseFault .topBit s)
    else if fullValue rn s < 3 ∨ fullValue rn s ≤ a then .next (raiseFault .range s)
    else finishRun (engineRun (.rho (fullValue rn s) a) s) s := by
  simp only [exec, execRho2, dwordOperand_eq_fullValue, guarded_even, guarded_topBit, guarded_range_three, guarded_nil]

/-- What a rho command on `n` records, and how it ends if no insert fails. -/
structure RhoRecords (s : State) (n : Nat) (vs : List Nat) (e : RunEnd) : Prop where
  two_le : ∀ v ∈ vs, 2 ≤ v
  dvd : vs.prod ∣ n
  completes : e = .completes → vs.prod = n
  faults : ∀ code, e = .faults code → code = .even ∨ code = .range ∨ (code = .topBit ∧ 2 ^ 127 ≤ n) ∨
    (code = .lucasFail ∧ s.proveSample = true)

/-- From every accumulator, the command `i` runs the script of a rho command on `n`. -/
def RunsRho (i : Instr) (n : Nat) (s : State) : Prop :=
  ∃ vs e, RhoRecords s n vs e ∧ ∀ f, exec i { s with facc := f } =
    .next (endedState (vs.map fun v => (v, 1)) f e { s with facc := f })

theorem RhoRecords.of_check (s : State) (n : Nat) {code : FaultCode}
    (hcode : code = .even ∨ code = .range ∨ (code = .topBit ∧ 2 ^ 127 ≤ n)) : RhoRecords s n [] (.faults code) := by
  refine ⟨by simp, by simp, by simp, ?_⟩
  rintro _ ⟨⟩
  exact hcode.imp_right (.imp_right .inl)

theorem RhoRecords.of_rhoEnds {s : State} {n : Nat} {vs : List Nat} {e : Ending Bool}
    (h : RhoEnds s.params.tdCount s.proveSample n vs e) : RhoRecords s n vs e.runEnd := by
  refine ⟨h.two_le, h.dvd, fun he => ?_, fun code he => ?_⟩
  · cases e with
    | returns b => exact h.completes b rfl
    | faults code => cases he
    | never => cases he
  · cases e with
    | returns b => cases he
    | faults code' =>
      cases he
      obtain hr | ht | ⟨hmode, hr | ⟨hl, -⟩⟩ := h.faults _ rfl
      · exact .inr (.inl hr)
      · exact .inr (.inr (.inl ht))
      · exact .inr (.inl hr)
      · exact .inr (.inr (.inr ⟨hl, hmode⟩))
    | never => cases he

/-- Rho itself, behind the checks. -/
theorem exists_rho_script (s : State) {n : Nat} (hodd : n % 2 = 1) (hlt : n < 2 ^ 128) (a : Nat) :
    ∃ vs e, RhoRecords s n vs e ∧ ∀ f, finishRun (engineRun (.rho n a) { s with facc := f }) { s with facc := f } =
      .next (endedState (vs.map fun v => (v, 1)) f e { s with facc := f }) := by
  obtain ⟨vs, e, hplays, hends⟩ :=
    (callSpec_engineCall s.params.tdCount s.proveSample Config.nesting).rho n hlt a hodd
  refine ⟨vs, e.runEnd, .of_rhoEnds hends, fun f => ?_⟩
  rw [← finishRun_play, ← hplays f]
  rfl

theorem runsRho_rho1 (rn : Reg) (a : Nat) (s : State) : RunsRho (.rho1 rn a) (lowWord rn s) s := by
  have hexec : ∀ f, exec (.rho1 rn a) { s with facc := f } = _ := fun f => exec_rho1 rn a { s with facc := f }
  change ∀ f, _ = if lowWord rn s % 2 = 0 then _ else if lowWord rn s < 3 ∨ lowWord rn s ≤ a then _ else
    finishRun (engineRun (.rho (lowWord rn s) a) _) _ at hexec
  by_cases heven : lowWord rn s % 2 = 0
  · exact ⟨[], _, .of_check s _ (.inl rfl), fun f => by rw [hexec, if_pos heven]; rfl⟩
  by_cases hrange : lowWord rn s < 3 ∨ lowWord rn s ≤ a
  · exact ⟨[], _, .of_check s _ (.inr (.inl rfl)), fun f => by rw [hexec, if_neg heven, if_pos hrange]; rfl⟩
  have hlt : lowWord rn s < 2 ^ 64 := lowWord_lt rn s
  obtain ⟨vs, e, hrec, hruns⟩ := exists_rho_script s (n := lowWord rn s) (by omega) (by omega) a
  exact ⟨vs, e, hrec, fun f => by rw [hexec, if_neg heven, if_neg hrange, hruns]⟩

theorem runsRho_rho2 (rn : Reg) (a : Nat) (s : State) : RunsRho (.rho2 rn a) (fullValue rn s) s := by
  have hexec : ∀ f, exec (.rho2 rn a) { s with facc := f } = _ := fun f => exec_rho2 rn a { s with facc := f }
  change ∀ f, _ = if fullValue rn s % 2 = 0 then _ else if 2 ^ 127 ≤ fullValue rn s then _ else
    if fullValue rn s < 3 ∨ fullValue rn s ≤ a then _ else finishRun (engineRun (.rho (fullValue rn s) a) _) _ at hexec
  by_cases heven : fullValue rn s % 2 = 0
  · exact ⟨[], _, .of_check s _ (.inl rfl), fun f => by rw [hexec, if_pos heven]; rfl⟩
  by_cases htop : 2 ^ 127 ≤ fullValue rn s
  · exact ⟨[], _, .of_check s _ (.inr (.inr ⟨rfl, htop⟩)), fun f => by rw [hexec, if_neg heven, if_pos htop]; rfl⟩
  by_cases hrange : fullValue rn s < 3 ∨ fullValue rn s ≤ a
  · exact ⟨[], _, .of_check s _ (.inr (.inl rfl)), fun f => by
      rw [hexec, if_neg heven, if_neg htop, if_pos hrange]; rfl⟩
  obtain ⟨vs, e, hrec, hruns⟩ := exists_rho_script s (n := fullValue rn s) (by omega) (fullValue_lt rn s) a
  exact ⟨vs, e, hrec, fun f => by rw [hexec, if_neg heven, if_neg htop, if_neg hrange, hruns]⟩

theorem RhoRecords.insertable {s : State} {n : Nat} {vs : List Nat} {e : RunEnd} (h : RhoRecords s n vs e)
    (hn : n ≠ 0) (hlt : n < 2 ^ 128) : ∀ vm ∈ vs.map fun v => (v, 1), Insertable vm := by
  refine List.forall_mem_map.mpr fun v hv => insertable_one (lt_of_le_of_lt ?_ hlt)
  exact Nat.le_of_dvd (Nat.pos_of_ne_zero hn) ((List.dvd_prod hv).trans h.dvd)

/-- A rho command that completes multiplies the value by its operand. -/
theorem RunsRho.conserves {i : Instr} {n : Nat} {s : State} {acc : Facc} (h : RunsRho i n s) (hlt : n < 2 ^ 128)
    (hwf : s.facc.Wf) (hdone : s.status.done = false) (hexec : exec i s = .next (faccState acc s)) :
    acc.value = s.facc.value * n ∧ acc.Wf := by
  obtain ⟨vs, e, hrec, hruns⟩ := h
  obtain ⟨hall, he⟩ := completed_of_endedState hdone
    (Host.Outcome.next.inj ((hruns s.facc).symm.trans hexec))
  have hprod := hrec.completes he
  have hpos : n ≠ 0 := by
    rw [← hprod]
    exact List.prod_ne_zero fun h0 => absurd (hrec.two_le 0 h0) (by norm_num)
  obtain ⟨hwf', hadds⟩ := addsAll_recordAll (hrec.insertable hpos hlt) hwf hall
  exact ⟨by rw [(hadds rfl).value, insertsProd_map_one, hprod], hwf'⟩

end Sys2Proof.Machine
end

section
/-!
PROOFS. The statement of spec/44_rho_factor.md on the value that rho conserves.
-/
open Sys2Proof Sys2Proof.Machine

/-- Settles O45: the values that rho records multiply to its operand, and each insert multiplies the value. -/
theorem rhoConservesValue : Obligations.RhoConservesValue := by
  intro rn a s acc hwf _ hdone
  have hword : lowWord rn s < 2 ^ 64 := lowWord_lt rn s
  exact ⟨(runsRho_rho1 rn a s).conserves (by omega) hwf hdone,
    (runsRho_rho2 rn a s).conserves (fullValue_lt rn s) hwf hdone⟩
end

section
/-!
PROOFS. FACTOR (spec/44_rho_factor.md R172, R173): trial division and then rho from the empty accumulator; with a legal
table its inserts never fail.
-/
namespace Sys2Proof.Machine

theorem exec_factor (rn : Reg) (s : State) :
    exec (.factor rn) s = finishRun (engineRun (.factor (fullValue rn s)) s) s := by
  rw [exec, execFactor, dwordOperand_eq_fullValue]

theorem exec_factor_lt_two {rn : Reg} {s : State} (h : fullValue rn s < 2) :
    exec (.factor rn) s = .next (faccState Facc.empty s) := by
  have hrun : engineRun (.factor (fullValue rn s)) s = .done true Facc.empty := if_pos h
  rw [exec_factor, hrun]
  rfl

/-- Whatever the table and the old accumulator, FACTOR runs one script from the empty one. -/
theorem exists_factor_script (rn : Reg) {s : State} (h2 : 2 ≤ fullValue rn s) :
    ∃ k vs e, TrialTries s.params.tdCount (fullValue rn s) k ∧
      RhoEnds s.params.tdCount s.proveSample (trialResidue s.params.tdCount k (fullValue rn s)) vs e ∧
      ∀ f, exec (.factor rn) { s with facc := f } =
        .next (endedState (trialScript s.params.tdCount (fullValue rn s) k ++ vs.map fun v => (v, 1)) Facc.empty e.runEnd
          { s with facc := f }) := by
  obtain ⟨k, vs, e, htries, hends, hruns⟩ := factorBody_plays
    (callSpec_engineCall s.params.tdCount s.proveSample (Config.nesting - 1)) (fullValue_lt rn s) h2
  refine ⟨k, vs, e, htries, hends, fun f => ?_⟩
  rw [exec_factor, ← finishRun_play, ← hruns f]
  rfl

section Legal
variable {s : State} (hlegal : s.params.legal = true) {rn : Reg}
include hlegal

/-- What is left beside table primes is prime or at least `FOP^2`. -/
theorem prime_or_large_of_rhoEnds {n k : Nat} {vs : List Nat} {e : Ending Bool} (hn : n ≠ 0)
    (htries : TrialTries s.params.tdCount n k)
    (hends : RhoEnds s.params.tdCount s.proveSample (trialResidue s.params.tdCount k n) vs e) :
    ∀ v ∈ vs, v.Prime ∨ 101 ≤ v := by
  intro v hv
  have hfop := le_fopSquared hlegal
  by_cases hlt : v < fopSquared s
  · exact .inl (clean_trialResidue hn htries v ((List.dvd_prod hv).trans hends.dvd) (hends.two_le v hv) hlt)
  · exact .inr (by omega)

/-- With a legal table every insert of FACTOR completes. -/
theorem exists_factor_run (h2 : 2 ≤ fullValue rn s) : ∃ k vs e L,
    TrialTries s.params.tdCount (fullValue rn s) k ∧
    RhoEnds s.params.tdCount s.proveSample (trialResidue s.params.tdCount k (fullValue rn s)) vs e ∧
    recordAll (trialInserts s.params.tdCount k (fullValue rn s) ++ vs.map fun v => (v, 1)) Facc.empty = (L, none) ∧
    L.Wf ∧ (e.runEnd = .completes → L.value = fullValue rn s) ∧
    exec (.factor rn) s = .next (e.runEnd.stateAfter L s) := by
  have hn : fullValue rn s ≠ 0 := by omega
  obtain ⟨k, vs, e, htries, hends, hruns⟩ := exists_factor_script rn h2
  have hk := htries.le
  obtain ⟨L, hrec, hwf, hadds⟩ := recordAll_of_fits
    (fits_factorPlays hn (fullValue_lt rn s) htries hends (prime_or_large_of_rhoEnds hlegal hn htries hends))
  have hexec := (hruns s.facc).trans (congrArg _ (endedState_of_recordAll_none hrec e.runEnd s))
  rw [trialScript_eq (legal_word hlegal) hn hk] at hrec hadds
  refine ⟨k, vs, e, L, htries, hends, hrec, hwf, fun he => ?_, hexec⟩
  obtain ⟨b, rfl⟩ : ∃ b, e = .returns b := by
    cases e with
    | returns b => exact ⟨b, rfl⟩
    | faults code => cases he
    | never => cases he
  rw [hadds.value, value_empty, one_mul, insertsProd_append, insertsProd_map_one, hends.completes b rfl, mul_comm,
    (stripped hn hk).eq]

/-- The states a running FACTOR completes in. -/
theorem completed_factor (hdone : s.status.done = false) (h2 : 2 ≤ fullValue rn s) {acc : Facc}
    (hexec : exec (.factor rn) s = .next (faccState acc s)) : ∃ k vs b,
    TrialTries s.params.tdCount (fullValue rn s) k ∧
    RhoEnds s.params.tdCount s.proveSample (trialResidue s.params.tdCount k (fullValue rn s)) vs (.returns b) ∧
    recordAll (trialInserts s.params.tdCount k (fullValue rn s) ++ vs.map fun v => (v, 1)) Facc.empty = (acc, none) ∧
    acc.Wf ∧ acc.value = fullValue rn s := by
  obtain ⟨k, vs, e, L, htries, hends, hrec, hwf, hvalue, hruns⟩ := exists_factor_run hlegal h2
  have hstate := Host.Outcome.next.inj (hruns.symm.trans hexec)
  have hstatus := congrArg (fun u : State => u.status.done) hstate
  cases e with
  | returns b =>
    obtain rfl : L = acc := congrArg State.facc hstate
    exact ⟨k, vs, b, htries, hends, hrec, hwf, hvalue rfl⟩
  | faults code => exact absurd (hdone.symm.trans hstatus) Bool.false_ne_true
  | never => exact absurd (hdone.symm.trans hstatus) Bool.false_ne_true

omit hlegal in
/-- An odd number without table factor leaves trial division as it is. -/
theorem trialInserts_eq_nil {n k : Nat} (hn : n ≠ 0) (hodd : n % 2 = 1) (htable : NoTableFactor s n)
    (hk : k ≤ s.params.tdCount) : trialInserts s.params.tdCount k n = [] := by
  refine List.eq_nil_iff_forall_not_mem.mpr fun vm hvm => ?_
  obtain ⟨hpos, -, hmem, -⟩ := mem_trialInserts hn hk hvm
  have hdvd : vm.1 ∣ n := (dvd_pow_self _ (by omega)).trans
    ((pow_dvd_insertsProd hvm).trans (Dvd.intro_left _ (stripped hn hk).eq))
  obtain h2 | hmem := hmem
  · rw [h2] at hdvd
    omega
  · exact htable _ (List.mem_of_mem_take hmem) hdvd

omit hlegal in
/-- Two words with the top bit left: then nothing was divided out. -/
theorem noTableFactor_of_large {n k : Nat} (hn : n ≠ 0) (hlt : n < 2 ^ 128) (htries : TrialTries s.params.tdCount n k)
    (htop : 2 ^ 127 ≤ trialResidue s.params.tdCount k n) : n % 2 = 1 ∧ 2 ^ 127 ≤ n ∧ NoTableFactor s n := by
  obtain rfl := htries.eq_of_large hn (le_trans (by norm_num) htop)
  have hstrip := stripped (td := s.params.tdCount) hn le_rfl
  have hprod : insertsProd (trialInserts s.params.tdCount s.params.tdCount n) = 1 := by
    have heq := hstrip.eq
    by_contra hne
    have hzero : insertsProd (trialInserts s.params.tdCount s.params.tdCount n) ≠ 0 := by
      intro h0
      rw [h0, mul_zero] at heq
      omega
    have := Nat.mul_le_mul htop
      (by omega : 2 ≤ insertsProd (trialInserts s.params.tdCount s.params.tdCount n))
    omega
  have heq : trialResidue s.params.tdCount s.params.tdCount n = n := by
    have heq := hstrip.eq
    rwa [hprod, mul_one] at heq
  have hodd := hstrip.odd
  rw [heq] at htop hodd
  refine ⟨hodd, htop, fun p hp => ?_⟩
  have := hstrip.not_dvd p (by rwa [List.take_of_length_le (length_tablePrimes _).le])
  rwa [heq] at this

omit hlegal in
/-- At the edge of the domain (spec/70_reset_and_hazards.md R241). -/
theorem engineCall_factor_topBit {n : Nat} (proving : Bool) (d : Nat) (hlt : n < 2 ^ 128) (hodd : n % 2 = 1)
    (htop : 2 ^ 127 ≤ n) (htable : NoTableFactor s n) (acc : Facc) :
    engineCall s.params.tdCount proving (d + 2) (.factor n) acc = .fault .topBit Facc.empty := by
  have hn : n ≠ 0 := by omega
  obtain ⟨k, hk, -, htdiv⟩ := tdiv_plays s.params.tdCount hn hlt
  have hnil := trialInserts_eq_nil hn hodd htable hk
  have hres : trialResidue s.params.tdCount k n = n := by rw [trialResidue_eq, hnil, insertsProd_nil, Nat.div_one]
  rw [trialScript, hnil, hres] at htdiv
  have hask : ∀ acc, engineCall s.params.tdCount proving (d + 1) (.prime n) acc = .fault .topBit acc := fun acc => by
    rw [engineCall, oracle, if_neg (by omega), if_neg (fun h => absurd h.1 (by simp only [Config.base]; omega)),
      if_neg (by omega), if_pos (show Config.topBit ≤ n from htop)]
  rw [engineCall, factorBody, if_neg (by omega), htdiv Facc.empty]
  show (if n = 1 then _ else settle _ _ _ _) = _
  rw [if_neg (by omega), settle, hask]
  rfl

omit hlegal in
theorem exec_factor_topBit (hodd : fullValue rn s % 2 = 1) (htop : 2 ^ 127 ≤ fullValue rn s)
    (htable : NoTableFactor s (fullValue rn s)) :
    exec (.factor rn) s = .next (raiseFault .topBit { s with facc := Facc.empty }) := by
  have hrun : engineRun (.factor (fullValue rn s)) s = .fault .topBit Facc.empty :=
    engineCall_factor_topBit s.proveSample (Config.nesting - 2) (fullValue_lt rn s) hodd htop htable s.facc
  rw [exec_factor, hrun]
  rfl

end Legal
end Sys2Proof.Machine
end

section
/-!
PROOFS. The statements of spec/44_rho_factor.md on FACTOR (R172, R173) and the edge of the two-word domain
(spec/70_reset_and_hazards.md R241).
-/
open Sys2Proof Sys2Proof.Machine

/-- Settles O47: what trial division leaves is below `FOP^2` like the operand, and the oracle accepts it. -/
theorem factorExactBelowFopSquared : Obligations.FactorExactBelowFopSquared := by
  intro rn s hlegal hlt
  refine ⟨encodedAs_of_encodeWord rfl (by simp [encodeWord, packSlots]), ?_⟩
  have hfop := fopSquared_lt hlegal
  by_cases h2 : fullValue rn s < 2
  · refine ⟨Facc.empty, exec_factor_lt_two h2, Facc.empty_wf, rfl, by simp [Facc.empty], fun _ => rfl, fun h1 => ?_⟩
    rw [value_empty]
    omega
  · have hn : fullValue rn s ≠ 0 := by omega
    obtain ⟨L, hwf, hL, hruns⟩ := engineCall_factor_small (td := s.params.tdCount) s.proveSample (Config.nesting - 2)
      (not_lt.mp h2) (fullValue_lt rn s) fun k hk => by
        have hres := (trialResidue_le hn hk.le).trans_lt hlt
        exact ⟨hres.trans hfop, hres⟩
    obtain ⟨hvalue, hholds⟩ := hL (legal_word hlegal)
    have hrun : engineRun (.factor (fullValue rn s)) s = .done true L := hruns s.facc
    refine ⟨L, by rw [exec_factor, hrun]; rfl, hwf, hwf.emptyLarge ?_, fun en hen => ((hholds _).mp (.inl ⟨en, hen, rfl⟩)).1,
      fun h => absurd h h2, fun _ => hvalue⟩
    by_contra hne
    have hle := Nat.le_of_dvd (Nat.pos_of_ne_zero hn) ((hholds _).mp (.inr ⟨hne, rfl⟩)).2
    exact hne (hiWord_eq_zero_iff.mpr (by omega))

/-- Settles O48: the inserts never fail, so a fault is one of the oracle's or rho's. -/
theorem factorValueEqualsOperand : Obligations.FactorValueEqualsOperand := by
  intro rn s hlegal
  refine ⟨fun acc _ hdone h1 hexec => ?_, fun t herr hexec hterr => ?_⟩
  · by_cases h2 : fullValue rn s < 2
    · obtain rfl : Facc.empty = acc :=
        congrArg State.facc (Host.Outcome.next.inj ((exec_factor_lt_two h2).symm.trans hexec))
      exact ⟨by rw [value_empty]; omega, Facc.empty_wf⟩
    · obtain ⟨k, vs, b, -, -, -, hwf, hvalue⟩ := completed_factor hlegal hdone (not_lt.mp h2) hexec
      exact ⟨hvalue, hwf⟩
  · by_cases h2 : fullValue rn s < 2
    · obtain rfl := Host.Outcome.next.inj ((exec_factor_lt_two h2).symm.trans hexec)
      exact absurd (herr.symm.trans hterr) Bool.false_ne_true
    · have hn : fullValue rn s ≠ 0 := by omega
      obtain ⟨k, vs, e, L, htries, hends, -, -, -, hruns⟩ := exists_factor_run hlegal (not_lt.mp h2)
      obtain rfl := Host.Outcome.next.inj (hruns.symm.trans hexec)
      cases e with
      | returns b => exact absurd (herr.symm.trans hterr) Bool.false_ne_true
      | never => exact absurd (herr.symm.trans hterr) Bool.false_ne_true
      | faults code =>
        have hedge : fullValue rn s % 2 = 1 ∧ 2 ^ 127 ≤ fullValue rn s ∧ NoTableFactor s (fullValue rn s) →
            code = .topBit := fun ⟨hodd, htop, htable⟩ => by
          have := Host.Outcome.next.inj (hruns.symm.trans (exec_factor_topBit hodd htop htable))
          exact FaultCode.code_injective (congrArg State.ecause this)
        show (code.code = 3 ↔ _) ∧ (code.code = 3 ∨ code.code = 4 ∨ (code.code = 9 ∧ _))
        have hcodes := hends.faults code rfl
        refine ⟨⟨fun h3 => ?_, fun h => hedge h ▸ rfl⟩, ?_⟩
        · obtain rfl : code = .topBit := FaultCode.code_injective h3
          obtain h | ⟨-, htop⟩ | ⟨-, h | ⟨h, -⟩⟩ := hcodes
          · cases h
          · exact noTableFactor_of_large hn (fullValue_lt rn s) htries htop
          · cases h
          · cases h
        · obtain rfl | ⟨rfl, -⟩ | ⟨hmode, rfl | ⟨rfl, -⟩⟩ := hcodes
          · exact .inr (.inl rfl)
          · exact .inl rfl
          · exact .inr (.inl rfl)
          · exact .inr (.inr ⟨rfl, hmode⟩)

/-- Settles O49: trial division records primes, and in proof mode rho records what the oracle proved. -/
theorem factorProofModeGivesPrimes : Obligations.FactorProofModeGivesPrimes := by
  intro rn s acc hlegal hmode _ hdone hexec
  by_cases h2 : fullValue rn s < 2
  · obtain rfl : Facc.empty = acc :=
      congrArg State.facc (Host.Outcome.next.inj ((exec_factor_lt_two h2).symm.trans hexec))
    exact ⟨by simp [Facc.empty], fun h => absurd rfl h⟩
  · have hn : fullValue rn s ≠ 0 := by omega
    obtain ⟨k, vs, b, htries, hends, hrec, -⟩ := completed_factor hlegal hdone (not_lt.mp h2) hexec
    obtain ⟨L, hrec', -, hL⟩ := factorization_completes hn (fullValue_lt rn s) htries hends
      (hends.primes hmode (clean_trialResidue hn htries))
    rw [trialScript_eq (legal_word hlegal) hn htries.le, hrec] at hrec'
    obtain rfl : acc = L := congrArg Prod.fst hrec'
    have hholds := (hL (legal_word hlegal)).2
    exact ⟨fun en hen => ((hholds _).mp (.inl ⟨en, hen, rfl⟩)).1, fun h => ((hholds _).mp (.inr ⟨h, rfl⟩)).1⟩

/-- Settles O50. -/
theorem topBitAtEdgeOfDomain : Obligations.TopBitAtEdgeOfDomain := by
  intro rd rn a s hlegal hodd htop htable
  have hfop := fopSquared_lt hlegal
  have hask := askOracle_topBit hlegal (n := fullValue rn s) (by omega) hodd htop
  refine ⟨?_, ?_, ?_, exec_factor_topBit hodd htop htable⟩
  · rw [exec_isprime_none (isprimeEarly_none (fullValue_lt rn s) (by omega) hodd htable), hask]
    rfl
  · rw [exec_prime2, hask]
    rfl
  · rw [exec_rho2, if_neg (by omega), if_pos htop]
end

section
/-!
PROOFS. What every command can do, with what it writes and raises (spec/30_encoding.md section 3, spec/60_exceptions.md
R206, R211, spec/70_reset_and_hazards.md R238): one effect for the state as it is and for the state with other `FLAGS`.
-/
namespace Sys2Proof.Machine

/-! ### Effects -/

/-- What a command does: complete with the registers, `FLAGS` if it writes them, and `FACC` given; fault with `FACC`
given; or not return. -/
inductive Effect where
  | completes (x : Vector Dword 16) (flags : Option Flags) (acc : Facc)
  | faults (code : FaultCode) (acc : Facc)
  | never

def Effect.apply : Effect → State → State
  | .completes x flags acc, s => complete { s with x := x, flags := flags.getD s.flags, facc := acc }
  | .faults code acc, s => raiseFault code { s with facc := acc }
  | .never, s => s

/-- The accumulator from which a command makes more than one insert (spec/60_exceptions.md R206). -/
def insertsFrom (i : Instr) (s : State) : Option Facc :=
  match i with
  | .tdiv _ _ => some s.facc
  | .rho1 _ _ => some s.facc
  | .rho2 _ _ => some s.facc
  | .factor _ => some Facc.empty
  | _ => none

/-- The effects the command `i` can have in state `s`. -/
inductive Allowed (i : Instr) (s : State) : Effect → Prop where
  | completes {x : Vector Dword 16} {flags : Option Flags} {acc : Facc}
      (hx : ∀ r : Reg, destOf i ≠ some r → x[r.val] = s.x[r.val]) (hflags : writesFlags i = flags.isSome)
      (hfacc : writesFacc i = false → acc = s.facc) (hwf : WellFormed i → s.facc.Wf → acc.Wf) :
      Allowed i s (.completes x flags acc)
  | faults {code : FaultCode} {acc : Facc} (hcode : code ≠ .illegal) (hflags : writesFlags i = false)
      (hlisted : s.params.legal = true → code ∈ faultCodes s.proveSample i)
      (hkept : insertsFrom i s = none → acc = s.facc)
      (hinserts : ∀ f, insertsFrom i s = some f → CompletedInserts f acc code.code) (hwf : s.facc.Wf → acc.Wf) :
      Allowed i s (.faults code acc)
  | never (hends : alwaysEnds s.proveSample i = false) (hflags : writesFlags i = false) : Allowed i s .never

/-- `s` with other `FLAGS`. -/
def withFlags (f : Flags) (s : State) : State := { s with flags := f }

/-- The answers `r` in `s` and `r'` in `s` with the flags `f` are one effect of `i`. -/
def Does (i : Instr) (s : State) (f : Flags) (r r' : Result) : Prop :=
  ∃ eff, Allowed i s eff ∧ r = .next (eff.apply s) ∧ r' = .next (eff.apply (withFlags f s))

/-! ### Completed inserts -/

/-- The codes of a failing insert (spec/60_exceptions.md R201). -/
def FaultCode.OfInsert (code : FaultCode) : Prop := code = .accFull ∨ code = .accLarge ∨ code = .accMult

theorem insertLarge_error {v : Dword} {f : Facc} {code : FaultCode} (h : insertLarge v f = .error code) :
    code = .accFull ∨ code = .accMult ∨ code = .accLarge := by
  unfold insertLarge at h
  split_ifs at h
  · exact (insertPrime_error h).imp_right .inl
  · cases h
    exact .inr (.inr rfl)

theorem completedInserts_of_recordAll_none {ins : List (Nat × Nat)} {f acc : Facc} {code : FaultCode}
    (h : recordAll ins f = (acc, none)) (hcode : ¬code.OfInsert) : CompletedInserts f acc code.code :=
  ⟨ins, h, fun _ hc hof => absurd (FaultCode.code_injective hc ▸ hof) hcode⟩

theorem completedInserts_of_recordAll_some {ins : List (Nat × Nat)} {f acc : Facc} {code : FaultCode}
    (h : recordAll ins f = (acc, some code)) : CompletedInserts f acc code.code := by
  obtain ⟨ins', v, m, hdone, hfail⟩ := exists_completed_of_recordAll_some h
  exact ⟨ins', hdone, fun _ hc _ => ⟨v, m, FaultCode.code_injective hc ▸ hfail⟩⟩

/-! ### The ends of commands, as effects -/

section Ends
variable {i : Instr} {s : State} {f : Flags}

/-- A fault that leaves `FACC` as it is and is no insert's: that of a check, or of the oracle. -/
theorem allowed_fault_kept {code : FaultCode} (hstart : ∀ a, insertsFrom i s = some a → a = s.facc)
    (hflags : writesFlags i = false) (hlisted : code ∈ faultCodes s.proveSample i)
    (hcode : code ≠ .illegal ∧ ¬code.OfInsert) : Allowed i s (.faults code s.facc) :=
  .faults hcode.1 hflags (fun _ => hlisted) (fun _ => rfl)
    (fun a ha => hstart a ha ▸ completedInserts_of_recordAll_none (recordAll_nil _) hcode.2) id

theorem does_trap {code : FaultCode} (h : Allowed i s (.faults code s.facc)) :
    Does i s f (trap code s) (trap code (withFlags f s)) :=
  ⟨_, h, rfl, rfl⟩

theorem does_guarded {checks : List (Bool × FaultCode)} {go go' : Unit → Result}
    (hchecks : ∀ check ∈ checks, Allowed i s (.faults check.2 s.facc)) (hgo : Does i s f (go ()) (go' ())) :
    Does i s f (guarded checks s go) (guarded checks (withFlags f s) go') := by
  induction checks with
  | nil => exact hgo
  | cons check rest ih =>
    obtain ⟨ok, code⟩ := check
    cases ok with
    | true => exact ih fun c hc => hchecks c (.tail _ hc)
    | false => exact does_trap (hchecks _ List.mem_cons_self)

theorem does_writeReg {rd : Reg} (hdest : destOf i = some rd) (hflags : writesFlags i = false) (v : Dword) :
    Does i s f (finish (writeReg rd v s)) (finish (writeReg rd v (withFlags f s))) := by
  refine ⟨.completes (s.x.set rd.val v) none s.facc, .completes (fun r hr => ?_) hflags (fun _ => rfl) fun _ h => h,
    rfl, rfl⟩
  refine Vector.getElem_set_ne _ _ fun heq => hr ?_
  rw [hdest, Fin.ext heq]

/-- The checks of a command are in its row of R211. -/
theorem allowed_checks {codes : List FaultCode} (hstart : ∀ a, insertsFrom i s = some a → a = s.facc)
    (hflags : writesFlags i = false) (hlisted : ∀ code ∈ codes, code ∈ faultCodes s.proveSample i)
    (hcodes : ∀ code ∈ codes, code ∈ [FaultCode.even, .topBit, .range, .inv]) :
    ∀ code ∈ codes, Allowed i s (.faults code s.facc) := by
  have hnone : ∀ code ∈ [FaultCode.even, .topBit, .range, .inv], code ≠ .illegal ∧ ¬code.OfInsert := by
    simp [FaultCode.OfInsert]
  exact fun code h => allowed_fault_kept hstart hflags (hlisted code h) (hnone code (hcodes code h))

theorem does_finishVerdict {rd : Reg} {r : Run Bool} (hdest : destOf i = some rd) (hflags : writesFlags i = false)
    (hfault : ∀ code acc, r = .fault code acc → Allowed i s (.faults code s.facc))
    (hnever : r = .hang → alwaysEnds s.proveSample i = false) :
    Does i s f (finishVerdict rd r s) (finishVerdict rd r (withFlags f s)) := by
  cases r with
  | done b acc => exact does_writeReg hdest hflags _
  | fault code acc => exact does_trap (hfault code acc rfl)
  | hang => exact ⟨.never, .never (hnever rfl) hflags, rfl, rfl⟩

theorem does_finishInsert {r : Except FaultCode Facc} (hstart : insertsFrom i s = none)
    (hflags : writesFlags i = false) (hfacc : writesFacc i = true)
    (hok : ∀ acc, r = .ok acc → WellFormed i → s.facc.Wf → acc.Wf)
    (herror : ∀ code, r = .error code → code.OfInsert ∧ code ∈ faultCodes s.proveSample i) :
    Does i s f (finishInsert r s) (finishInsert r (withFlags f s)) := by
  cases r with
  | ok acc =>
    refine ⟨.completes s.x none acc, .completes (fun _ _ => rfl) hflags (fun h => ?_) (hok acc rfl), rfl, rfl⟩
    exact absurd (hfacc.symm.trans h) Bool.noConfusion
  | error code =>
    obtain ⟨hof, hlisted⟩ := herror code rfl
    refine does_trap (.faults ?_ hflags (fun _ => hlisted) (fun _ => rfl) (fun a ha => ?_) id)
    · rintro rfl
      simp [FaultCode.OfInsert] at hof
    · cases hstart.symm.trans ha

section Script
variable {ins : List (Nat × Nat)} {a acc : Facc} {code : FaultCode} (hstart : insertsFrom i s = some a)
  (hflags : writesFlags i = false)
include hstart hflags

theorem allowed_fault_of_insert (h : recordAll ins a = (acc, some code))
    (hlisted : s.params.legal = true → code ∈ faultCodes s.proveSample i) (hwf : s.facc.Wf → acc.Wf) :
    Allowed i s (.faults code acc) := by
  refine .faults ?_ hflags hlisted (fun hnone => ?_) (fun b hb => ?_) hwf
  · rintro rfl
    obtain h | h | ⟨h, -⟩ := recordAll_error h <;> cases h
  · cases hstart.symm.trans hnone
  · cases hstart.symm.trans hb
    exact completedInserts_of_recordAll_some h

theorem allowed_fault_of_end (h : recordAll ins a = (acc, none)) (hcode : code ≠ .illegal ∧ ¬code.OfInsert)
    (hlisted : code ∈ faultCodes s.proveSample i) (hwf : s.facc.Wf → acc.Wf) : Allowed i s (.faults code acc) := by
  refine .faults hcode.1 hflags (fun _ => hlisted) (fun hnone => ?_) (fun b hb => ?_) hwf
  · cases hstart.symm.trans hnone
  · cases hstart.symm.trans hb
    exact completedInserts_of_recordAll_none h hcode.2

theorem does_finishRun_play {e : Ending Bool} (hfacc : writesFacc i = true)
    (hends : alwaysEnds s.proveSample i = false) (hwf : s.facc.Wf → (recordAll ins a).1.Wf)
    (hinsert : s.params.legal = true → ∀ acc code, recordAll ins a = (acc, some code) →
      code ∈ faultCodes s.proveSample i)
    (hfault : ∀ code, e = .faults code →
      (code ≠ .illegal ∧ ¬code.OfInsert) ∧ code ∈ faultCodes s.proveSample i) :
    Does i s f (finishRun (play ins e a) s) (finishRun (play ins e a) (withFlags f s)) := by
  cases hrec : recordAll ins a with
  | mk acc failed =>
    rw [hrec] at hwf
    cases failed with
    | some code =>
      rw [play_of_recordAll_some hrec]
      exact ⟨_, allowed_fault_of_insert hstart hflags hrec (fun h => hinsert h acc code hrec) hwf, rfl, rfl⟩
    | none =>
      rw [play_of_recordAll_none hrec]
      cases e with
      | returns b =>
        refine ⟨.completes s.x none acc, .completes (fun _ _ => rfl) hflags (fun h => ?_) (fun _ => hwf), rfl, rfl⟩
        exact absurd (hfacc.symm.trans h) Bool.noConfusion
      | faults code =>
        obtain ⟨hcode, hlisted⟩ := hfault code rfl
        exact ⟨_, allowed_fault_of_end hstart hflags hrec hcode hlisted hwf, rfl, rfl⟩
      | never => exact ⟨.never, .never hends hflags, rfl, rfl⟩

end Script

end Ends

/-! ### The commands -/

section Commands
variable (s : State) (f : Flags)

theorem does_tdiv (rd ra : Reg) : Does (.tdiv rd ra) s f (exec (.tdiv rd ra) s) (exec (.tdiv rd ra) (withFlags f s)) := by
  rw [exec_tdiv, exec_tdiv]
  change Does _ s f _ (if fullValue ra s = 0 then _ else match tdiv s.params.tdCount (fullValue ra s) s.facc with
    | .done r acc => finish (writeDword rd r (setFacc acc (withFlags f s)))
    | .fault code acc => trap code (setFacc acc (withFlags f s))
    | .hang => .next (withFlags f s))
  by_cases ht : fullValue ra s = 0
  · rw [if_pos ht, if_pos ht]
    exact does_trap (allowed_fault_kept (fun a ha => (Option.some.inj ha).symm) rfl (by simp [faultCodes])
      (by simp [FaultCode.OfInsert]))
  · rw [if_neg ht, if_neg ht]
    have hlt := fullValue_lt ra s
    obtain ⟨k, hk, -, hplays⟩ := tdiv_plays s.params.tdCount ht hlt
    have hins := fun vm h => insertable_trialScript (vm := vm) ht hlt hk h
    cases hrec : recordAll (trialScript s.params.tdCount (fullValue ra s) k) s.facc with
    | mk acc failed =>
      have hwf : s.facc.Wf → acc.Wf := fun h => (addsAll_recordAll (fun vm hvm => (hins vm hvm).1) h hrec).1
      cases failed with
      | some code =>
        rw [hplays, play_of_recordAll_some hrec]
        refine ⟨.faults code acc, allowed_fault_of_insert rfl rfl hrec (fun _ => ?_) hwf, rfl, rfl⟩
        obtain rfl | rfl | ⟨-, vm, hvm, hlarge⟩ := recordAll_error hrec
        · simp [faultCodes]
        · simp [faultCodes]
        · have := (hins vm hvm).2
          omega
      | none =>
        rw [hplays, play_of_recordAll_none hrec]
        refine ⟨.completes (s.x.set rd.val _) none acc, .completes (fun r hr => ?_) rfl (fun h => by cases h)
          (fun _ => hwf), rfl, rfl⟩
        exact Vector.getElem_set_ne _ _ fun heq => hr (congrArg some (Fin.ext heq))

/-- The codes of the oracle (R211). -/
theorem askOracle_fault {n : Nat} {code : FaultCode} {acc : Facc} (h : askOracle s n = .fault code acc) :
    (code = .even ∧ n % 2 = 0) ∨ (code = .topBit ∧ 2 ^ 127 ≤ n) ∨
      (s.proveSample = true ∧ (code = .range ∨ code = .lucasFail)) := by
  obtain ⟨e, hends, -, hrun⟩ := askOracle_ends s (n := n)
  rw [hrun] at h
  cases e with
  | faults code' =>
    cases h
    exact (hends.faults _ rfl).imp_right (.imp_right (.imp_right (.imp_right And.left)))
  | returns b => cases h
  | never => cases h

theorem askOracle_hang {n : Nat} (h : askOracle s n = .hang) : s.proveSample = true := by
  obtain ⟨e, -, hnever, hrun⟩ := askOracle_ends s (n := n)
  rw [hrun] at h
  cases e with
  | never => exact hnever rfl
  | returns b => cases h
  | faults code => cases h

/-- What the script of rho on `n` can raise, beside the failing inserts. -/
theorem RhoEnds.code {td n : Nat} {proving : Bool} {vs : List Nat} {e : Ending Bool} {code : FaultCode}
    (h : RhoEnds td proving n vs e) (he : e = .faults code) :
    code = .range ∨ (code = .topBit ∧ 2 ^ 127 ≤ n) ∨ (proving = true ∧ code = .lucasFail) := by
  obtain hr | ht | ⟨hmode, hr | ⟨hl, -⟩⟩ := h.faults code he
  · exact .inl hr
  · exact .inr (.inl ht)
  · exact .inl hr
  · exact .inr (.inr ⟨hmode, hl⟩)

/-- RHO1 and RHO2 behind their checks. -/
theorem does_rho {i : Instr} {n : Nat} (a : Nat) (hodd : n % 2 = 1) (hlt : n < 2 ^ 128)
    (hi : insertsFrom i s = some s.facc ∧ writesFlags i = false ∧ writesFacc i = true ∧
      alwaysEnds s.proveSample i = false)
    (hlarge : 2 ^ 64 ≤ n → .topBit ∈ faultCodes s.proveSample i ∧ .accLarge ∈ faultCodes s.proveSample i)
    (hlisted : FaultCode.range ∈ faultCodes s.proveSample i ∧ .accFull ∈ faultCodes s.proveSample i ∧
      .accMult ∈ faultCodes s.proveSample i ∧ (s.proveSample = true → .lucasFail ∈ faultCodes s.proveSample i)) :
    Does i s f (finishRun (engineRun (.rho n a) s) s) (finishRun (engineRun (.rho n a) (withFlags f s)) (withFlags f s)) := by
  obtain ⟨hstart, hflags, hfacc, halways⟩ := hi
  obtain ⟨hrange, hfull, hmult, hlucas⟩ := hlisted
  obtain ⟨vs, e, hplays, hends⟩ := (callSpec_engineCall s.params.tdCount s.proveSample Config.nesting).rho n hlt a hodd
  have hrun : engineRun (.rho n a) s = play (vs.map fun v => (v, 1)) e s.facc := hplays s.facc
  have hrun' : engineRun (.rho n a) (withFlags f s) = play (vs.map fun v => (v, 1)) e s.facc := hplays s.facc
  have hle : ∀ v ∈ vs, v ≤ n := fun v hv =>
    Nat.le_of_dvd (by omega) ((List.dvd_prod hv).trans hends.dvd)
  have hins : ∀ vm ∈ vs.map fun v => (v, 1), Insertable vm :=
    List.forall_mem_map.mpr fun v hv => insertable_one ((hle v hv).trans_lt hlt)
  rw [hrun, hrun']
  refine does_finishRun_play hstart hflags hfacc halways (fun h => (addsAll_recordAll hins h rfl).1)
    (fun _ acc code hrec => ?_) fun code he => ?_
  · obtain rfl | rfl | ⟨rfl, vm, hvm, hbig⟩ := recordAll_error hrec
    · exact hfull
    · exact hmult
    · obtain ⟨v, hv, rfl⟩ := List.mem_map.mp hvm
      exact (hlarge (hbig.trans (hle v hv))).2
  · obtain rfl | ⟨rfl, htop⟩ | ⟨hmode, rfl⟩ := hends.code he
    · exact ⟨by simp [FaultCode.OfInsert], hrange⟩
    · exact ⟨by simp [FaultCode.OfInsert], (hlarge (by omega)).1⟩
    · exact ⟨by simp [FaultCode.OfInsert], hlucas hmode⟩

theorem does_rho1 (rn : Reg) (a : Nat) :
    Does (.rho1 rn a) s f (exec (.rho1 rn a) s) (exec (.rho1 rn a) (withFlags f s)) := by
  have hlt : lowWord rn s < 2 ^ 64 := lowWord_lt rn s
  have hcheck := allowed_checks (i := .rho1 rn a) (s := s) (codes := [.even, .range])
    (fun _ ha => (Option.some.inj ha).symm) rfl (by simp [faultCodes]) (by simp)
  rw [exec_rho1, exec_rho1]
  change Does _ s f _ (if lowWord rn s % 2 = 0 then _ else if lowWord rn s < 3 ∨ lowWord rn s ≤ a then _ else
    finishRun (engineRun (.rho (lowWord rn s) a) _) _)
  split_ifs with heven hrange
  · exact does_trap (hcheck .even (by simp))
  · exact does_trap (hcheck .range (by simp))
  · exact does_rho s f a (by omega) (by omega) ⟨rfl, rfl, rfl, rfl⟩ (fun h => by omega)
      ⟨by simp [faultCodes], by simp [faultCodes], by simp [faultCodes], fun h => by simp [faultCodes, h]⟩

theorem does_rho2 (rn : Reg) (a : Nat) :
    Does (.rho2 rn a) s f (exec (.rho2 rn a) s) (exec (.rho2 rn a) (withFlags f s)) := by
  have hcheck := allowed_checks (i := .rho2 rn a) (s := s) (codes := [.even, .topBit, .range])
    (fun _ ha => (Option.some.inj ha).symm) rfl (by simp [faultCodes]) (by simp)
  rw [exec_rho2, exec_rho2]
  change Does _ s f _ (if fullValue rn s % 2 = 0 then _ else if 2 ^ 127 ≤ fullValue rn s then _ else
    if fullValue rn s < 3 ∨ fullValue rn s ≤ a then _ else finishRun (engineRun (.rho (fullValue rn s) a) _) _)
  split_ifs with heven htop hrange
  · exact does_trap (hcheck .even (by simp))
  · exact does_trap (hcheck .topBit (by simp))
  · exact does_trap (hcheck .range (by simp))
  · exact does_rho s f a (by omega) (fullValue_lt rn s) ⟨rfl, rfl, rfl, rfl⟩ (fun _ => by simp [faultCodes])
      ⟨by simp [faultCodes], by simp [faultCodes], by simp [faultCodes], fun h => by simp [faultCodes, h]⟩

theorem does_factor (rn : Reg) : Does (.factor rn) s f (exec (.factor rn) s) (exec (.factor rn) (withFlags f s)) := by
  by_cases h2 : fullValue rn s < 2
  · rw [exec_factor_lt_two h2, exec_factor_lt_two (s := withFlags f s) h2]
    exact ⟨.completes s.x none Facc.empty, .completes (fun _ _ => rfl) rfl (fun h => by cases h)
      (fun _ _ => Facc.empty_wf), rfl, rfl⟩
  · have hlt := fullValue_lt rn s
    have hn : fullValue rn s ≠ 0 := by omega
    obtain ⟨k, vs, e, htries, hends, hruns⟩ := factorBody_plays
      (callSpec_engineCall s.params.tdCount s.proveSample (Config.nesting - 1)) hlt (not_lt.mp h2)
    have hrun : engineRun (.factor (fullValue rn s)) s = _ := hruns s.facc
    have hrun' : engineRun (.factor (fullValue rn (withFlags f s))) (withFlags f s) = _ := hruns s.facc
    have hres := (stripped hn htries.le).ne_zero hn
    have hins : ∀ vm ∈ trialScript s.params.tdCount (fullValue rn s) k ++ vs.map fun v => (v, 1), Insertable vm := by
      refine List.forall_mem_append.mpr ⟨fun vm hvm => (insertable_trialScript hn hlt htries.le hvm).1,
        List.forall_mem_map.mpr fun v hv => insertable_one (lt_of_le_of_lt ?_ hlt)⟩
      exact (Nat.le_of_dvd (Nat.pos_of_ne_zero hres) ((List.dvd_prod hv).trans hends.dvd)).trans
        (trialResidue_le hn htries.le)
    rw [exec_factor, exec_factor, hrun, hrun']
    refine does_finishRun_play rfl rfl rfl rfl (fun _ => (addsAll_recordAll hins Facc.empty_wf rfl).1)
      (fun hlegal acc code hrec => ?_) fun code he => ?_
    · obtain ⟨L, hrec', -⟩ := recordAll_of_fits
        (fits_factorPlays hn hlt htries hends (prime_or_large_of_rhoEnds hlegal hn htries hends))
      cases (congrArg Prod.snd hrec').symm.trans (congrArg Prod.snd hrec)
    · obtain rfl | ⟨rfl, -⟩ | ⟨hmode, rfl⟩ := hends.code he
      · exact ⟨by simp [FaultCode.OfInsert], by simp [faultCodes]⟩
      · exact ⟨by simp [FaultCode.OfInsert], by simp [faultCodes]⟩
      · exact ⟨by simp [FaultCode.OfInsert], by simp [faultCodes, hmode]⟩

/-- The oracle commands. -/
theorem does_askOracle {i : Instr} {rd : Reg} {n : Nat}
    (hi : insertsFrom i s = none ∧ writesFlags i = false ∧ destOf i = some rd)
    (halways : alwaysEnds s.proveSample i = !s.proveSample)
    (heven : n % 2 = 0 → .even ∈ faultCodes s.proveSample i)
    (htop : 2 ^ 127 ≤ n → .topBit ∈ faultCodes s.proveSample i)
    (hproof : s.proveSample = true → FaultCode.range ∈ faultCodes s.proveSample i ∧ .lucasFail ∈ faultCodes s.proveSample i) :
    Does i s f (finishVerdict rd (askOracle s n) s) (finishVerdict rd (askOracle (withFlags f s) n) (withFlags f s)) := by
  obtain ⟨hstart, hflags, hdest⟩ := hi
  change Does i s f _ (finishVerdict rd (askOracle s n) (withFlags f s))
  refine does_finishVerdict hdest hflags (fun code acc h => ?_) fun h => ?_
  · have hkept := allowed_fault_kept (i := i) (s := s) (code := code) (fun a ha => by cases hstart.symm.trans ha) hflags
    obtain ⟨rfl, hn⟩ | ⟨rfl, hn⟩ | ⟨hmode, rfl | rfl⟩ := askOracle_fault s h
    · exact hkept (heven hn) (by simp [FaultCode.OfInsert])
    · exact hkept (htop hn) (by simp [FaultCode.OfInsert])
    · exact hkept (hproof hmode).1 (by simp [FaultCode.OfInsert])
    · exact hkept (hproof hmode).2 (by simp [FaultCode.OfInsert])
  · rw [halways, askOracle_hang s h, Bool.not_true]

theorem does_isprime (rd rn : Reg) :
    Does (.isprime rd rn) s f (exec (.isprime rd rn) s) (exec (.isprime rd rn) (withFlags f s)) := by
  obtain ⟨b, hb, -⟩ | ⟨hnone, -, hodd, -⟩ := isprimeEarly_cases (fullValue_lt rn s) s.params.tdCount
  · rw [exec_isprime_some hb, exec_isprime_some (s := withFlags f s) hb]
    exact does_writeReg rfl rfl _
  · rw [exec_isprime_none hnone, exec_isprime_none (s := withFlags f s) hnone]
    exact does_askOracle s f ⟨rfl, rfl, rfl⟩ rfl (fun h => by omega) (fun _ => by simp [faultCodes])
      (fun h => by simp [faultCodes, h])

section Checked
variable {s f} {i : Instr} {checks : List (Bool × FaultCode)}
  (hchecks : ∀ code ∈ checks.map Prod.snd, code ∈ faultCodes s.proveSample i ∧
    code ∈ [FaultCode.even, .topBit, .range, .inv])
include hchecks

theorem does_guarded_writeReg {rd : Reg} (hi : insertsFrom i s = none ∧ writesFlags i = false ∧ destOf i = some rd)
    (v : Dword) : Does i s f (guarded checks s fun _ => finish (writeReg rd v s))
      (guarded checks (withFlags f s) fun _ => finish (writeReg rd v (withFlags f s))) := by
  obtain ⟨hstart, hflags, hdest⟩ := hi
  exact does_guarded (fun check hc => allowed_checks (fun a ha => by cases hstart.symm.trans ha) hflags
    (fun code h => (hchecks code h).1) (fun code h => (hchecks code h).2) _ (List.mem_map_of_mem hc))
    (does_writeReg hdest hflags v)

end Checked

/-- Registers and `FLAGS` written together. -/
theorem does_setFlags {i : Instr} (hi : writesFlags i = true) (x : Vector Dword 16)
    (hx : ∀ r : Reg, destOf i ≠ some r → x[r.val] = s.x[r.val]) (fl : Flags) :
    Does i s f (finish { s with x := x, flags := fl }) (finish { withFlags f s with x := x, flags := fl }) :=
  ⟨.completes x (some fl) s.facc, .completes hx hi (fun _ => rfl) fun _ h => h, rfl, rfl⟩

theorem getElem_set_of_dest {rd r : Reg} (h : some rd ≠ some r) (v : Dword) : (s.x.set rd.val v)[r.val] = s.x[r.val] :=
  Vector.getElem_set_ne _ _ fun heq => h (congrArg some (Fin.ext heq))

theorem does_fins (ra : Reg) (m : Nat) :
    Does (.fins ra m) s f (exec (.fins ra m) s) (exec (.fins ra m) (withFlags f s)) := by
  rw [exec_fins, exec_fins]
  change Does _ s f _ (if lowWord ra s < 2 ∨ m < 1 then _ else
    finishInsert (insertPrime (loWord s.x[ra.val]) m s.facc) _)
  split_ifs with hrange
  · exact does_trap (allowed_fault_kept (fun a ha => by cases ha) rfl (by simp [faultCodes]) (by simp [FaultCode.OfInsert]))
  · refine does_finishInsert rfl rfl rfl (fun acc hacc hm hwf => ?_) fun code hcode => ?_
    · have hlt : m < 256 := of_decide_eq_true hm
      exact insertPrime_keeps_wf hwf (by omega) (by omega) hacc
    · obtain rfl | rfl := insertPrime_error hcode <;> simp [FaultCode.OfInsert, faultCodes]

theorem does_finsl (ra : Reg) : Does (.finsl ra) s f (exec (.finsl ra) s) (exec (.finsl ra) (withFlags f s)) := by
  rw [exec_finsl, exec_finsl]
  change Does _ s f _ (if fullValue ra s < 2 then _ else finishInsert (insertLarge s.x[ra.val] s.facc) _)
  split_ifs with hrange
  · exact does_trap (allowed_fault_kept (fun a ha => by cases ha) rfl (by simp [faultCodes]) (by simp [FaultCode.OfInsert]))
  · refine does_finishInsert rfl rfl rfl (fun acc hacc _ hwf => insertLarge_keeps_wf hwf hacc) fun code hcode => ?_
    obtain rfl | rfl | rfl := insertLarge_error hcode <;> simp [FaultCode.OfInsert, faultCodes]

/-- Every command has one effect, whatever `FLAGS` hold. -/
theorem does_exec (i : Instr) : Does i s f (exec i s) (exec i (withFlags f s)) := by
  cases i with
  | add2 rd ra rb => exact does_setFlags s f (i := .add2 rd ra rb) rfl (s.x.set rd.val _) (fun r hr => getElem_set_of_dest s hr _) _
  | sub2 rd ra rb => exact does_setFlags s f (i := .sub2 rd ra rb) rfl (s.x.set rd.val _) (fun r hr => getElem_set_of_dest s hr _) _
  | cmp2 ra rb => exact does_setFlags s f rfl s.x (fun _ _ => rfl) _
  | shl2 rd ra sh => exact does_writeReg rfl rfl _
  | shr2 rd ra sh => exact does_writeReg rfl rfl _
  | minv rd ra => exact does_guarded_writeReg (by simp [faultCodes]) ⟨rfl, rfl, rfl⟩ _
  | tomont1 rd ra rn => exact does_guarded_writeReg (by simp [faultCodes]) ⟨rfl, rfl, rfl⟩ _
  | tomont2 rd ra rn => exact does_guarded_writeReg (by simp [faultCodes]) ⟨rfl, rfl, rfl⟩ _
  | mulredc1 rd ra rb rn ri => exact does_guarded_writeReg (by simp [faultCodes]) ⟨rfl, rfl, rfl⟩ _
  | mulredc2 rd ra rb rn ri => exact does_guarded_writeReg (by simp [faultCodes]) ⟨rfl, rfl, rfl⟩ _
  | powredc1 rd ra re rn ri ro => exact does_guarded_writeReg (by simp [faultCodes]) ⟨rfl, rfl, rfl⟩ _
  | powredc2 rd ra re rn ri ro => exact does_guarded_writeReg (by simp [faultCodes]) ⟨rfl, rfl, rfl⟩ _
  | tdiv rd ra => exact does_tdiv s f rd ra
  | mr1 rd rn rb => exact does_guarded_writeReg (by simp [faultCodes]) ⟨rfl, rfl, rfl⟩ _
  | mr2 rd rn rb => exact does_guarded_writeReg (by simp [faultCodes]) ⟨rfl, rfl, rfl⟩ _
  | prime1 rd rn =>
    have hlt : lowWord rn s < 2 ^ 64 := lowWord_lt rn s
    rw [exec_prime1, exec_prime1]
    exact does_askOracle s f ⟨rfl, rfl, rfl⟩ rfl (fun _ => by simp [faultCodes]) (fun h => by omega)
      (fun h => by simp [faultCodes, h])
  | prime2 rd rn =>
    rw [exec_prime2, exec_prime2]
    exact does_askOracle s f ⟨rfl, rfl, rfl⟩ rfl (fun _ => by simp [faultCodes]) (fun _ => by simp [faultCodes])
      (fun h => by simp [faultCodes, h])
  | isprime rd rn => exact does_isprime s f rd rn
  | gcd1 rd ra rb => exact does_guarded_writeReg (by simp [faultCodes]) ⟨rfl, rfl, rfl⟩ _
  | gcd2 rd ra rb => exact does_guarded_writeReg (by simp [faultCodes]) ⟨rfl, rfl, rfl⟩ _
  | rho1 rn a => exact does_rho1 s f rn a
  | rho2 rn a => exact does_rho2 s f rn a
  | factor rn => exact does_factor s f rn
  | fclr =>
    exact ⟨.completes s.x none Facc.empty, .completes (fun _ _ => rfl) rfl (fun h => by cases h)
      (fun _ _ => Facc.empty_wf), rfl, rfl⟩
  | fins ra m => exact does_fins s f ra m
  | finsl ra => exact does_finsl s f ra

end Commands

/-! ### What follows for single states -/

theorem exec_effect (i : Instr) (s : State) : ∃ eff, Allowed i s eff ∧ exec i s = .next (eff.apply s) := by
  obtain ⟨eff, hallowed, hexec, -⟩ := does_exec s s.flags i
  exact ⟨eff, hallowed, hexec⟩

/-- Only commands that make several inserts can fault with another `FACC`. -/
theorem insertsFrom_eq_none {i : Instr} (h : writesFacc i = false) (s : State) : insertsFrom i s = none := by
  cases i <;> simp [writesFacc, insertsFrom] at *

theorem insertsFrom_cases (i : Instr) (s : State) : insertsFrom i s = none ∨ (∃ rd ra, i = .tdiv rd ra) ∨
    (∃ rn a, i = .rho1 rn a) ∨ (∃ rn a, i = .rho2 rn a) ∨ ∃ rn, i = .factor rn := by
  cases i <;> simp [insertsFrom]

theorem FaultCode.code_bounds {code : FaultCode} (h : code ≠ .illegal) :
    2 ≤ code.code.toNat ∧ code.code.toNat ≤ 9 := by
  cases code with
  | illegal => exact absurd rfl h
  | _ => decide

/-! ### The invariant -/

/-- The invariant speaks of `FACC` and the control registers only. -/
theorem Inv.congr {s t : State} (h : Inv s) (hfacc : t.facc = s.facc) (hstatus : t.status = { s.status with
    lost := t.status.lost }) (hprove : s.status.busy = true → t.prove = s.prove) (hsample : t.proveSample = s.proveSample)
    (hcause : t.ecause = s.ecause) : Inv t := by
  obtain ⟨hwf, hdone, herr, hmode, hfatal, hzero, hnine⟩ := h
  refine ⟨hfacc ▸ hwf, ?_, ?_, ?_, ?_, ?_, ?_⟩
  · rw [hstatus]
    exact hdone
  · rw [hstatus]
    exact herr
  · rw [hstatus]
    intro hbusy
    rw [hprove hbusy, hsample]
    exact hmode hbusy
  · rw [hstatus]
    exact hfatal
  · rw [hstatus, hcause]
    exact hzero
  · rw [hcause]
    exact hnine

theorem inv_complete {s u : State} (h : Inv s) (hbusy : s.status.busy = true) (hwf : u.facc.Wf)
    (hstatus : u.status = s.status) (hcause : u.ecause = s.ecause) : Inv (complete u) := by
  have herr := h.control.busyNoError hbusy
  refine ⟨hwf, by simp [complete], by simp [complete], by simp [complete], ?_, ?_, ?_⟩
  · rw [complete, hstatus]
    exact h.control.fatalError
  · rw [complete, hstatus, hcause]
    exact h.control.causeIffError
  · rw [complete, hcause]
    exact h.control.causeBound

theorem inv_raiseFault (code : FaultCode) {u : State} (hwf : u.facc.Wf) : Inv (raiseFault code u) := by
  refine ⟨hwf, by simp [raiseFault], by simp [raiseFault], by simp [raiseFault], by simp [raiseFault], ?_, ?_⟩
  · cases code <;> simp [raiseFault, FaultCode.code]
  · cases code <;> simp [raiseFault, FaultCode.code]

theorem inv_exec {i : Instr} {s t : State} (hi : WellFormed i) (h : Inv s) (hbusy : s.status.busy = true)
    (hexec : exec i s = .next t) : Inv t := by
  obtain ⟨eff, hallowed, hruns⟩ := exec_effect i s
  obtain rfl := Host.Outcome.next.inj (hruns.symm.trans hexec)
  cases hallowed with
  | completes hx hflags hfacc hwf => exact inv_complete h hbusy (hwf hi h.facc) rfl rfl
  | faults hcode hflags hlisted hkept hinserts hwf => exact inv_raiseFault _ (hwf h.facc)
  | never hends hflags => exact h

theorem inv_elapse {s t : State} (h : Inv s) (ht : elapse s = .next t) : Inv t := by
  rw [elapse] at ht
  split_ifs at ht with hbusy
  · rw [runCommand] at ht
    split at ht
    · rename_i i hdecode
      exact inv_exec (encodeInvertsDecode _ i hdecode).1 h hbusy ht
    · cases ht
      exact inv_raiseFault .illegal h.facc
  · cases ht
    exact h

theorem inv_hostRead (off width : Nat) {s : State} (h : Inv s) : Inv (hostRead off width s) := by
  obtain hr | hr | hr := hostRead_cases off width s <;> rw [hr] <;> exact h.congr rfl rfl (fun _ => rfl) rfl rfl

theorem inv_dropWrite {s : State} (h : Inv s) : Inv (dropWrite s) := h.congr rfl rfl (fun _ => rfl) rfl rfl

theorem inv_acknowledge (v : Word) {s : State} (h : Inv s) (hidle : Idle s) : Inv (acknowledge v s) := by
  obtain ⟨hwf, -, -, -, hfatal, hzero, hnine⟩ := h
  have hbusy : ∀ {p : Prop}, (acknowledge v s).status.busy = true → p := fun hb =>
    absurd (hidle.symm.trans hb) Bool.false_ne_true
  refine ⟨hwf, hbusy, hbusy, hbusy, ?_, ?_, ?_⟩
  · simp only [acknowledge]
    intro hf
    simp [hfatal hf, hf]
  · simp only [acknowledge]
    cases hclear : v.getLsbD 2 && !s.status.fatal with
    | true => simp
    | false => simpa using hzero
  · simp only [acknowledge]
    split_ifs
    · decide
    · exact hnine

/-- A host write to an idle block. -/
theorem inv_writeSlot (slot : Slot) (v : Word) {s : State} (h : Inv s) (hidle : Idle s) : Inv (writeSlot slot v s) := by
  have hbusy : ∀ {p : Prop}, s.status.busy = true → p := fun hb => absurd (hidle.symm.trans hb) Bool.false_ne_true
  cases slot with
  | cmd =>
    rw [writeSlot]
    split_ifs with herr
    · exact inv_dropWrite h
    · obtain ⟨hwf, -, -, -, hfatal, hzero, hnine⟩ := h
      have herr' : s.status.err = false := by
        cases he : s.status.err with
        | false => rfl
        | true => exact absurd (by simp [he]) herr
      exact ⟨hwf, fun _ => rfl, fun _ => herr', fun _ => rfl, hfatal, hzero, hnine⟩
  | status => exact inv_acknowledge v h hidle
  | ctrl => exact h.congr rfl rfl hbusy rfl rfl
  | regLo r => exact h.congr rfl rfl (fun _ => rfl) rfl rfl
  | regHi r => exact h.congr rfl rfl (fun _ => rfl) rfl rfl
  | unmapped => exact h
  | _ => exact inv_dropWrite h

theorem inv_hostWrite (off width : Nat) (v : Word) {s : State} (h : Inv s) : Inv (hostWrite off width v s) := by
  rw [hostWrite]
  split_ifs with hrefused hbusy
  · exact inv_dropWrite h
  · exact inv_dropWrite h
  · cases hb : s.status.busy with
    | false => exact inv_writeSlot _ v h hb
    | true =>
      rw [hb, Bool.true_and, bne_iff_ne, not_not] at hbusy
      rw [hbusy]
      exact h

theorem inv_resetEvent (s : State) : Inv (resetEvent s) := by
  obtain ⟨hwf, hcontrol⟩ := resetIsLegal.1
  exact ⟨hwf, hcontrol.busyNotDone, hcontrol.busyNoError, hcontrol.busySample, hcontrol.fatalError,
    hcontrol.causeIffError, hcontrol.causeBound⟩

theorem inv_hostStep {e : HostEvent} {s t : State} (h : Inv s) (ht : hostStep e s = .next t) : Inv t := by
  cases e with
  | read off width => exact eq_of_ite_fault_eq_next ht ▸ inv_hostRead off width h
  | write off width v => exact eq_of_ite_fault_eq_next ht ▸ inv_hostWrite off width v h
  | reset =>
    cases ht
    exact inv_resetEvent s
  | elapse => exact inv_elapse h ht

end Sys2Proof.Machine
end

section
/-!
PROOFS. The statements on every command and every step: the frame (spec/10_state.md sections 3 and 5), faults
(spec/60_exceptions.md R206, R211), commands that end (spec/70_reset_and_hazards.md R238), and the invariant.
-/
open Sys2Proof Sys2Proof.Machine

/-- Settles O54: the effect of a command is one its row allows. -/
theorem commandFrame : Obligations.CommandFrame := by
  intro i s t hexec
  obtain ⟨eff, hallowed, hruns⟩ := exec_effect i s
  obtain rfl := Host.Outcome.next.inj (hruns.symm.trans hexec)
  cases hallowed with
  | completes hx hflags hfacc hwf =>
    refine ⟨hx, fun h => ?_, hfacc, rfl, rfl, rfl, rfl, ⟨rfl, rfl, rfl, rfl⟩, .inl ⟨rfl, rfl⟩⟩
    have hnone := Option.isSome_eq_false_iff.mp (hflags.symm.trans h)
    rw [Option.isNone_iff_eq_none] at hnone
    rw [hnone]
    rfl
  | faults hcode hflags hlisted hkept hinserts hwf =>
    exact ⟨fun _ _ => rfl, fun _ => rfl, fun h => hkept (insertsFrom_eq_none h s), rfl, rfl, rfl, rfl,
      ⟨rfl, rfl, rfl, rfl⟩, .inr (.inl ⟨_, hcode, rfl, rfl⟩)⟩
  | never hends hflags =>
    exact ⟨fun _ _ => rfl, fun _ => rfl, fun _ => rfl, rfl, rfl, rfl, rfl, ⟨rfl, rfl, rfl, rfl⟩, .inr (.inr ⟨rfl, hends⟩)⟩

/-- Settles O55: the effect is the same with other flags, and keeps them exactly if it does not write them. -/
theorem noCommandReadsFlags : Obligations.NoCommandReadsFlags := by
  intro i s t f hexec
  obtain ⟨eff, hallowed, hruns, hruns'⟩ := does_exec s f i
  obtain rfl := Host.Outcome.next.inj (hruns.symm.trans hexec)
  refine hruns'.trans (congrArg _ ?_)
  cases hallowed with
  | completes hx hflags hfacc hwf =>
    rename_i flags _
    rw [hflags]
    cases flags <;> rfl
  | faults hcode hflags hlisted hkept hinserts hwf =>
    rw [hflags]
    rfl
  | never hends hflags =>
    rw [hflags]
    rfl

/-- Settles O57. -/
theorem faultingCommandsKeepRegisters : Obligations.FaultingCommandsKeepRegisters := by
  intro i s t herr hexec hterr
  obtain ⟨eff, hallowed, hruns⟩ := exec_effect i s
  obtain rfl := Host.Outcome.next.inj (hruns.symm.trans hexec)
  cases hallowed with
  | completes hx hflags hfacc hwf => exact absurd (herr.symm.trans hterr) Bool.false_ne_true
  | never hends hflags => exact absurd (herr.symm.trans hterr) Bool.false_ne_true
  | faults hcode hflags hlisted hkept hinserts hwf =>
    rename_i code acc
    obtain ⟨htwo, hnine⟩ := FaultCode.code_bounds hcode
    refine ⟨rfl, rfl, rfl, rfl, rfl, rfl, htwo, hnine, fun h => ⟨code, hlisted h, rfl⟩, fun hfatal => ?_,
      (insertsFrom_cases i s).imp_left hkept, fun hscript => hinserts _ ?_, fun hfactor => hinserts _ ?_⟩
    · obtain h | h := Bool.or_eq_true_iff.mp hfatal
      · exact .inl h
      · exact .inr (congrArg FaultCode.code (of_decide_eq_true h))
    · obtain ⟨rd, ra, rfl⟩ | ⟨rn, a, rfl⟩ | ⟨rn, a, rfl⟩ := hscript <;> rfl
    · obtain ⟨rn, rfl⟩ := hfactor
      rfl

/-- Settles O58. -/
theorem boundedCommandsEnd : Obligations.BoundedCommandsEnd := by
  intro i s halways
  obtain ⟨eff, hallowed, hruns⟩ := exec_effect i s
  refine ⟨_, hruns, ?_⟩
  cases hallowed with
  | completes hx hflags hfacc hwf => exact ⟨rfl, .inl rfl⟩
  | faults hcode hflags hlisted hkept hinserts hwf => exact ⟨rfl, .inr rfl⟩
  | never hends hflags => exact absurd (hends.symm.trans halways) Bool.false_ne_true

/-- Settles O56, by the host action or the command of the step. -/
theorem everyStepKeepsInv : Obligations.EveryStepKeepsInv := by
  intro s t hinv hstep
  cases hhost : s.host with
  | nil =>
    rw [step_of_host_nil hhost] at hstep
    exact inv_elapse hinv hstep
  | cons e rest =>
    rw [step_of_host_cons hhost] at hstep
    exact inv_hostStep (s := { s with host := rest }) (hinv.congr rfl rfl (fun _ => rfl) rfl rfl) hstep
end

section
/-!
PROOFS. Rho on small operands (spec/44_rho_factor.md section 2): what the loop does at a degenerate detection and at one
whose parts the oracle accepts.
-/
namespace Sys2Proof.Machine

section Loop
variable {call : Call → Facc → Run Bool} {w : Width} {n a g f : Nat} {v v' : RhoVars} {acc : Facc}

/-- A detection of `n` itself is degenerate: rho starts again with the next parameter (R167). -/
theorem rhoLoop_restart (ha : a < n) (h : rhoDetect w n a v = some (v', n)) :
    rhoLoop call w (f + 1) n a v acc = rhoLoop call w f n (a + 1) (rhoInit w n) acc := by
  rw [rhoLoop, if_neg (not_le.mpr ha), h]
  exact if_pos rfl

/-- If every detection is degenerate, rho runs out of parameters. -/
theorem rhoLoop_range (h : ∀ a < n, (rhoDetect w n a (rhoInit w n)).map Prod.snd = some n) (k : Nat) (ha : a + k = n) :
    rhoLoop call w (f + k + 1) n a (rhoInit w n) acc = .fault .range acc := by
  induction k generalizing a with
  | zero => rw [rhoLoop, if_pos (by omega)]
  | succ k ih =>
    obtain ⟨⟨v', g⟩, hdetect, rfl⟩ := Option.map_eq_some_iff.mp (h a (by omega))
    exact (rhoLoop_restart (by omega) hdetect).trans (ih (by omega))

/-- The oracle accepts `n`. -/
def Accepts (call : Call → Facc → Run Bool) (n : Nat) : Prop := ∀ acc, call (.prime n) acc = .done true acc

theorem insertLargeRun_returns (hlt : n < 2 ^ 128) :
    Plays (fun acc => (insertLargeRun n acc).andThen fun _ acc' => Run.done true acc') [(n, 1)] (.returns true) :=
  (insertLargeRun_plays hlt).andThen (ins' := []) fun _ => rfl

theorem settle_accepted (h : Accepts call g) (hlt : g < 2 ^ 128) (a : Nat) :
    Plays (settle call g a) [(g, 1)] (.returns true) := by
  intro acc
  rw [settle, h acc]
  exact insertLargeRun_returns hlt acc

/-- A detection that splits a one-word `n` into two parts the oracle accepts: both are recorded. -/
theorem rhoLoop_split (ha : a < g * n) (hn : 1 < n) (h : rhoDetect .one (g * n) a v = some (v', g)) (hlt : g * n < 2 ^ 128)
    (hg : Accepts call g) (hm : Accepts call n) :
    rhoLoop call .one (f + 1) (g * n) a v acc = play [(g, 1), (n, 1)] (.returns true) acc := by
  have hpos : 0 < g := Nat.pos_of_ne_zero (by rintro rfl; omega)
  have hne : g ≠ g * n := fun heq => absurd (Nat.eq_of_mul_eq_mul_left hpos ((mul_one g).trans heq)) hn.ne
  have hrest : Plays (fun acc1 => (call (.prime n) acc1).andThen fun isPrime acc2 =>
      if isPrime then (insertLargeRun n acc2).andThen fun _ acc3 => .done true acc3
      else rhoLoop call .one f n a (rhoReduce n v') acc2) [(n, 1)] (.returns true) := by
    intro acc1
    simp only [hm acc1]
    exact insertLargeRun_returns ((Nat.le_mul_of_pos_left n hpos).trans_lt hlt) acc1
  have hboth := (settle_accepted hg ((Nat.le_mul_of_pos_right g (by omega)).trans_lt hlt) (a + 1)).andThen
    (k := fun _ acc1 => (call (.prime n) acc1).andThen fun isPrime acc2 =>
      if isPrime then (insertLargeRun n acc2).andThen fun _ acc3 => .done true acc3
      else rhoLoop call .one f n a (rhoReduce n v') acc2) hrest acc
  rw [rhoLoop, if_neg (not_le.mpr ha), h]
  simp only [hne, if_false, Nat.mul_div_cancel_left n hpos, reduceCtorEq, false_and]
  exact hboth

end Loop

/-! ### 7, 15 and 25 -/

section Small
variable {s : State} {f : Facc}

theorem engineRun_rho_small {n : Nat} (a : Nat) (hn : n < Config.base) :
    engineRun (.rho n a) s = rhoLoop (engineCall s.params.tdCount s.proveSample (Config.nesting - 1)) .one
      (2 * n + 1) n a (rhoInit .one n) s.facc := by
  have hbase : Config.base < Config.topBit := by decide
  show rhoBody _ n a s.facc = _
  rw [rhoBody, if_neg (by omega), widthOf, if_pos hn]
  rfl

theorem accepts_small (hlegal : s.params.legal = true) {t : Nat} (h2 : 2 ≤ t) (ht : t ≤ 100) :
    Accepts (engineCall s.params.tdCount s.proveSample (Config.nesting - 1)) t := by
  have hfop := le_fopSquared hlegal
  rw [show Config.nesting - 1 = Config.nesting - 2 + 1 by rfl]
  intro acc
  exact engineCall_prime_small s.proveSample _ h2 (lt_of_le_of_lt ht (by decide)) (show t < fopSquared s by omega) acc

/-- Every detection on 7 is degenerate. -/
theorem engineRun_rho_seven : engineRun (.rho 7 1) s = .fault .range s.facc := by
  rw [engineRun_rho_small 1 (by decide)]
  exact rhoLoop_range (f := 8) (by decide +kernel) 6 rfl

/-- The first detection on 15 gives 3. -/
theorem engineRun_rho_fifteen (hlegal : s.params.legal = true) :
    engineRun (.rho 15 1) s = play [(3, 1), (5, 1)] (.returns true) s.facc := by
  obtain ⟨⟨v', g⟩, hdetect, h3⟩ := Option.map_eq_some_iff.mp
    (by decide +kernel : (rhoDetect .one 15 1 (rhoInit .one 15)).map Prod.snd = some 3)
  dsimp only at h3
  subst h3
  rw [engineRun_rho_small 1 (by decide)]
  exact rhoLoop_split (g := 3) (n := 5) (by norm_num) (by norm_num) hdetect (by norm_num)
    (accepts_small hlegal (by norm_num) (by norm_num)) (accepts_small hlegal (by norm_num) (by norm_num))

/-- On 25 the parameters 1 and 2 are degenerate, and 3 gives 5. -/
theorem engineRun_rho_twentyFive (hlegal : s.params.legal = true) :
    engineRun (.rho 25 1) s = play [(5, 1), (5, 1)] (.returns true) s.facc := by
  obtain ⟨⟨v1, g1⟩, hfirst, rfl⟩ := Option.map_eq_some_iff.mp
    (by decide +kernel : (rhoDetect .one 25 1 (rhoInit .one 25)).map Prod.snd = some 25)
  obtain ⟨⟨v2, g2⟩, hsecond, h25⟩ := Option.map_eq_some_iff.mp
    (by decide +kernel : (rhoDetect .one 25 2 (rhoInit .one 25)).map Prod.snd = some 25)
  obtain ⟨⟨v3, g3⟩, hthird, h5⟩ := Option.map_eq_some_iff.mp
    (by decide +kernel : (rhoDetect .one 25 3 (rhoInit .one 25)).map Prod.snd = some 5)
  dsimp only at h25 h5
  subst h25 h5
  have hfive := accepts_small hlegal (t := 5) (by norm_num) (by norm_num)
  rw [engineRun_rho_small 1 (by decide), rhoLoop_restart (by norm_num) hfirst, rhoLoop_restart (by norm_num) hsecond]
  exact rhoLoop_split (g := 5) (n := 5) (by norm_num) (by norm_num) hthird (by norm_num) hfive hfive

end Small

end Sys2Proof.Machine
end

section
/-!
PROOFS. The statements of spec/44_rho_factor.md section 2 on RHO1 and RHO2, and of spec/60_exceptions.md R206 on the inserts
of rho and factor.
-/
open Sys2Proof Sys2Proof.Machine

/-- Settles O43. -/
theorem rhoSplitsSmallComposites : Obligations.RhoSplitsSmallComposites := by
  intro rn s hlegal hempty
  have hfifteen : finishRun (engineRun (.rho 15 1) s) s = .next
      (faccState { pairs := [{ p := 3, e := 1 }, { p := 5, e := 1 }], plarge := 0 } s) := by
    rw [engineRun_rho_fifteen hlegal, hempty]
    rfl
  have htwentyFive : finishRun (engineRun (.rho 25 1) s) s = .next
      (faccState { pairs := [{ p := 5, e := 2 }], plarge := 0 } s) := by
    rw [engineRun_rho_twentyFive hlegal, hempty]
    rfl
  refine ⟨fun h => ?_, fun h => ?_, fun h => ?_, fun h => ?_⟩
  · rw [exec_rho1, h, if_neg (by decide), if_neg (by decide), hfifteen]
  · rw [exec_rho1, h, if_neg (by decide), if_neg (by decide), htwentyFive]
  · rw [exec_rho2, h, if_neg (by decide), if_neg (by decide), if_neg (by decide), hfifteen]
  · rw [exec_rho2, h, if_neg (by decide), if_neg (by decide), if_neg (by decide), htwentyFive]

/-- Settles O44. -/
theorem rhoEntryChecks : Obligations.RhoEntryChecks := by
  intro rn a s
  have hseven : finishRun (engineRun (.rho 7 1) s) s = .next (raiseFault .range s) := by
    rw [engineRun_rho_seven]
    rfl
  refine ⟨fun ha => ⟨?_, ?_⟩, fun heven => ?_, fun hodd hrange => ?_, fun h7 => ?_, fun heven => ?_,
    fun hodd htop => ?_, fun hodd hlt hrange => ?_, fun h7 => ?_⟩
  · exact encodedAs_of_encodeWord (decide_eq_true ha) (by simp [encodeWord, packImm])
  · exact encodedAs_of_encodeWord (decide_eq_true ha) (by simp [encodeWord, packImm])
  · rw [exec_rho1, if_pos heven]
  · rw [exec_rho1, if_neg (by omega), if_pos hrange]
  · rw [exec_rho1, h7, if_neg (by decide), if_neg (by decide), hseven]
  · rw [exec_rho2, if_pos heven]
  · rw [exec_rho2, if_neg (by omega), if_pos htop]
  · rw [exec_rho2, if_neg (by omega), if_neg (by omega), if_pos hrange]
  · rw [exec_rho2, h7, if_neg (by decide), if_neg (by decide), if_neg (by decide), hseven]

/-- Settles O60: rho and factor are scripts; the two instances are evaluated. -/
theorem rhoAndFactorRecordInOrder : Obligations.RhoAndFactorRecordInOrder := by
  refine ⟨fun rn a s => ⟨?_, ?_⟩, fun rn s hlegal h2 => ?_, fun rn s hlegal h15 hfacc => ?_,
    fun rn s htd hmode hn => ?_⟩
  · obtain ⟨vs, e, hrec, hruns⟩ := runsRho_rho1 rn a s
    exact ⟨vs, e, hrec.two_le, hrec.dvd, hrec.completes, hruns⟩
  · obtain ⟨vs, e, hrec, hruns⟩ := runsRho_rho2 rn a s
    exact ⟨vs, e, hrec.two_le, hrec.dvd, hrec.completes, hruns⟩
  · obtain ⟨k, vs, e, htries, hends, hruns⟩ := exists_factor_script rn h2
    rw [trialScript_eq (legal_word hlegal) (by omega) htries.le] at hruns
    have hrec := RhoRecords.of_rhoEnds hends
    exact ⟨k, vs, e.runEnd, htries, hrec.two_le, hrec.dvd, hrec.completes, hruns⟩
  · rw [exec_rho1, h15, if_neg (by decide), if_neg (by decide), engineRun_rho_fifteen hlegal, hfacc]
    rfl
  · have hrun : engineRun (.factor 63542) s = .fault .lucasFail { pairs := [{ p := 2, e := 1 }], plarge := 0 } := by
      have hcall : engineCall 24 true Config.nesting (.factor 63542) Facc.empty =
          .fault .lucasFail { pairs := [{ p := 2, e := 1 }], plarge := 0 } := by decide +kernel
      rw [engineRun, htd, hmode, ← hcall]
      rfl
    rw [exec_factor, hn, hrun]
    rfl
end

section
/-!
PROOFS. Why search and backtrack end (spec/44_rho_factor.md R165, R166). The iteration has at most `n` values. Once a batch is
as long as that, its head meets the compared value, the product is 0 modulo `n`, and the gcd at the end of the batch is
not 1. A gcd that is not 1 comes from one of the differences since the checkpoint, and the backtrack meets it, or an
earlier one, within `n` steps.
-/
namespace Sys2Proof.Machine

/-! ### Iterating a function with few values -/

section Iterate
variable {F : Nat → Nat} {n : Nat} (hF : ∀ v, F v < n) (x : Nat)
include hF

theorem exists_iterate_eq : ∃ p q, 1 ≤ p ∧ p < q ∧ q ≤ n + 1 ∧ F^[p] x = F^[q] x := by
  have hmaps : ∀ i ∈ Finset.Icc 1 (n + 1), F^[i] x ∈ Finset.range n := by
    intro i hi
    obtain ⟨j, rfl⟩ := Nat.exists_eq_succ_of_ne_zero (by rw [Finset.mem_Icc] at hi; omega : i ≠ 0)
    rw [Function.iterate_succ_apply', Finset.mem_range]
    exact hF _
  obtain ⟨p, hp, q, hq, hne, heq⟩ := Finset.exists_ne_map_eq_of_card_lt_of_maps_to (by simp) hmaps
  rw [Finset.mem_Icc] at hp hq
  obtain hlt | hlt := Nat.lt_or_gt_of_ne hne
  · exact ⟨p, q, hp.1, hlt, hq.2, heq⟩
  · exact ⟨q, p, hq.1, hlt, hp.2, heq.symm⟩

/-- From the `n`-th value on the values repeat. -/
theorem exists_period : ∃ r, 1 ≤ r ∧ r ≤ n ∧ ∀ m, n ≤ m → Function.IsPeriodicPt F r (F^[m] x) := by
  obtain ⟨p, q, h1, hpq, hq, heq⟩ := exists_iterate_eq hF x
  refine ⟨q - p, by omega, by omega, fun m hm => ?_⟩
  calc F^[q - p] (F^[m] x) = F^[m - p] (F^[q] x) := by
        rw [← Function.iterate_add_apply, ← Function.iterate_add_apply]
        exact congrArg (F^[·] x) (by omega)
    _ = F^[m - p] (F^[p] x) := by rw [heq]
    _ = F^[m] x := by
        rw [← Function.iterate_add_apply]
        exact congrArg (F^[·] x) (by omega)

/-- A batch of `n` or more steps meets the value it started from. -/
theorem exists_iterate_add_eq {m L : Nat} (hm : n ≤ m) (hL : n ≤ L) :
    ∃ i, 1 ≤ i ∧ i ≤ L ∧ F^[L + i] (F^[m] x) = F^[m] x := by
  obtain ⟨r, hr, hrn, hper⟩ := exists_period hF x
  have hmod := Nat.mod_lt L (by omega : 0 < r)
  refine ⟨r - L % r, by omega, by omega, ?_⟩
  have hsum : L + (r - L % r) = r * (L / r + 1) := by
    have := Nat.div_add_mod L r
    rw [Nat.mul_succ]
    omega
  rw [hsum]
  exact (hper m hm).mul_const _

/-- What is met at all is met within `n` steps. -/
theorem exists_iterate_le {Q : Nat → Prop} (i : Nat) (h1 : 1 ≤ i) (hi : Q (F^[i] x)) :
    ∃ j, 1 ≤ j ∧ j ≤ n ∧ Q (F^[j] x) := by
  induction i using Nat.strong_induction_on with
  | _ i ih =>
    by_cases hle : i ≤ n
    · exact ⟨i, h1, hle, hi⟩
    · obtain ⟨p, q, hp, hpq, hq, heq⟩ := exists_iterate_eq hF x
      refine ih (i - q + p) (by omega) (by omega) ?_
      have hback : F^[i] x = F^[i - q + p] x := by
        rw [Function.iterate_add_apply, heq, ← Function.iterate_add_apply]
        exact congrArg (F^[·] x) (by omega)
      exact hback ▸ hi

end Iterate

/-! ### The search -/

section Search
variable {w : Width} {n a : Nat}

theorem rhoSteps_eq (k v : Nat) : rhoSteps w n a k v = (rhoStep w n a)^[k] v := by
  induction k generalizing v with
  | zero => rfl
  | succ k ih => exact ih _

theorem submod_lt {x y : Nat} (hx : x < n) (hy : y < n) : submod x y n < n := by
  rw [submod]
  split_ifs <;> omega

@[simp] theorem submod_self (x : Nat) : submod x x n = 0 := by
  rw [submod, if_pos le_rfl, Nat.sub_self]

/-- The value `y` differs from `z` by no unit. -/
def Meets (n z y : Nat) : Prop := Nat.gcd (submod z y n) n ≠ 1

theorem rhoBacktrack_isSome {z y f i : Nat} (h1 : 1 ≤ i) (hi : i ≤ f) (hmeet : Meets n z ((rhoStep w n a)^[i] y)) :
    (rhoBacktrack w n a z f y).isSome := by
  induction f generalizing y i with
  | zero => omega
  | succ f ih =>
    rw [rhoBacktrack]
    split_ifs with hone
    · obtain ⟨j, rfl⟩ := Nat.exists_eq_succ_of_ne_zero (by omega : i ≠ 0)
      rw [Function.iterate_succ_apply] at hmeet
      refine ih (Nat.pos_of_ne_zero ?_) (by omega) hmeet
      rintro rfl
      exact hmeet hone
    · rfl

/-- At the end of a batch (R165): Brent's doubling. -/
theorem searchAdvance_batch_end {v : RhoVars} (hk : v.k - 1 = 0) : searchAdvance w n a (searchStep w n a v) =
    { x := rhoSteps w n a v.l (rhoStep w n a v.x), y := rhoSteps w n a v.l (rhoStep w n a v.x),
      z := rhoStep w n a v.x, P := (searchStep w n a v).P, k := v.l, l := 2 * v.l } := if_pos hk

/-- Within a batch (R165): a checkpoint after a gcd. -/
theorem searchAdvance_within_batch {v : RhoVars} (hk : ¬v.k - 1 = 0) : searchAdvance w n a (searchStep w n a v) =
    { searchStep w n a v with
      y := if gcdDue (searchStep w n a v) then rhoStep w n a v.x else v.y, k := v.k - 1 } := if_neg hk

variable (hodd : n % 2 = 1) (h3 : 3 ≤ n) (hn : n < w.radix)

include h3 in
theorem rhoStep_lt (v : Nat) : rhoStep w n a v < n := Nat.mod_lt _ (by omega)

/-- What holds of the variables of a search: the head is reached from the checkpoint, and a product that is no unit has
met the compared value on the way. -/
structure Searching (w : Width) (n a : Nat) (v : RhoVars) : Prop where
  x_lt : v.x < n
  z_lt : v.z < n
  P_lt : v.P < n
  k_pos : 1 ≤ v.k
  l_pos : 1 ≤ v.l
  reached : ∃ c, v.x = (rhoStep w n a)^[c] v.y
  product : v.P.Coprime n ∨ ∃ i, 1 ≤ i ∧ Meets n v.z ((rhoStep w n a)^[i] v.y)

section Step
variable {v : RhoVars} (hv : Searching w n a v)
include hodd h3 hn hv

/-- The new product, up to the radix. -/
theorem searchStep_P : (searchStep w n a v).P < n ∧
    (searchStep w n a v).P * w.radix ≡ v.P * submod v.z (rhoStep w n a v.x) n [MOD n] := by
  have hd := submod_lt hv.z_lt (rhoStep_lt (w := w) (a := a) h3 v.x)
  have hinv := inverseOf_inverts hodd
  exact ⟨mulredc_lt w hn hinv hv.P_lt hd, mulredc_modEq w hn hinv hv.P_lt hd⟩

/-- A product that is 0 stays 0, and meeting the compared value makes it 0. -/
theorem dvd_searchStep_P (h : n ∣ v.P ∨ rhoStep w n a v.x = v.z) : n ∣ (searchStep w n a v).P := by
  have hmod := (searchStep_P hodd h3 hn hv).2
  have hzero : v.P * submod v.z (rhoStep w n a v.x) n ≡ 0 [MOD n] := by
    rw [Nat.modEq_zero_iff_dvd]
    obtain h | h := h
    · exact h.mul_right _
    · rw [h, submod_self, mul_zero]
      exact dvd_zero n
  exact (coprime_radix w hodd).dvd_of_dvd_mul_right (Nat.modEq_zero_iff_dvd.mp (hmod.trans hzero))

theorem coprime_searchStep_P (hP : v.P.Coprime n) (hmeet : ¬Meets n v.z (rhoStep w n a v.x)) :
    (searchStep w n a v).P.Coprime n := by
  have hprod : (v.P * submod v.z (rhoStep w n a v.x) n).Coprime n := hP.mul_left (not_not.mp hmeet)
  have hgcd := (searchStep_P hodd h3 hn hv).2.gcd_eq
  exact Nat.Coprime.coprime_mul_right (hgcd.trans hprod)

theorem searchStep_product : (searchStep w n a v).P.Coprime n ∨
    ∃ i, 1 ≤ i ∧ Meets n v.z ((rhoStep w n a)^[i] v.y) := by
  obtain hP | hmet := hv.product
  · by_cases hmeet : Meets n v.z (rhoStep w n a v.x)
    · obtain ⟨c, hc⟩ := hv.reached
      refine .inr ⟨c + 1, by omega, ?_⟩
      rwa [Function.iterate_succ_apply', ← hc]
    · exact .inl (coprime_searchStep_P hodd h3 hn hv hP hmeet)
  · exact .inr hmet

/-- The variables after a step that finds nothing. -/
theorem Searching.advance
    (hnot : ¬(gcdDue (searchStep w n a v) && Nat.gcd (searchStep w n a v).P n != 1) = true) :
    Searching w n a (searchAdvance w n a (searchStep w n a v)) := by
  have hx := rhoStep_lt (w := w) (a := a) h3 v.x
  have hP := (searchStep_P hodd h3 hn hv).1
  have hdue : gcdDue (searchStep w n a v) = true → (searchStep w n a v).P.Coprime n := by
    intro h
    simpa [h] using hnot
  by_cases hk : v.k - 1 = 0
  · have hk1 : v.k = 1 := by have := hv.k_pos; omega
    have hunit := hdue (by simp [gcdDue, searchStep, hk1, Config.rhoBatch])
    have hadv := searchAdvance_batch_end (w := w) (n := n) (a := a) hk
    obtain ⟨j, hj⟩ := Nat.exists_eq_succ_of_ne_zero (by have := hv.l_pos; omega : v.l ≠ 0)
    rw [hadv]
    refine ⟨?_, hx, hP, hv.l_pos, by have := hv.l_pos; simp only; omega, ⟨0, rfl⟩, .inl hunit⟩
    simp only [rhoSteps_eq, hj, Function.iterate_succ_apply']
    exact rhoStep_lt h3 _
  · have hadv := searchAdvance_within_batch (w := w) (n := n) (a := a) hk
    rw [hadv]
    refine ⟨hx, hv.z_lt, hP, by simp only; omega, hv.l_pos, ?_, ?_⟩
    · simp only
      split_ifs
      · exact ⟨0, rfl⟩
      · obtain ⟨c, hc⟩ := hv.reached
        exact ⟨c + 1, by rw [Function.iterate_succ_apply', ← hc]; rfl⟩
    · simp only
      split_ifs with h
      · exact .inl (hdue h)
      · exact searchStep_product hodd h3 hn hv

end Step

include hodd h3 hn

/-- Where the search stops, the compared value is met after the checkpoint. -/
theorem exists_meets_of_rhoSearch {f : Nat} {v v' : RhoVars} (hv : Searching w n a v)
    (h : rhoSearch w n a f v = some v') : ∃ i, 1 ≤ i ∧ Meets n v'.z ((rhoStep w n a)^[i] v'.y) := by
  induction f generalizing v with
  | zero => cases h
  | succ f ih =>
    rw [rhoSearch] at h
    split_ifs at h with hfound
    · cases h
      rw [Bool.and_eq_true, bne_iff_ne] at hfound
      exact (searchStep_product hodd h3 hn hv).resolve_left hfound.2
    · exact ih (hv.advance hodd h3 hn hfound) h

/-- A batch whose head meets the compared value ends the search. -/
theorem rhoSearch_isSome_of_meet {f : Nat} {v : RhoVars} (hv : Searching w n a v) (hf : v.k ≤ f)
    (h : n ∣ v.P ∨ ∃ i, 1 ≤ i ∧ i ≤ v.k ∧ (rhoStep w n a)^[i] v.x = v.z) : (rhoSearch w n a f v).isSome := by
  induction f generalizing v with
  | zero =>
    have := hv.k_pos
    omega
  | succ f ih =>
    rw [rhoSearch]
    split_ifs with hfound
    · rfl
    · have hnext := hv.advance hodd h3 hn hfound
      have hcase : n ∣ (searchStep w n a v).P ∨
          ∃ i, 1 ≤ i ∧ i ≤ v.k - 1 ∧ (rhoStep w n a)^[i] (rhoStep w n a v.x) = v.z := by
        obtain h | ⟨i, h1, hi, h⟩ := h
        · exact .inl (dvd_searchStep_P hodd h3 hn hv (.inl h))
        · obtain ⟨j, rfl⟩ := Nat.exists_eq_succ_of_ne_zero (by omega : i ≠ 0)
          rw [Function.iterate_succ_apply] at h
          obtain rfl | hj := Nat.eq_zero_or_pos j
          · exact .inl (dvd_searchStep_P hodd h3 hn hv (.inr h))
          · exact .inr ⟨j, hj, by omega, h⟩
      by_cases hk : v.k - 1 = 0
      · exfalso
        have hk1 : v.k = 1 := by have := hv.k_pos; omega
        have hdvd := hcase.resolve_right fun ⟨i, h1, hi, _⟩ => by omega
        have hdue : gcdDue (searchStep w n a v) = true := by simp [gcdDue, searchStep, hk1, Config.rhoBatch]
        rw [hdue, Bool.true_and, bne_iff_ne, not_not, Nat.gcd_eq_right hdvd] at hfound
        omega
      · have hadv := searchAdvance_within_batch (w := w) (n := n) (a := a) hk
        refine ih hnext ?_ ?_
        · rw [hadv]
          simp only
          omega
        · rw [hadv]
          exact hcase

/-- A batch ends the search or runs to its end, where the next one begins (R165). -/
theorem rhoSearch_batch {f : Nat} {v : RhoVars} (hv : Searching w n a v) (hf : v.k ≤ f) :
    (rhoSearch w n a f v).isSome ∨ ∃ v', Searching w n a v' ∧ rhoSearch w n a f v = rhoSearch w n a (f - v.k) v' ∧
      v'.z = (rhoStep w n a)^[v.k] v.x ∧ v'.x = (rhoStep w n a)^[v.l] v'.z ∧ v'.k = v.l ∧ v'.l = 2 * v.l := by
  induction f generalizing v with
  | zero =>
    have := hv.k_pos
    omega
  | succ f ih =>
    rw [rhoSearch]
    split_ifs with hfound
    · exact .inl rfl
    · have hnext := hv.advance hodd h3 hn hfound
      by_cases hk : v.k - 1 = 0
      · have hk1 : v.k = 1 := by have := hv.k_pos; omega
        have hadv := searchAdvance_batch_end (w := w) (n := n) (a := a) hk
        refine .inr ⟨_, hnext, by rw [hk1, Nat.add_sub_cancel], ?_⟩
        rw [hadv, hk1]
        exact ⟨rfl, rhoSteps_eq _ _, rfl, rfl⟩
      · have hadv := searchAdvance_within_batch (w := w) (n := n) (a := a) hk
        obtain ⟨k, hk'⟩ := Nat.exists_eq_succ_of_ne_zero (by omega : v.k ≠ 0)
        have hrest := ih hnext (by rw [hadv]; simp only; omega)
        rw [hadv] at hrest ⊢
        simp only [hk', Nat.succ_eq_add_one, Nat.add_sub_cancel, Nat.add_sub_add_right,
          Function.iterate_succ_apply] at hrest ⊢
        exact hrest

/-- The batch of length `L` is the one whose compared value is the `2L - 1`-th of the iteration. -/
theorem rhoSearch_isSome_of_batch {f L x0 : Nat} {v : RhoVars} (hv : Searching w n a v) (hk : v.k = L) (hl : v.l = 2 * L)
    (hz : v.z = (rhoStep w n a)^[2 * L - 1] x0) (hx : v.x = (rhoStep w n a)^[L] v.z) (hL : L < 2 * n)
    (hf : 4 * n ≤ f + L) : (rhoSearch w n a f v).isSome := by
  have hpos : 1 ≤ L := hk ▸ hv.k_pos
  by_cases hlong : n ≤ L
  · obtain ⟨i, h1, hi, heq⟩ := exists_iterate_add_eq (rhoStep_lt (w := w) (a := a) h3) x0 (m := 2 * L - 1) (by omega) hlong
    refine rhoSearch_isSome_of_meet hodd h3 hn hv (by omega) (.inr ⟨i, h1, by omega, ?_⟩)
    rw [hx, ← Function.iterate_add_apply, add_comm, hz, heq]
  · obtain h | ⟨v', hv', hrun, hz', hx', hk', hl'⟩ := rhoSearch_batch hodd h3 hn (f := f) hv (by omega)
    · exact h
    · rw [hrun]
      refine rhoSearch_isSome_of_batch (L := 2 * L) (x0 := x0) hv' (hk'.trans hl) (by rw [hl', hl]) ?_ ?_ (by omega)
        (by omega)
      · rw [hz', hk, hx, hz, ← Function.iterate_add_apply, ← Function.iterate_add_apply]
        exact congrArg ((rhoStep w n a)^[·] x0) (by omega)
      · rw [hx', hl]
termination_by 2 * n - L

omit hn in
theorem searching_rhoInit : Searching w n a (rhoInit w n) := by
  have hone : tomont w 1 n = mont w n 1 := tomont_eq_mont w (by omega)
  have hx : addmod (tomont w 1 n) (tomont w 1 n) n < n := Nat.mod_lt _ (by omega)
  refine ⟨hx, hx, ?_, le_rfl, le_rfl, ⟨0, rfl⟩, .inl ?_⟩
  · show tomont w 1 n < n
    rw [hone]
    exact mont_lt w (by omega) 1
  · show Nat.gcd (tomont w 1 n) n = 1
    rw [hone, mont, one_mul, (Nat.mod_modEq w.radix n).gcd_eq]
    exact (coprime_radix w hodd).symm

/-- The first detection exists. -/
theorem rhoDetect_isSome : (rhoDetect w n a (rhoInit w n)).isSome := by
  have hinit := searching_rhoInit (w := w) (a := a) hodd h3
  have hsearch : (rhoSearch w n a (searchBound n (rhoInit w n)) (rhoInit w n)).isSome := by
    obtain h | ⟨v, hv, hrun, hz, hx, hk, hl⟩ :=
      rhoSearch_batch hodd h3 hn (f := searchBound n (rhoInit w n)) hinit 
        (by simp only [searchBound, rhoInit]; omega)
    · exact h
    · rw [hrun]
      exact rhoSearch_isSome_of_batch (L := 1) (x0 := (rhoInit w n).x) hodd h3 hn hv hk hl hz hx (by omega)
        (by simp only [searchBound, rhoInit]; omega)
  obtain ⟨v, hv⟩ := Option.isSome_iff_exists.mp hsearch
  obtain ⟨i, h1, hmeet⟩ := exists_meets_of_rhoSearch hodd h3 hn hinit hv
  obtain ⟨j, hj, hjn, hmeet'⟩ := exists_iterate_le (rhoStep_lt h3) v.y (Q := Meets n v.z) i h1 hmeet
  obtain ⟨⟨y, g⟩, hback⟩ := Option.isSome_iff_exists.mp (rhoBacktrack_isSome hj hjn hmeet')
  simp only [rhoDetect, hv, hback, Option.isSome_some]

end Search

end Sys2Proof.Machine
end

section
/-!
PROOFS. The statement of spec/44_rho_factor.md on the first detection (R166).
-/
open Sys2Proof Sys2Proof.Machine

/-- Settles O46: a detection exists, and its `g` divides `n` and is not 1. -/
theorem rhoFirstDetectionExists : Obligations.RhoFirstDetectionExists := by
  intro n a hodd h3 hlt _
  obtain ⟨⟨v, g⟩, hdetect⟩ := Option.isSome_iff_exists.mp
    (rhoDetect_isSome (a := a) hodd h3 (lt_radix_widthOf hlt))
  obtain ⟨hdvd, hone⟩ := rhoDetect_some hdetect
  have hpos := Nat.pos_of_dvd_of_pos hdvd (by omega : 0 < n)
  exact ⟨v, g, hdetect, by omega, hdvd⟩
end
